-- ==== Sys2Proof/Word.lean ====
section
/-! DEFINITION. The word types of the block (00_scope.md R11, R14; 20_memory.md R48; 30_encoding.md R70).
All values are unsigned; bit 0 is the least significant bit (R11). -/

namespace Sys2Proof

/-- A PHY register value, or the same 16 bits as the bus carries them (a bus word, R49). -/
abbrev Word16 := BitVec 16

/-- A 32-bit PHY identifier (R14, R102). -/
abbrev Id32 := BitVec 32

/-- A PHY register number, 0 to 255 (R32, R48). -/
abbrev RegNum := BitVec 8

/-- A bus device address (R48). -/
abbrev DevAddr := BitVec 7

/-- A 64-bit operation descriptor (R69, R70). -/
abbrev Descriptor := BitVec 64

/-- The micro-step counter's range, 0..63 (10_state.md R23). -/
abbrev Upc := Fin 64

end Sys2Proof
end

