-- ==== Sys2Proof/Config.lean ====
section
/-! DEFINITION. What an implementation fixes (00_scope.md R9) as plain data, and the free values of the PHY oracle
(20_memory.md R50). The parameters are a field of `State`, so that statements hold for every parameter set; their
defaults are in Machine/Defaults.lean. -/

namespace Sys2Proof

/-- The driver kinds: a closed set with one constructor per PHY family (R14, R98). -/
inductive DriverKind where
  | kModeled
  deriving DecidableEq, Repr

/-- Which bits of `GSTAT` hold the partner's 1000 Mb/s abilities (10_state.md R39). -/
inductive GstatLayout where
  /-- Bits 9 and 8, the positions of `GCTRL`. -/
  | inverse
  /-- Bits 11 and 10, the IEEE 802.3 positions. -/
  | ieee
  deriving DecidableEq, Repr

/-- When the speed pattern `11` of the status register is a fault (40_codec.md R94). -/
inductive FaultScope where
  /-- Only when the link is up and resolved. -/
  | meaningful
  /-- Whatever the link and resolved bits are. -/
  | always
  deriving DecidableEq, Repr

/-- One row of the directory (R9, 41_driver.md R103). -/
structure DirEntry where
  idPattern : Id32
  mask : Id32
  kind : DriverKind
  deriving DecidableEq, Repr

/-- The parameters of R9. Register numbers are below 256 and bit positions below 16 by their types.
The speed field stays at its default [15:14] (R9, R10, R97: no other status position is a parameter of the source);
`N_INSTANCES` is the length of a `System` (R136). -/
structure Params where
  wireSwap : Bool
  phyDevAddr : DevAddr
  regCtrl : RegNum
  regId1 : RegNum
  regId2 : RegNum
  regAnar : RegNum
  regAnlpar : RegNum
  regGctrl : RegNum
  regGstat : RegNum
  regPssr : RegNum
  regExtsr : RegNum
  linkBit : Fin 16
  resolvedBit : Fin 16
  duplexStatusBit : Fin 16
  decodeFaultScope : FaultScope
  gstatLayout : GstatLayout
  tPollMs : Nat
  nPoll : Nat
  directory : List DirEntry
  deriving DecidableEq, Repr

/-- The PHY's answer to a `Read` (R49). -/
inductive ReadAnswer where
  /-- The bus word read. -/
  | ack (w : Word16)
  /-- Address not present. -/
  | noDevice
  /-- Every other failure. -/
  | busError
  /-- No answer yet: the micro-step is not enabled (70_reset_and_hazards.md R155). -/
  | silent
  deriving DecidableEq, Repr, Inhabited

/-- The PHY's answer to a `Write` (R49). -/
inductive WriteAnswer where
  | ack
  /-- Address not present. -/
  | noDevice
  /-- Every other failure. -/
  | busError
  /-- No answer yet: the micro-step is not enabled (R155). -/
  | silent
  deriving DecidableEq, Repr, Inhabited

/-- The answer of the oracle of one PHY, named by the number of its stream, to its `n`-th free draw, where that draw is
a `Read` (R50: any answer, under no law). It has no value any proof can see. Log entry 1. -/
opaque Config.freeRead : Nat → Nat → ReadAnswer

/-- The same, where that draw is a `Write` (R50). Log entry 1. -/
opaque Config.freeWrite : Nat → Nat → WriteAnswer

end Sys2Proof
end

