-- ==== Sys2Proof/Syntax.lean ====
section
/-! DEFINITION. The operations of the block, one constructor per row of the opcode table (30_encoding.md R71), and
their operand types. Each operand type holds exactly the values its field admits. -/

namespace Sys2Proof

/-- A set of the six capabilities (00_scope.md R14): a field is true when the key is present with value "advertise",
false when it is absent (30_encoding.md R73). -/
structure CapSet where
  c1000full : Bool
  c1000half : Bool
  c100full : Bool
  c100half : Bool
  c10full : Bool
  c10half : Bool
  deriving DecidableEq, Repr

/-- The duplex operand of SET_SPEED_DUPLEX, codes 0 to 3 in this order (R74). -/
inductive DuplexArg where
  | half
  | full
  | unknown
  /-- Any other value the host may pass. -/
  | other
  deriving DecidableEq, Repr

/-- The thirteen operations (R71). -/
inductive Instr where
  | identify
  | isSgmiiCapable
  | enableSgmii
  | softReset
  | setAutonegCaps (caps : CapSet)
  | getLpCaps
  | getLinkStatus
  | setSpeedDuplex (speed : Word16) (duplex : DuplexArg)
  | encAdv (caps : CapSet)
  | decLpCaps (anAdvBits gigEStatusBits : Word16)
  | decLinkStatus (statusBits : Word16)
  | busRead (reg : RegNum)
  | busWrite (reg : RegNum) (value : Word16)
  deriving DecidableEq, Repr

end Sys2Proof
end

