-- ==== Sys2Proof/WellFormed.lean ====
section
/-! DEFINITION. What must hold of the data the model is given. An `Instr` needs no check: its operand types hold
exactly what the descriptor fields of 30_encoding.md R70 admit (a 6-bit set, a 2-bit code, whole words and register
numbers), so every term encodes. A parameter set is checked by 00_scope.md R10. -/

namespace Sys2Proof

/-- The checks of R10 that a parameter set can fail. -/
inductive ParamError where
  /-- The five status-bit positions are not pairwise distinct. -/
  | statusBitsNotDistinct
  /-- `N_POLL` is 0. -/
  | nPollZero
  /-- A directory entry has pattern bits outside its mask. -/
  | directoryNotPremasked
  deriving DecidableEq, Repr

/-- The five status-bit positions of R10: the three parameters and the speed field's 14 and 15. -/
def Params.statusBits (p : Params) : List (Fin 16) :=
  [p.linkBit, p.resolvedBit, p.duplexStatusBit, 14, 15]

/-- "storedId pre-masked" (R10). -/
def DirEntry.premasked (e : DirEntry) : Bool :=
  e.idPattern &&& e.mask == e.idPattern

/-- The first check of R10 that the set fails, if it fails one. -/
def Params.problem (p : Params) : Option ParamError :=
  if p.statusBits.Nodup then
    if p.nPoll = 0 then some .nPollZero
    else if p.directory.all DirEntry.premasked then none
    else some .directoryNotPremasked
  else some .statusBitsNotDistinct

/-- A parameter set the model gives a meaning to (R10). -/
abbrev Params.WellFormed (p : Params) : Prop := p.problem = none

end Sys2Proof
end

