-- ==== Sys2Proof/Decode.lean ====
section
/-! DEFINITION. The descriptor format D64 (30_encoding.md R70), its decoder (R72, R77) and its encoder (R70, R71). -/

namespace Sys2Proof

/-! ### Operand forms -/

/-- The 6-bit capability mask as a set (R73): bit 5 is 1000full, bit 0 is 10half. -/
def CapSet.ofMask (m : BitVec 6) : CapSet where
  c1000full := m.getLsbD 5
  c1000half := m.getLsbD 4
  c100full := m.getLsbD 3
  c100half := m.getLsbD 2
  c10full := m.getLsbD 1
  c10half := m.getLsbD 0

/-- The set as a 6-bit mask (R73). -/
def CapSet.toMask (c : CapSet) : BitVec 6 :=
  BitVec.ofBool c.c1000full ++ BitVec.ofBool c.c1000half ++ BitVec.ofBool c.c100full ++
    BitVec.ofBool c.c100half ++ BitVec.ofBool c.c10full ++ BitVec.ofBool c.c10half

/-- The duplex code (R74). -/
def DuplexArg.ofCode (c : BitVec 2) : DuplexArg :=
  match c.toNat with
  | 0 => .half
  | 1 => .full
  | 2 => .unknown
  | _ => .other

/-- The code of a duplex operand (R74). -/
def DuplexArg.code : DuplexArg → BitVec 2
  | .half => 0#2
  | .full => 1#2
  | .unknown => 2#2
  | .other => 3#2

/-! ### Fields of a descriptor (R70) -/

/-- `OP`, bits 63:56. -/
def Descriptor.op (d : Descriptor) : BitVec 8 := d.extractLsb' 56 8

/-- `REG`, bits 55:48. -/
def Descriptor.reg (d : Descriptor) : RegNum := d.extractLsb' 48 8

/-- `A`, bits 31:16. -/
def Descriptor.a (d : Descriptor) : Word16 := d.extractLsb' 16 16

/-- `B`, bits 15:0. -/
def Descriptor.b (d : Descriptor) : Word16 := d.extractLsb' 0 16

/-- `B[5:0]`, a capability mask (R73). -/
def Descriptor.caps (d : Descriptor) : CapSet := CapSet.ofMask (d.extractLsb' 0 6)

/-- `B[1:0]`, a duplex code (R74). -/
def Descriptor.duplex (d : Descriptor) : DuplexArg := DuplexArg.ofCode (d.extractLsb' 0 2)

/-! ### The decoder -/

/-- One row of R72: a descriptor selects it iff its bits under `mask` are `want`. -/
structure DecodeRow where
  want : BitVec 64
  mask : BitVec 64
  build : Descriptor → Instr

/-- `d & row.mask == row.match` (R77). -/
def DecodeRow.hits (r : DecodeRow) (d : Descriptor) : Bool := d &&& r.mask == r.want

/-- The rows of R72, in the order listed there. -/
def decodeRows : List DecodeRow :=
  [ ⟨0x0100000000000000#64, 0xFFFFFFFFFFFFFFFF#64, fun _ => .identify⟩,
    ⟨0x0200000000000000#64, 0xFFFFFFFFFFFFFFFF#64, fun _ => .isSgmiiCapable⟩,
    ⟨0x0300000000000000#64, 0xFFFFFFFFFFFFFFFF#64, fun _ => .enableSgmii⟩,
    ⟨0x0400000000000000#64, 0xFFFFFFFFFFFFFFFF#64, fun _ => .softReset⟩,
    ⟨0x0500000000000000#64, 0xFFFFFFFFFFFFFFC0#64, fun d => .setAutonegCaps d.caps⟩,
    ⟨0x0600000000000000#64, 0xFFFFFFFFFFFFFFFF#64, fun _ => .getLpCaps⟩,
    ⟨0x0700000000000000#64, 0xFFFFFFFFFFFFFFFF#64, fun _ => .getLinkStatus⟩,
    ⟨0x0800000000000000#64, 0xFFFFFFFF0000FFFC#64, fun d => .setSpeedDuplex d.a d.duplex⟩,
    ⟨0x1000000000000000#64, 0xFFFFFFFFFFFFFFC0#64, fun d => .encAdv d.caps⟩,
    ⟨0x1100000000000000#64, 0xFFFFFFFF00000000#64, fun d => .decLpCaps d.a d.b⟩,
    ⟨0x1200000000000000#64, 0xFFFFFFFFFFFF0000#64, fun d => .decLinkStatus d.b⟩,
    ⟨0x2000000000000000#64, 0xFF00FFFFFFFFFFFF#64, fun d => .busRead d.reg⟩,
    ⟨0x2100000000000000#64, 0xFF00FFFFFFFF0000#64, fun d => .busWrite d.reg d.b⟩ ]

/-- Why a descriptor is `Illegal` (R77, R78). The machine answers both with `IllegalOp`. -/
inductive DecodeError where
  /-- The `OP` byte is assigned to no operation. -/
  | reservedOpcode
  /-- The `OP` byte is assigned, and a must-be-zero bit is set. -/
  | mustBeZero
  deriving DecidableEq, Repr

/-- Whether some row has this `OP` byte (R78). -/
def opAssigned (op : BitVec 8) : Bool := decodeRows.any fun r => Descriptor.op r.want == op

/-- Decode, total on all 2^64 descriptors (R77). -/
def decode (d : Descriptor) : Except DecodeError Instr :=
  match decodeRows.find? (·.hits d) with
  | some r => .ok (r.build d)
  | none => .error (if opAssigned (Descriptor.op d) then .mustBeZero else .reservedOpcode)

/-- The instruction the decoder reads from a descriptor given as the opcode table numbers its bits: one 64-bit word,
every bit above `nbits` zero (R69, R79). -/
def decodeTableWord (nbits w : Nat) : Option Instr :=
  match decode (BitVec.ofNat 64 (w % 2 ^ nbits)) with
  | .ok i => some i
  | .error _ => none

/-! ### The encoder -/

/-- The fields of R70 put together, `RSV` zero. -/
def packDescriptor (op : BitVec 8) (reg : RegNum) (a b : Word16) : Descriptor :=
  (op ++ reg ++ 0#16 ++ a ++ b).cast (by decide)

/-- The descriptor of an operation (R70, R71). -/
def encode : Instr → Descriptor
  | .identify => packDescriptor 0x01#8 0#8 0#16 0#16
  | .isSgmiiCapable => packDescriptor 0x02#8 0#8 0#16 0#16
  | .enableSgmii => packDescriptor 0x03#8 0#8 0#16 0#16
  | .softReset => packDescriptor 0x04#8 0#8 0#16 0#16
  | .setAutonegCaps caps => packDescriptor 0x05#8 0#8 0#16 (caps.toMask.setWidth 16)
  | .getLpCaps => packDescriptor 0x06#8 0#8 0#16 0#16
  | .getLinkStatus => packDescriptor 0x07#8 0#8 0#16 0#16
  | .setSpeedDuplex speed duplex => packDescriptor 0x08#8 0#8 speed (duplex.code.setWidth 16)
  | .encAdv caps => packDescriptor 0x10#8 0#8 0#16 (caps.toMask.setWidth 16)
  | .decLpCaps anAdvBits gigEStatusBits => packDescriptor 0x11#8 0#8 anAdvBits gigEStatusBits
  | .decLinkStatus statusBits => packDescriptor 0x12#8 0#8 0#16 statusBits
  | .busRead reg => packDescriptor 0x20#8 reg 0#16 0#16
  | .busWrite reg value => packDescriptor 0x21#8 reg 0#16 value

end Sys2Proof
end

