-- ==== Sys2Proof/Machine/Defaults.lean ====
section
/-! DEFINITION. The default parameter set of 00_scope.md R9. -/

namespace Sys2Proof.Machine

/-- The default directory: one entry, the revision masked off (R9, D17). -/
def defaultDirectory : List DirEntry :=
  [⟨0x01410CC0#32, 0xFFFFFFF0#32, .kModeled⟩]

/-- The defaults of R9. -/
def defaultParams : Params where
  wireSwap := true
  phyDevAddr := 0x56#7
  regCtrl := 0#8
  regId1 := 2#8
  regId2 := 3#8
  regAnar := 4#8
  regAnlpar := 5#8
  regGctrl := 9#8
  regGstat := 10#8
  regPssr := 17#8
  regExtsr := 27#8
  linkBit := 10
  resolvedBit := 11
  duplexStatusBit := 13
  decodeFaultScope := .meaningful
  gstatLayout := .inverse
  tPollMs := 75
  nPoll := 7
  directory := defaultDirectory

end Sys2Proof.Machine
end

