-- ==== Sys2Proof/Machine/State.lean ====
section
/-! DEFINITION. The state as plain data: the controller elements of 10_state.md R23, the bus handle of 20_memory.md
R57, the parameters of 00_scope.md R9, and the other agents' side (R16): the host's pending events and what it has
read, the PHY, the poll timer, and the log of what the block has done. -/

namespace Sys2Proof.Machine

/-! ### Values the controller holds -/

/-- The state-machine labels (R24). -/
inductive FsmState where
  | uninitialized
  | sgmiiProbed
  | autonegConfigured
  | forcedConfigured
  | linkDown
  | linkUp
  deriving DecidableEq, Repr

/-- The link state (R14). -/
inductive LinkState where
  | up
  | down
  deriving DecidableEq, Repr

/-- The duplex of a link (R14). -/
inductive Duplex where
  | full
  | half
  | unknown
  deriving DecidableEq, Repr

/-- The speed of a link in Mb/s, one of 0, 10, 100, 1000 (R14). -/
inductive LinkSpeed where
  | s0
  | s10
  | s100
  | s1000
  deriving DecidableEq, Repr

/-- A decoded link status (R14). -/
structure LinkStatus where
  state : LinkState
  speedMbps : LinkSpeed
  duplex : Duplex
  deriving DecidableEq, Repr

/-- The fault codes an operation can end with (60_exceptions.md R122), in the order of their numbers. -/
inductive ErrCode where
  | phyNotFoundNoDevice
  | phyNotFoundNoMatch
  | phyAccessBus
  | phyAccessResetTimeout
  | decodeFault
  | unsupportedSpeed
  | notBound
  | illegalOp
  deriving DecidableEq, Repr

/-- The value of a successful operation (R28). -/
inductive Value where
  | unit
  | idKind (id : Id32) (kind : DriverKind)
  | flag (b : Bool)
  | caps (s : CapSet)
  | advBits (anAdv gigECtrl : Word16)
  | link (ls : LinkStatus)
  | word (w : Word16)
  deriving DecidableEq, Repr

/-- The outcome of an operation (R28). -/
inductive Result where
  | ok (v : Value)
  | err (c : ErrCode)
  deriving DecidableEq, Repr

/-! ### The other agents -/

/-- What the host can do, one row each of R140. -/
inductive HostEvent where
  /-- Offer one descriptor; held while the block is busy (R139). -/
  | issue (d : Descriptor)
  /-- Let the block take one step. -/
  | wait
  /-- Read `result`. -/
  | readResult
  /-- Reset the block (R142, R143). -/
  | reset
  deriving DecidableEq, Repr

/-- A natural number or infinity (R51, `rstCount`). -/
inductive Count where
  | fin (n : Nat)
  | inf
  deriving DecidableEq, Repr

/-- One register of the reference responder: its number and its value. -/
abbrev RegCell := Nat × Word16

/-- The reference PHY responder (R51), for vectors and programs only. -/
structure RefPhy where
  regs : List RegCell
  present : Bool
  rstCount : Count
  resetClearReads : Count
  deriving DecidableEq, Repr

/-- The PHY agent (R16, R50). A transaction is answered by the next scripted answer if there is one, else by the
reference responder if one is attached, else by a free draw. The scripts are the model's own fields: they carry the free
input of a bus micro-step, and a statement holds for every value of them. Log entry 1. -/
structure Phy where
  readScript : List ReadAnswer
  writeScript : List WriteAnswer
  /-- Which PHY's free draws these are (R68, R136): no two blocks of a system share one. -/
  stream : Nat
  draws : Nat
  reference : Option RefPhy
  deriving DecidableEq, Repr

/-- The poll timer (R16, R134): the block's one interval timer, an agent of its own, whose only effect is to end a
`Wait`. No element of the controller tells that it has. Log entry 2. -/
inductive PollTimer where
  /-- It has ended no `Wait` that a poll read is still to follow. -/
  | idle
  /-- It has ended a `Wait`, and the poll read after it is not answered yet. -/
  | waitEnded
  deriving DecidableEq, Repr

/-- What the block has done, as the host and the bus see it (R63, R109, R118, R139). -/
inductive Event where
  /-- A descriptor was accepted (R69). -/
  | accept (d : Descriptor)
  /-- An answered `Read`; never `silent`. -/
  | read (dev : DevAddr) (reg : RegNum) (answer : ReadAnswer)
  /-- An answered `Write` of a bus word; never `silent`. -/
  | write (dev : DevAddr) (reg : RegNum) (w : Word16) (answer : WriteAnswer)
  /-- A poll wait of so many milliseconds (R13, R134). -/
  | wait (ms : Nat)
  /-- An operation ended with this result (R28). -/
  | done (r : Result)
  /-- The block was reset; whether that abandoned an operation (R143). -/
  | reset (abandoned : Bool)
  deriving DecidableEq, Repr

/-! ### The machine -/

/-- The state of one block and its surroundings. `fsm` to `result` are the controller elements of R23. -/
structure State where
  /-- The parameters (R9): configuration, written by no operation (R46, R53). -/
  params : Params
  fsm : FsmState
  kind : Option DriverKind
  phyId : Option Id32
  busy : Bool
  cur : Option Descriptor
  /-- The transactions and waits done since acceptance, which is the index of the next (R25, 41_driver.md R118). For
  budgets whose count passes R23's range: log entry 22. -/
  upc : Upc
  /-- The poll reads done by the current soft reset (R23, 41_driver.md R108). -/
  poll : Nat
  tmp : Word16
  tmp2 : Word16
  result : Option Result
  /-- The scoped bus handle is held (R57). -/
  busHeld : Bool
  /-- The host's pending events, oldest first (R140). -/
  host : List HostEvent
  /-- The results the host has read, newest first (R140). -/
  replies : List Result
  phy : Phy
  /-- The poll-timer agent (R16), no element of the controller. Log entry 2. -/
  pollTimer : PollTimer
  /-- What the block has done, newest first: the model's record of it, for statements. No step depends on it. -/
  log : List Event
  deriving DecidableEq, Repr

/-- Reasons the model stops. An operation that fails is no fault: it ends with an `Err` result (R128, R130). -/
inductive Fault where
  /-- The host read `result` while it is `none` (R43, R130). Raised by the host's read. Safe: the model stops where the
  spec forbids the host to go on. -/
  | resultUnread
  /-- `upc` is no index of the running operation's sequence. Raised by the meanings of operations with several
  micro-steps. Safe: no state reachable from reset has it. -/
  | upcOutOfSequence
  /-- `busy` is true and `cur` is `none`, against R26. Raised by the controller. Safe: no state reachable from reset
  has it. -/
  | noDescriptor
  deriving DecidableEq, Repr

/-- Reasons the model gives no meaning. -/
inductive Refusal where
  /-- The instruction has no meaning yet. Raised by `exec` alone. Safe: the model stops. -/
  | notModelled (mnemonic : String)
  /-- The parameter set fails R10, so the model is refused (R130). Raised by the step before anything else. Safe: the
  model stops where the spec refuses the set. -/
  | illFormedParams (e : ParamError)
  deriving DecidableEq, Repr

/-- The answer of a meaning or a step. -/
abbrev Out := Host.Outcome State Fault Refusal

/-- The PHY right after the block's reset, as far as the model names it: an oracle with no scripted answer (R44, R50).
-/
def Phy.oracle : Phy where
  readScript := []
  writeScript := []
  stream := 0
  draws := 0
  reference := none

/-- The machine right after reset (R43, R142). `tmp` and `tmp2`, which have no value there, are 0 (log entry 4). The
fields outside R23 have the values of log entries 1, 3, 5 and 9. -/
def State.reset : State where
  params := defaultParams
  fsm := .uninitialized
  kind := none
  phyId := none
  busy := false
  cur := none
  upc := 0
  poll := 0
  tmp := 0#16
  tmp2 := 0#16
  result := none
  busHeld := false
  host := []
  replies := []
  phy := Phy.oracle
  pollTimer := .idle
  log := []

end Sys2Proof.Machine
end

