-- ==== Sys2Proof/Machine/Kinds.lean ====
section
/-! DEFINITION. What a driver kind supplies: its register numbers and its constant table (10_state.md R42,
41_driver.md R98), and the directory match (41_driver.md R103). -/

namespace Sys2Proof.Machine

/-- The register numbers (R9) and constants (R42) of one driver kind. -/
structure KindTable where
  regCtrl : RegNum
  regAnar : RegNum
  regAnlpar : RegNum
  regGctrl : RegNum
  regGstat : RegNum
  regPssr : RegNum
  regExtsr : RegNum
  advBase : Word16
  adv100full : Word16
  adv100half : Word16
  adv10full : Word16
  adv10half : Word16
  advMask : Word16
  gig1000full : Word16
  gig1000half : Word16
  gigMask : Word16
  gstat1000full : Word16
  gstat1000half : Word16
  ctrlReset : Word16
  ctrlAnen : Word16
  ctrlDuplex : Word16
  speed1000 : Word16
  speed100 : Word16
  speed10 : Word16
  extMask : Word16
  extSgmii : Word16
  sgmiiCapable : Bool
  deriving DecidableEq, Repr

/-- The table of a kind: every value of R42, with the register numbers of the parameter set. -/
def kindTable (p : Params) : DriverKind → KindTable
  | .kModeled =>
    { regCtrl := p.regCtrl
      regAnar := p.regAnar
      regAnlpar := p.regAnlpar
      regGctrl := p.regGctrl
      regGstat := p.regGstat
      regPssr := p.regPssr
      regExtsr := p.regExtsr
      advBase := 0x0C00#16
      adv100full := 0x0100#16
      adv100half := 0x0080#16
      adv10full := 0x0040#16
      adv10half := 0x0020#16
      advMask := 0x0DE0#16
      gig1000full := 0x0200#16
      gig1000half := 0x0100#16
      gigMask := 0x0300#16
      gstat1000full := match p.gstatLayout with
        | .inverse => 0x0200#16
        | .ieee => 0x0800#16
      gstat1000half := match p.gstatLayout with
        | .inverse => 0x0100#16
        | .ieee => 0x0400#16
      ctrlReset := 0x8000#16
      ctrlAnen := 0x1000#16
      ctrlDuplex := 0x0100#16
      speed1000 := 0x0040#16
      speed100 := 0x2000#16
      speed10 := 0x0000#16
      extMask := 0x800F#16
      extSgmii := 0x8004#16
      sgmiiCapable := true }

/-- The table the codec operations use, which need no binding (40_codec.md R85): that of the one kind there is. -/
def codecTable (p : Params) : KindTable := kindTable p .kModeled

/-- The first directory entry, in order, with `id & mask == idPattern` (R103). -/
def dirMatch : List DirEntry → Id32 → Option DirEntry
  | [], _ => none
  | e :: rest, id => if id &&& e.mask = e.idPattern then some e else dirMatch rest id

/-- The ID from the register values of `ID1` and `ID2`: high byte, low byte, high byte, low byte (R102). -/
def assembleId (v1 v2 : Word16) : Id32 := v1 ++ v2

end Sys2Proof.Machine
end

