-- ==== Sys2Proof/Machine/Flags.lean ====
section
/-! DEFINITION. What status bits mean: the link-partner decoder (40_codec.md R89), the link-status decoder (R93) and
the link label (41_driver.md R114). The block itself has no flags (10_state.md R30). -/

namespace Sys2Proof.Machine

/-- Whether a register value has a bit of `bits` set. -/
def tests (v bits : Word16) : Bool := v &&& bits != 0#16

/-- `decodeLinkPartnerCaps` (R89). -/
def decodeLinkPartnerCaps (t : KindTable) (p s : Word16) : CapSet where
  c1000full := tests s t.gstat1000full
  c1000half := tests s t.gstat1000half
  c100full := tests p t.adv100full
  c100half := tests p t.adv100half
  c10full := tests p t.adv10full
  c10half := tests p t.adv10half

/-- The speed field `S = s[15:14]` (R40, R93): `none` is the pattern `11`. -/
def speedOf (s : Word16) : Option LinkSpeed :=
  match s.getLsbD 15, s.getLsbD 14 with
  | false, false => some .s10
  | false, true => some .s100
  | true, false => some .s1000
  | true, true => none

/-- `L = s[LINK_BIT]` (R93, R97). -/
def linkBitOf (p : Params) (s : Word16) : Bool := s.getLsbD p.linkBit.val

/-- `R = s[RESOLVED_BIT]` (R93). -/
def resolvedBitOf (p : Params) (s : Word16) : Bool := s.getLsbD p.resolvedBit.val

/-- `D = s[DUPLEX_STATUS_BIT]` (R93). -/
def duplexBitOf (p : Params) (s : Word16) : Duplex :=
  if s.getLsbD p.duplexStatusBit.val then .full else .half

/-- The status with no meaningful speed: "otherwise speed=0, duplex=Unknown" (00_scope.md R15, R93). -/
def unresolvedStatus (link : Bool) : LinkStatus where
  state := if link then .up else .down
  speedMbps := .s0
  duplex := .unknown

/-- `decodeLinkStatus` (R93, R94). -/
def decodeLinkStatus (p : Params) (s : Word16) : Except ErrCode LinkStatus :=
  match speedOf s with
  | none =>
    if p.decodeFaultScope = .always ∨ (linkBitOf p s = true ∧ resolvedBitOf p s = true) then .error .decodeFault
    else .ok (unresolvedStatus (linkBitOf p s))
  | some speed =>
    if linkBitOf p s = true ∧ resolvedBitOf p s = true then .ok ⟨.up, speed, duplexBitOf p s⟩
    else .ok (unresolvedStatus (linkBitOf p s))

/-- The label after GET_LINK_STATUS decoded a link state (R100, R114). -/
def labelAfterLink (fsm : FsmState) (link : LinkState) : FsmState :=
  match fsm with
  | .uninitialized => .uninitialized
  | .sgmiiProbed => .sgmiiProbed
  | .autonegConfigured | .forcedConfigured | .linkUp | .linkDown =>
    match link with
    | .up => .linkUp
    | .down => .linkDown

end Sys2Proof.Machine
end

