-- ==== Sys2Proof/Machine/Operands.lean ====
section
/-! DEFINITION. How the operands become register bits: a capability set as advertisement bits (40_codec.md R86) and a
speed and duplex as a control value (41_driver.md R116, R117). -/

namespace Sys2Proof.Machine

/-- `bit` if the key is present, else nothing. -/
def keyBits (present : Bool) (bit : Word16) : Word16 := if present then bit else 0#16

/-- All six capabilities, the full-capability default (30_encoding.md R82, 41_driver.md R106). -/
def allCaps : CapSet := ⟨true, true, true, true, true, true⟩

/-- The advertisement register's field of `advertisementBits` (R86). -/
def anAdvBits (t : KindTable) (caps : CapSet) : Word16 :=
  t.advBase ||| keyBits caps.c100full t.adv100full ||| keyBits caps.c100half t.adv100half |||
    keyBits caps.c10full t.adv10full ||| keyBits caps.c10half t.adv10half

/-- The 1000BASE-T control register's field of `advertisementBits` (R86). -/
def gigECtrlBits (t : KindTable) (caps : CapSet) : Word16 :=
  keyBits caps.c1000full t.gig1000full ||| keyBits caps.c1000half t.gig1000half

/-- `advertisementBits` (R86). -/
def advertisementBits (t : KindTable) (caps : CapSet) : Word16 × Word16 :=
  (anAdvBits t caps, gigECtrlBits t caps)

/-- `SPEED_BITS(speed)`; only 1000, 100 and 10 have one (R42, R75, R116). -/
def speedBits (t : KindTable) (speed : Word16) : Option Word16 :=
  if speed = 1000#16 then some t.speed1000
  else if speed = 100#16 then some t.speed100
  else if speed = 10#16 then some t.speed10
  else none

/-- "duplex=Half leaves the duplex bit clear, anything else sets it" (R74, R116). -/
def duplexBits (t : KindTable) : DuplexArg → Word16
  | .half => 0#16
  | .full => t.ctrlDuplex
  | .unknown => t.ctrlDuplex
  | .other => t.ctrlDuplex

/-- The value SET_SPEED_DUPLEX writes to `CTRL`, or none for an unsupported speed (R116, R117). -/
def controlValue (t : KindTable) (speed : Word16) (duplex : DuplexArg) : Option Word16 :=
  match speedBits t speed with
  | some v => some (v ||| duplexBits t duplex)
  | none => none

/-- The value an RMW writes: the owned bits replaced, the others as read (20_memory.md R56). -/
def mergeBits (read mask value : Word16) : Word16 := (read &&& ~~~mask) ||| value

end Sys2Proof.Machine
end

