-- ==== Sys2Proof/Machine/Wire.lean ====
section
/-! DEFINITION. The wire byte order (20_memory.md R52): bus words and register values. -/

namespace Sys2Proof.Machine

/-- The two bytes exchanged (R52). -/
def swap16 (x : Word16) : Word16 := x.extractLsb' 0 8 ++ x.extractLsb' 8 8

/-- Bus word to register value (R52). -/
def fromWire (p : Params) (w : Word16) : Word16 := if p.wireSwap then swap16 w else w

/-- Register value to bus word (R52). -/
def toWire (p : Params) (v : Word16) : Word16 := if p.wireSwap then swap16 v else v

end Sys2Proof.Machine
end

