-- ==== Sys2Proof/Machine/Phy.lean ====
section
/-! DEFINITION. The PHY agent: the oracle of 20_memory.md R50 and the reference responder of R51. -/

namespace Sys2Proof.Machine

/-! ### The reference responder's registers -/

/-- The value of a register; one that is not listed reads as 0 (log entry 9). -/
def regGet : List RegCell → Nat → Word16
  | [], _ => 0#16
  | (a, v) :: rest, r => if a = r then v else regGet rest r

/-- Set a register, keeping the numbers rising and no entry 0. -/
def regPut : List RegCell → Nat → Word16 → List RegCell
  | [], r, v => if v = 0#16 then [] else [(r, v)]
  | (a, x) :: rest, r, v =>
    if r < a then (if v = 0#16 then (a, x) :: rest else (r, v) :: (a, x) :: rest)
    else if r = a then (if v = 0#16 then rest else (r, v) :: rest)
    else (a, x) :: regPut rest r v

/-- The canonical form above a bound: numbers strictly rising from `lo` and below 256, no entry 0. -/
def regsWfFrom : Nat → List RegCell → Bool
  | _, [] => true
  | lo, (a, v) :: rest => decide (lo ≤ a) && decide (a < 256) && decide (v ≠ 0#16) && regsWfFrom (a + 1) rest

/-- The canonical form of the reference responder's registers. -/
def regsWf (l : List RegCell) : Bool := regsWfFrom 0 l

/-! ### The reference responder (R51) -/

/-- One less; infinity stays (R51). -/
def Count.pred : Count → Count
  | .fin n => .fin (n - 1)
  | .inf => .inf

/-- `rstCount > 0` (R51). -/
def Count.positive : Count → Bool
  | .fin n => decide (0 < n)
  | .inf => true

/-- The registers the responder ignores a write to (R51). -/
def refReadOnly (p : Params) (r : RegNum) : Bool :=
  r == p.regId1 || r == p.regId2 || r == p.regAnlpar || r == p.regGstat || r == p.regPssr

/-- What a read of `CTRL` does before it is answered: count down, or clear the reset bit (R51). -/
def refCtrlTick (p : Params) (f : RefPhy) : RefPhy :=
  if f.rstCount.positive then { f with rstCount := f.rstCount.pred }
  else { f with regs := regPut f.regs p.regCtrl.toNat (regGet f.regs p.regCtrl.toNat &&& 0x7FFF#16) }

/-- A read of a present responder's registers. -/
def refReadState (p : Params) (f : RefPhy) (r : RegNum) : RefPhy :=
  if r = p.regCtrl then refCtrlTick p f else f

/-- `Read(PHY_DEV_ADDR, r)` (R51). -/
def refRead (p : Params) (f : RefPhy) (r : RegNum) : ReadAnswer × RefPhy :=
  if f.present then
    (.ack (toWire p (regGet (refReadState p f r).regs r.toNat)), refReadState p f r)
  else (.noDevice, f)

/-- A write of a register value to a present responder (R51). -/
def refWriteState (p : Params) (f : RefPhy) (r : RegNum) (v : Word16) : RefPhy :=
  if refReadOnly p r then f
  else
    { f with
      regs := regPut f.regs r.toNat v
      rstCount := if r = p.regCtrl ∧ v.getLsbD 15 = true then f.resetClearReads else f.rstCount }

/-- `Write(PHY_DEV_ADDR, r, w)`, `w` a bus word (R51). -/
def refWrite (p : Params) (f : RefPhy) (r : RegNum) (w : Word16) : WriteAnswer × RefPhy :=
  if f.present then (.ack, refWriteState p f r (fromWire p w)) else (.noDevice, f)

/-! ### The PHY agent (R50) -/

/-- The answer to `Read(PHY_DEV_ADDR, r)` and the PHY after it. -/
def phyRead (p : Params) (y : Phy) (r : RegNum) : ReadAnswer × Phy :=
  match y.readScript with
  | a :: rest => (a, { y with readScript := rest })
  | [] =>
    match y.reference with
    | some f => ((refRead p f r).1, { y with reference := some (refRead p f r).2 })
    | none => (Config.freeRead y.stream y.draws, { y with draws := y.draws + 1 })

/-- The answer to `Write(PHY_DEV_ADDR, r, w)` and the PHY after it. -/
def phyWrite (p : Params) (y : Phy) (r : RegNum) (w : Word16) : WriteAnswer × Phy :=
  match y.writeScript with
  | a :: rest => (a, { y with writeScript := rest })
  | [] =>
    match y.reference with
    | some f => ((refWrite p f r w).1, { y with reference := some (refWrite p f r w).2 })
    | none => (Config.freeWrite y.stream y.draws, { y with draws := y.draws + 1 })

end Sys2Proof.Machine
end

