-- ==== Sys2Proof/Machine/Ops.lean ====
section
/-! DEFINITION. The named operations on the state: accepting, ending and faulting an operation, the bus primitives
(20_memory.md R54 to R56), the poll wait (00_scope.md R13) and the need for a binding (41_driver.md R99). -/

namespace Sys2Proof.Machine

/-! ### Updates of one element -/

def setTmp (v : Word16) (s : State) : State := { s with tmp := v }

def setTmp2 (v : Word16) (s : State) : State := { s with tmp2 := v }

def setPoll (n : Nat) (s : State) : State := { s with poll := n }

def setFsm (l : FsmState) (s : State) : State := { s with fsm := l }

/-- One more transaction or wait (41_driver.md R118). It never wraps (R25). -/
def countUp (u : Upc) : Upc := if h : u.val < 63 then ⟨u.val + 1, by omega⟩ else u

/-- `u`, or `room` where `u` is past it: a poll repeat that R23's range has no room for is not counted. Log entry 22. -/
def within (room u : Upc) : Upc := if room < u then room else u

/-- One more poll read of the current soft reset (R108), `upc` within `room`. -/
def countPoll (room : Upc) (s : State) : State := { s with poll := s.poll + 1, upc := within room s.upc }

/-- "any IDENTIFY clears both first" (R27), and the label with them (41_driver.md R101). -/
def unbind (s : State) : State := { s with kind := none, phyId := none, fsm := .uninitialized }

/-- The binding a successful IDENTIFY makes (R27, R101). -/
def bindKind (k : DriverKind) (id : Id32) (s : State) : State := { s with kind := some k, phyId := some id }

/-! ### An operation's life -/

/-- Acceptance: `busy` true, `cur` the descriptor, `upc` 0 (R25, R26, R69). -/
def acceptOp (d : Descriptor) (s : State) : State :=
  { s with busy := true, cur := some d, upc := 0, log := .accept d :: s.log }

/-- The end of an operation: `result` written, `cur` none, `busy` false, the handle released (R26, R28, R57), and
the poll timer idle. -/
def finish (r : Result) (s : State) : State :=
  { s with
    result := some r, cur := none, busy := false, busHeld := false, pollTimer := .idle
    log := .done r :: s.log }

/-- `result <- Ok(v)`. -/
def succeed (v : Value) (s : State) : State := finish (.ok v) s

/-- Raising a fault: the operation ends with its code and nothing is rolled back (60_exceptions.md R128). There is no
return from it (R129). -/
def raise (c : ErrCode) (s : State) : State := finish (.err c) s

/-! ### The bus -/

/-- An answered transaction: the PHY moves on, the handle is held (R57), the log has the transaction. A wait that the
timer has ended has been followed by it (R108). -/
def transacted (e : Event) (y : Phy) (s : State) : State :=
  { s with phy := y, busHeld := true, pollTimer := .idle, log := e :: s.log }

/-- A transaction that is not answered yet: the micro-step is not enabled, and only the draw is used up
(70_reset_and_hazards.md R155). -/
def unanswered (y : Phy) (s : State) : State := { s with phy := y }

/-- The transaction or wait is done: `upc` advances by one (R25, R118). -/
def advance (s : State) : State := { s with upc := countUp s.upc }

/-- The answer the PHY gives to a read of `reg` in this state. -/
def readAnswer (reg : RegNum) (s : State) : ReadAnswer := (phyRead s.params s.phy reg).1

/-- The PHY after it. -/
def readPhy (reg : RegNum) (s : State) : Phy := (phyRead s.params s.phy reg).2

/-- The answer the PHY gives to a write of the register value `v` to `reg` in this state. -/
def writeAnswer (reg : RegNum) (v : Word16) (s : State) : WriteAnswer :=
  (phyWrite s.params s.phy reg (toWire s.params v)).1

/-- The PHY after it. -/
def writePhy (reg : RegNum) (v : Word16) (s : State) : Phy :=
  (phyWrite s.params s.phy reg (toWire s.params v)).2

/-- The state after a read answered `a`. -/
def afterRead (reg : RegNum) (a : ReadAnswer) (s : State) : State :=
  transacted (.read s.params.phyDevAddr reg a) (readPhy reg s) s

/-- The state after a write of `v` answered `a`. -/
def afterWrite (reg : RegNum) (v : Word16) (a : WriteAnswer) (s : State) : State :=
  transacted (.write s.params.phyDevAddr reg (toWire s.params v) a) (writePhy reg v s) s

/-- `BusRead(reg)`, then `k` with the register value (R54). -/
def busRead (reg : RegNum) (k : Word16 → State → State) (s : State) : State :=
  match readAnswer reg s with
  | .ack w => k (fromWire s.params w) (advance (afterRead reg (.ack w) s))
  | .noDevice => raise .phyNotFoundNoDevice (afterRead reg .noDevice s)
  | .busError => raise .phyAccessBus (afterRead reg .busError s)
  | .silent => unanswered (readPhy reg s) s

/-- `BusWrite(reg, v)`, then `k` (R55). -/
def busWrite (reg : RegNum) (v : Word16) (k : State → State) (s : State) : State :=
  match writeAnswer reg v s with
  | .ack => k (advance (afterWrite reg v .ack s))
  | .noDevice => raise .phyNotFoundNoDevice (afterWrite reg v .noDevice s)
  | .busError => raise .phyAccessBus (afterWrite reg v .busError s)
  | .silent => unanswered (writePhy reg v s) s

/-- The first micro-step of `RMW(reg, mask, value)`: `tmp <- BusRead(reg)` (R56). -/
def rmwRead (reg : RegNum) (s : State) : State := busRead reg setTmp s

/-- The second: `BusWrite(reg, (tmp & ~mask) | value)` (R56). -/
def rmwWrite (reg : RegNum) (mask value : Word16) (s : State) : State :=
  busWrite reg (mergeBits s.tmp mask value) id s

/-- `Wait(T_POLL_MS)`: one micro-step, which the poll timer ends (R13, R16, 60_exceptions.md R134, R154). -/
def pollWait (s : State) : State :=
  advance { s with pollTimer := .waitEnded, log := .wait s.params.tPollMs :: s.log }

/-! ### The binding -/

/-- A driver operation: `NotBound` before any transaction if there is no kind, else `f` with the bound kind's table
(R98, R99). -/
def driver (s : State) (f : KindTable → Out) : Out :=
  match s.kind with
  | none => .next (raise .notBound s)
  | some k => f (kindTable s.params k)

end Sys2Proof.Machine
end

