-- ==== Sys2Proof/Machine/Sequences.lean ====
section
/-! DEFINITION. The two micro-sequences several operations share: the soft-reset handshake (41_driver.md R108) and the
auto-negotiation setup (R111). `o` is the offset of the micro-step in the listing, the poll loop listed once; `room` is
the last index `upc` may give a poll wait (log entry 22); `done` is what follows when the sequence returns. -/

namespace Sys2Proof.Machine

/-- The line of a listing that `upc` is at, where a soft reset from line `base` (an even number) on ends the listing:
past its two first transactions a wait and a poll read alternate (R25, R108). -/
def resetLine (base : Nat) (s : State) : Nat :=
  if s.upc.val < base + 2 then s.upc.val else if s.upc.val % 2 = 0 then base + 2 else base + 3

/-- `while poll < N_POLL`: another wait, or the timeout (R108). -/
def pollHead (s : State) : State :=
  if s.poll < s.params.nPoll then s else raise .phyAccessResetTimeout s

/-- What follows a poll read: return if the reset bit has cleared (R108). -/
def pollCheck (t : KindTable) (done : State → State) (s : State) : State :=
  if s.tmp &&& t.ctrlReset = 0#16 then done s else pollHead s

/-- After a poll read that returned `v`: it is kept in `tmp`, counted and tested (R108). -/
def pollDone (t : KindTable) (room : Upc) (done : State → State) (v : Word16) (s : State) : State :=
  pollCheck t done (countPoll room (setTmp v s))

/-- `softResetSeq()` (R108): 0 read, 1 set the bit, 2 wait, 3 poll read. -/
def softResetSeq (t : KindTable) (room : Upc) (o : Nat) (done : State → State) (s : State) : Out :=
  match o with
  | 0 => .next (busRead t.regCtrl setTmp s)
  | 1 => .next (busWrite t.regCtrl (s.tmp ||| t.ctrlReset) (fun u => pollHead (setPoll 0 u)) s)
  | 2 => .next (pollWait s)
  | 3 => .next (busRead t.regCtrl (pollDone t room done) s)
  | _ => .fault .upcOutOfSequence

/-- `setAutonegSeq(caps)` (R111): 0, 1 ANAR; 2, 3 GCTRL; 4, 5 CTRL; then the soft reset, the last of its operation. -/
def setAutonegSeq (t : KindTable) (o : Nat) (caps : CapSet) (done : State → State) (s : State) : Out :=
  match o with
  | 0 => .next (rmwRead t.regAnar s)
  | 1 => .next (rmwWrite t.regAnar t.advMask (anAdvBits t caps) s)
  | 2 => .next (rmwRead t.regGctrl s)
  | 3 => .next (rmwWrite t.regGctrl t.gigMask (gigECtrlBits t caps) s)
  | 4 => .next (rmwRead t.regCtrl s)
  | 5 => .next (rmwWrite t.regCtrl t.ctrlAnen t.ctrlAnen s)
  | n + 6 => softResetSeq t 62 n (fun u => done (setFsm .autonegConfigured u)) s

end Sys2Proof.Machine
end

