-- ==== Sys2Proof/Machine/Autoneg.lean ====
section
/-! DEFINITION. SOFT_RESET, SET_AUTONEG_CAPS and GET_LP_CAPS (41_driver.md R110, R112, R113). -/

namespace Sys2Proof.Machine

/-- SOFT_RESET (R110). -/
def execSoftReset (s : State) : Out :=
  driver s fun t => softResetSeq t 62 (resetLine 0 s) (succeed .unit) s

/-- SET_AUTONEG_CAPS (R112). -/
def execSetAutonegCaps (caps : CapSet) (s : State) : Out :=
  driver s fun t => setAutonegSeq t (resetLine 6 s) caps (succeed .unit) s

/-- GET_LP_CAPS (R113). -/
def execGetLpCaps (s : State) : Out :=
  driver s fun t =>
    match s.upc.val with
    | 0 => .next (busRead t.regAnlpar setTmp s)
    | 1 => .next (busRead t.regGstat
        (fun v u => succeed (.caps (decodeLinkPartnerCaps t u.tmp v)) (setTmp2 v u)) s)
    | _ => .fault .upcOutOfSequence

end Sys2Proof.Machine
end

