-- ==== Sys2Proof/Machine/Bus.lean ====
section
/-! DEFINITION. The register pass-through operations (42_bus.md R119 to R121): no binding, any register number. -/

namespace Sys2Proof.Machine

/-- BUS_READ (R120). -/
def execBusRead (reg : RegNum) (s : State) : Out :=
  .next (busRead reg (fun v u => succeed (.word v) (setTmp v u)) s)

/-- BUS_WRITE (R121): the value as given, no mask. -/
def execBusWrite (reg : RegNum) (value : Word16) (s : State) : Out :=
  .next (busWrite reg value (succeed .unit) s)

end Sys2Proof.Machine
end

