-- ==== Sys2Proof/Machine/Codec.lean ====
section
/-! DEFINITION. The codec operations (40_codec.md R88, R91, R96): no binding, no transaction, only `result` written
(R85). -/

namespace Sys2Proof.Machine

/-- ENC_ADV (R88). -/
def execEncAdv (caps : CapSet) (s : State) : Out :=
  .next (succeed (.advBits (anAdvBits (codecTable s.params) caps) (gigECtrlBits (codecTable s.params) caps)) s)

/-- DEC_LP_CAPS (R91). -/
def execDecLpCaps (p g : Word16) (s : State) : Out :=
  .next (succeed (.caps (decodeLinkPartnerCaps (codecTable s.params) p g)) s)

/-- DEC_LINK_STATUS (R96); the label is not moved. -/
def execDecLinkStatus (b : Word16) (s : State) : Out :=
  match decodeLinkStatus s.params b with
  | .error c => .next (raise c s)
  | .ok ls => .next (succeed (.link ls) s)

end Sys2Proof.Machine
end

