-- ==== Sys2Proof/Machine/Identify.lean ====
section
/-! DEFINITION. IDENTIFY (41_driver.md R101 to R104). -/

namespace Sys2Proof.Machine

/-- After the second read: the ID, the directory scan, and the binding or `PhyNotFound_NoMatch` (R101, R103). -/
def identifyMatch (s : State) : State :=
  match dirMatch s.params.directory (assembleId s.tmp s.tmp2) with
  | some e => succeed (.idKind (assembleId s.tmp s.tmp2) e.kind) (bindKind e.kind (assembleId s.tmp s.tmp2) s)
  | none => raise .phyNotFoundNoMatch s

/-- IDENTIFY (R101). The clearing goes with micro-step 0, so it stands whatever the first read is answered. -/
def execIdentify (s : State) : Out :=
  match s.upc.val with
  | 0 => .next (busRead s.params.regId1 setTmp (unbind s))
  | 1 => .next (busRead s.params.regId2 (fun v u => identifyMatch (setTmp2 v u)) s)
  | _ => .fault .upcOutOfSequence

end Sys2Proof.Machine
end

