-- ==== Sys2Proof/Machine/Link.lean ====
section
/-! DEFINITION. GET_LINK_STATUS and SET_SPEED_DUPLEX (41_driver.md R114 to R117). -/

namespace Sys2Proof.Machine

/-- After the status read: a decode fault leaves `fsm` as it was; a status moves the label and is the result (R114). -/
def linkResult (s : State) : State :=
  match decodeLinkStatus s.params s.tmp with
  | .error c => raise c s
  | .ok ls => succeed (.link ls) (setFsm (labelAfterLink s.fsm ls.state) s)

/-- GET_LINK_STATUS (R114). -/
def execGetLinkStatus (s : State) : Out :=
  driver s fun t => .next (busRead t.regPssr (fun v u => linkResult (setTmp v u)) s)

/-- SET_SPEED_DUPLEX (R116): one blind write of `CTRL`; an unsupported speed faults before it. -/
def execSetSpeedDuplex (speed : Word16) (duplex : DuplexArg) (s : State) : Out :=
  driver s fun t =>
    match controlValue t speed duplex with
    | none => .next (raise .unsupportedSpeed s)
    | some v => .next (busWrite t.regCtrl v (fun u => succeed .unit (setFsm .forcedConfigured u)) s)

end Sys2Proof.Machine
end

