-- ==== Sys2Proof/Machine/Sgmii.lean ====
section
/-! DEFINITION. IS_SGMII_CAPABLE and ENABLE_SGMII (41_driver.md R105 to R107). -/

namespace Sys2Proof.Machine

/-- IS_SGMII_CAPABLE (R105): the kind's static capability. -/
def execIsSgmiiCapable (s : State) : Out :=
  driver s fun t => .next (succeed (.flag t.sgmiiCapable) s)

/-- The line of ENABLE_SGMII's listing, a poll loop listed once, at index `u`: 0, 1 EXTSR; 2 to 5 the first soft reset;
6 to 11 the three read-modify-writes; 12 to 15 the second soft reset (R106, R108, R111). `polls` is what the first soft
reset has polled, until the second sets it to 0; `clear` tells that the last read found the reset bit clear, and
`waited` that the poll timer has ended a wait whose poll read is still to come. DEDUCED: log entry 2. -/
def sgmiiLineOf (u polls : Nat) (clear waited : Bool) : Nat :=
  if u < 4 then u
  else if u < 4 + 2 * min polls 25 then 16
  else if u = 4 + 2 * min polls 25 then if polls ≠ 0 ∧ clear = true then 6 else 4
  else if u = 5 + 2 * min polls 25 then if waited = true then 5 else 7
  else if u < 12 + 2 * min polls 25 then u - 2 * min polls 25 + 2
  else if u % 2 = 0 then 14 else 15

/-- The line that a state is at. -/
def sgmiiLine (t : KindTable) (s : State) : Nat :=
  sgmiiLineOf s.upc.val s.poll (s.tmp &&& t.ctrlReset == 0#16) (s.pollTimer == .waitEnded)

/-- ENABLE_SGMII (R106): EXTSR, the soft reset that commits the mode, the auto-negotiation setup with every capability.
The first soft reset leaves `upc` room for all that follows it. -/
def execEnableSgmii (s : State) : Out :=
  driver s fun t =>
    match sgmiiLine t s with
    | 0 => .next (rmwRead t.regExtsr s)
    | 1 => .next (rmwWrite t.regExtsr t.extMask t.extSgmii s)
    | 2 => softResetSeq t 54 0 (setFsm .sgmiiProbed) s
    | 3 => softResetSeq t 54 1 (setFsm .sgmiiProbed) s
    | 4 => softResetSeq t 54 2 (setFsm .sgmiiProbed) s
    | 5 => softResetSeq t 54 3 (setFsm .sgmiiProbed) s
    | n + 6 => setAutonegSeq t n allCaps (succeed .unit) s

end Sys2Proof.Machine
end

