-- ==== Sys2Proof/Machine/Dispatch.lean ====
section
/-! DEFINITION. One micro-step of an operation: the meaning of each constructor, at the index `upc` of its sequence. -/

namespace Sys2Proof.Machine

def exec (i : Instr) (s : State) : Host.Outcome State Fault Refusal :=
  match i with
  | .identify => Sys2Proof.Machine.execIdentify s
  | .isSgmiiCapable => Sys2Proof.Machine.execIsSgmiiCapable s
  | .enableSgmii => Sys2Proof.Machine.execEnableSgmii s
  | .softReset => Sys2Proof.Machine.execSoftReset s
  | .setAutonegCaps caps => Sys2Proof.Machine.execSetAutonegCaps caps s
  | .getLpCaps => Sys2Proof.Machine.execGetLpCaps s
  | .getLinkStatus => Sys2Proof.Machine.execGetLinkStatus s
  | .setSpeedDuplex speed duplex => Sys2Proof.Machine.execSetSpeedDuplex speed duplex s
  | .encAdv caps => Sys2Proof.Machine.execEncAdv caps s
  | .decLpCaps p g => Sys2Proof.Machine.execDecLpCaps p g s
  | .decLinkStatus b => Sys2Proof.Machine.execDecLinkStatus b s
  | .busRead reg => Sys2Proof.Machine.execBusRead reg s
  | .busWrite reg value => Sys2Proof.Machine.execBusWrite reg value s

end Sys2Proof.Machine
end

