-- ==== Sys2Proof/Machine/Controller.lean ====
section
/-! DEFINITION. What one step does: the host's next event (60_exceptions.md R139, R140), or the controller's next
micro-step, or nothing. -/

namespace Sys2Proof.Machine

/-- The block's reset (10_state.md R43, 70_reset_and_hazards.md R142, R143): every controller element to its reset
value, the block's timer idle, no transaction, no result for an operation in progress. The host, the PHY and the
parameters are not the block's to reset. -/
def blockReset (s : State) : State :=
  { s with
    fsm := State.reset.fsm
    kind := State.reset.kind
    phyId := State.reset.phyId
    busy := State.reset.busy
    cur := State.reset.cur
    upc := State.reset.upc
    poll := State.reset.poll
    tmp := State.reset.tmp
    tmp2 := State.reset.tmp2
    result := State.reset.result
    busHeld := State.reset.busHeld
    pollTimer := State.reset.pollTimer
    log := .reset s.busy :: s.log }

/-- The host reads `result`; a read while it is `none` is a model fault (R43, R130, R140). -/
def hostRead (s : State) : Out :=
  match s.result with
  | some r => .next { s with replies := r :: s.replies }
  | none => .fault .resultUnread

/-- The rest of the host's events. -/
def setHost (l : List HostEvent) (s : State) : State := { s with host := l }

/-- The controller's turn: one micro-step of the operation in `cur`, or `IllegalOp` for a descriptor that decodes to
Illegal (30_encoding.md R77), or nothing while idle (R144). -/
def controllerStep (s : State) : Out :=
  if s.busy then
    match s.cur with
    | some d =>
      match decode d with
      | .ok i => exec i s
      | .error _ => .next (raise .illegalOp s)
    | none => .fault .noDescriptor
  else .next s

/-- One step of the block and its host, for a parameter set the model gives a meaning to. A reset or a read of `result`
is served at once; an offered descriptor is accepted when the block is idle and held while it is busy (R139). -/
def hostStep (s : State) : Out :=
  match s.host with
  | [] => controllerStep s
  | .reset :: rest => .next (blockReset (setHost rest s))
  | .readResult :: rest => hostRead (setHost rest s)
  | .wait :: rest => controllerStep (setHost rest s)
  | .issue d :: rest => if s.busy then controllerStep s else .next (acceptOp d (setHost rest s))

/-- One step: a parameter set that fails R10 is refused before anything else (R130). -/
def stepOnce (s : State) : Out :=
  match s.params.problem with
  | some e => .refused (.illFormedParams e)
  | none => hostStep s

/-- The state with a descriptor just accepted and no host event before its first micro-step. -/
def placeOp (d : Descriptor) (s : State) : State := setHost [] (acceptOp d s)

/-- The descriptor whose bits are `w`, the bits above `nbits` zero (R69, R79). -/
def descriptorOfWord (nbits w : Nat) : Descriptor := BitVec.ofNat 64 (w % 2 ^ nbits)

end Sys2Proof.Machine
end

