-- ==== Sys2Proof/Machine/Step.lean ====
section
/-! DEFINITION. The step of the machine, and the placing of an operation as the one it runs next. -/

namespace Sys2Proof.Machine

/-- One step (Machine/Controller.lean). -/
def step (s : State) : Host.Outcome State Fault Refusal := stepOnce s

/-- The machine with the operation of `w` accepted, so that the very next step is its first micro-step. The block
fetches nothing (20_memory.md R66, 30_encoding.md R69): this stands for the host's issue and its acceptance. Log entry
6. -/
def State.withFetchWord (s : State) (nbits w : Nat) : State := placeOp (descriptorOfWord nbits w) s

end Sys2Proof.Machine
end

