-- ==== Sys2Proof/Machine/Errors.lean ====
section
/-! DEFINITION. The numbers, classes and messages of the fault codes (60_exceptions.md R122, R123, R125). -/

namespace Sys2Proof.Machine

/-- The four classes of R123. -/
inductive ErrClass where
  | notFound
  | accessFault
  | protocolFault
  | usageFault
  deriving DecidableEq, Repr

/-- The code's number (R122). -/
def ErrCode.number : ErrCode → Nat
  | .phyNotFoundNoDevice => 1
  | .phyNotFoundNoMatch => 2
  | .phyAccessBus => 3
  | .phyAccessResetTimeout => 4
  | .decodeFault => 5
  | .unsupportedSpeed => 6
  | .notBound => 7
  | .illegalOp => 8

/-- The code's class (R122). -/
def ErrCode.errClass : ErrCode → ErrClass
  | .phyNotFoundNoDevice => .notFound
  | .phyNotFoundNoMatch => .notFound
  | .phyAccessBus => .accessFault
  | .phyAccessResetTimeout => .accessFault
  | .decodeFault => .protocolFault
  | .unsupportedSpeed => .usageFault
  | .notBound => .usageFault
  | .illegalOp => .usageFault

/-- The constant text a code carries; only the timeout has one (R125). -/
def ErrCode.message : ErrCode → Option String
  | .phyNotFoundNoDevice => none
  | .phyNotFoundNoMatch => none
  | .phyAccessBus => none
  | .phyAccessResetTimeout => some "reset timed out"
  | .decodeFault => none
  | .unsupportedSpeed => none
  | .notBound => none
  | .illegalOp => none

/-- The speed in Mb/s (R14). -/
def LinkSpeed.mbps : LinkSpeed → Nat
  | .s0 => 0
  | .s10 => 10
  | .s100 => 100
  | .s1000 => 1000

end Sys2Proof.Machine
end

