-- ==== Sys2Proof/Machine/HostPath.lean ====
section
/-! DEFINITION. The host's side that the spec describes: pseudo-instructions (30_encoding.md R82), command spellings
(R83), replies (60_exceptions.md R141) and the assembler spelling of an operation (R81). No rule of the block depends on
it. -/

namespace Sys2Proof.Machine

/-! ### Pseudo-instructions (R82) -/

/-- `SET_AUTONEG_ALL`. -/
def setAutonegAll : Instr := .setAutonegCaps allCaps

/-- `PROBE_SGMII`: the operation the host issues after `n` of them are done, the last with result `r`; none when the
path ends (R82, 41_driver.md R107). -/
def probeNext (n : Nat) (r : Option Result) : Option Instr :=
  match n, r with
  | 0, _ => some .identify
  | 1, some (.ok _) => some .isSgmiiCapable
  | 2, some (.ok (.flag true)) => some .enableSgmii
  | _, _ => none

/-! ### Host commands (R83) and replies (R141) -/

/-- The three commands of R83: two for the driver of one port, one for every present port. A port is the place of its
block in the system (60_exceptions.md R136: the host keys the blocks, they have no identifiers). Log entry 23. -/
inductive HostCommand where
  | phyAutonegSet (port : Nat) (caps : CapSet)
  | phySpeedDuplexSet (port : Nat) (speed : Word16) (duplex : DuplexArg)
  | phyLinkStatus
  deriving DecidableEq, Repr

/-- The operation a command reaches (R83). -/
def commandOp : HostCommand → Instr
  | .phyAutonegSet _ caps => .setAutonegCaps caps
  | .phySpeedDuplexSet _ speed duplex => .setSpeedDuplex speed duplex
  | .phyLinkStatus => .getLinkStatus

/-- The ports whose blocks a command reaches: the one it is for, or every one in the host's record `present` of the
present ports (R83). -/
def commandPorts (present : List Nat) : HostCommand → List Nat
  | .phyAutonegSet port _ => [port]
  | .phySpeedDuplexSet port _ _ => [port]
  | .phyLinkStatus => present

/-- A reply of the host (R141). -/
inductive HostReply where
  /-- "OK". -/
  | acknowledged
  | status (ls : LinkStatus)
  | error (c : ErrCode)
  deriving DecidableEq, Repr

/-- The reply for one block to a command whose operation ended there with `r`; a result the operation cannot give has
none (R141). -/
def commandReply (c : HostCommand) (r : Result) : Option HostReply :=
  match c, r with
  | _, .err e => some (.error e)
  | .phyAutonegSet _ _, .ok .unit => some .acknowledged
  | .phySpeedDuplexSet _ _ _, .ok .unit => some .acknowledged
  | .phyLinkStatus, .ok (.link ls) => some (.status ls)
  | _, .ok _ => none

/-! ### Assembler spelling (R81) -/

/-- The duplex names of R81. -/
def duplexName : DuplexArg → String
  | .half => "Half"
  | .full => "Full"
  | .unknown => "Unknown"
  | .other => "Other"

/-- One line of R81: numbers in decimal, a capability set as its 6-bit mask. -/
def asmLine : Instr → String
  | .identify => "IDENTIFY"
  | .isSgmiiCapable => "IS_SGMII_CAPABLE"
  | .enableSgmii => "ENABLE_SGMII"
  | .softReset => "SOFT_RESET"
  | .setAutonegCaps caps => "SET_AUTONEG_CAPS " ++ toString caps.toMask.toNat
  | .getLpCaps => "GET_LP_CAPS"
  | .getLinkStatus => "GET_LINK_STATUS"
  | .setSpeedDuplex speed duplex => "SET_SPEED_DUPLEX " ++ toString speed.toNat ++ ", " ++ duplexName duplex
  | .encAdv caps => "ENC_ADV " ++ toString caps.toMask.toNat
  | .decLpCaps p g => "DEC_LP_CAPS " ++ toString p.toNat ++ ", " ++ toString g.toNat
  | .decLinkStatus b => "DEC_LINK_STATUS " ++ toString b.toNat
  | .busRead reg => "BUS_READ r" ++ toString reg.toNat
  | .busWrite reg value => "BUS_WRITE r" ++ toString reg.toNat ++ ", " ++ toString value.toNat

end Sys2Proof.Machine
end

