-- ==== Sys2Proof/Machine/System.lean ====
section
/-! DEFINITION. Several blocks, one per PHY (20_memory.md R68, 60_exceptions.md R136): they share nothing, each starts
at reset, and one of them takes a step at a time; and the host's commands over them (30_encoding.md R83). -/

namespace Sys2Proof.Machine

/-- Block `k` of a system right after reset (70_reset_and_hazards.md R142), with its own parameters and its own PHY,
whose free draws no other block takes. -/
def blockAtReset (k : Nat) (p : Params) : State :=
  { State.reset with params := p, phy := { Phy.oracle with stream := k } }

/-- A system right after reset: one block for each parameter set, `N_INSTANCES` of them (R136). -/
def systemReset (ps : List Params) : List State := ps.mapIdx blockAtReset

/-- Block `k` takes one step. An index with no block steps nothing. -/
def systemStep (k : Nat) (blocks : List State) : Host.Outcome (List State) Fault Refusal :=
  match blocks[k]? with
  | some s =>
    match step s with
    | .next t => .next (blocks.set k t)
    | .fault f => .fault f
    | .refused r => .refused r
  | none => .next blocks

/-- The steps of a schedule, each of the block it names, stopping at the first fault or refusal. -/
def systemRun : List Nat → List State → Host.Outcome (List State) Fault Refusal
  | [], blocks => .next blocks
  | k :: schedule, blocks =>
    match systemStep k blocks with
    | .next after => systemRun schedule after
    | .fault f => .fault f
    | .refused r => .refused r

/-! ### The host's commands over a system (30_encoding.md R83, 60_exceptions.md R141) -/

/-- The host offers one more descriptor, after what it has offered before (R139, R140). -/
def hostIssue (d : Descriptor) (s : State) : State := setHost (s.host ++ [.issue d]) s

/-- A command's operation offered to the block of every port the command reaches, and to no other (R83). -/
def issueCommand (present : List Nat) (c : HostCommand) (blocks : List State) : List State :=
  blocks.mapIdx fun k s => if k ∈ commandPorts present c then hostIssue (encode (commandOp c)) s else s

/-- `n` steps of each port's block, one port after the other: "the host serialises operations" (20_memory.md R68). -/
def portsInTurn (n : Nat) (ports : List Nat) : List Nat := ports.flatMap fun k => List.replicate n k

/-- A command served: its operation offered to the blocks it reaches, and each of them given `n` steps in turn. Log
entry 23. -/
def serveCommand (n : Nat) (present : List Nat) (c : HostCommand) (blocks : List State) :
    Host.Outcome (List State) Fault Refusal :=
  systemRun (portsInTurn n (commandPorts present c)) (issueCommand present c blocks)

/-- What the host reports once the operations have ended: for each port the command reaches, the reply that its block's
result becomes (R141). -/
def commandReplies (present : List Nat) (c : HostCommand) (blocks : List State) : List (Nat × Option HostReply) :=
  (commandPorts present c).map fun k => (k, (blocks[k]?.bind (·.result)).bind (commandReply c))

end Sys2Proof.Machine
end

