-- ==== Sys2Proof/Safety.lean ====
section
/-! DEFINITION. What claims about the block are stated in: the shapes of a next state, the tables of the spec about all
operations (register map, fault codes, label transitions, sequence lengths), the invariant, and the conditions on the
PHY's answers. Nothing here is used by the machine. -/

namespace Sys2Proof.Machine

/-! ### Shapes of a next state -/

/-- `s` after an answered transaction that does not end the operation: event `e` logged, PHY `y`, the handle held, `upc`
one on (R25, R57), the poll timer idle (log entry 2). -/
def stepped (e : Event) (y : Phy) (s : State) : State :=
  { s with upc := countUp s.upc, busHeld := true, phy := y, pollTimer := .idle, log := e :: s.log }

/-- `s` with the operation ended with result `r`, after logging `es` (newest first), PHY `y` (R26, R28, R128), the poll
timer idle (log entry 2). -/
def ended (r : Result) (es : List Event) (y : Phy) (s : State) : State :=
  { s with
    result := some r, cur := none, busy := false, busHeld := false, phy := y, pollTimer := .idle
    log := .done r :: (es ++ s.log) }

/-- The operation goes on after the transaction `e`: nothing is written to the result, the operation stays in `cur`, the
handle is held (R26, R28, R57), and the poll timer is idle (log entry 2). -/
def Continues (e : Event) (s t : State) : Prop :=
  t.log = e :: s.log ∧ t.result = s.result ∧ t.cur = s.cur ∧ t.busy = s.busy ∧ t.tmp2 = s.tmp2 ∧ t.busHeld = true ∧
    t.pollTimer = .idle

/-- The operation has ended with result `r` and the block is idle. -/
def Ended (r : Result) (t : State) : Prop :=
  t.result = some r ∧ t.cur = none ∧ t.busy = false ∧ t.busHeld = false

/-! ### Tables over the operations -/

/-- The number of lines an operation's listing has, the poll loop listed once (R106 to R116). -/
def seqLength : Instr → Nat
  | .identify => 2
  | .isSgmiiCapable => 1
  | .enableSgmii => 16
  | .softReset => 4
  | .setAutonegCaps _ => 10
  | .getLpCaps => 2
  | .getLinkStatus => 1
  | .setSpeedDuplex _ _ => 1
  | .encAdv _ => 1
  | .decLpCaps _ _ => 1
  | .decLinkStatus _ => 1
  | .busRead _ => 1
  | .busWrite _ _ => 1

/-- Where the soft resets of an operation begin in its listing (R106, R108, R110, R111). -/
def resetBases : Instr → List Nat
  | .enableSgmii => [2, 12]
  | .softReset => [0]
  | .setAutonegCaps _ => [6]
  | _ => []

/-- Whether index `u` is the wait or the poll read of a soft reset. -/
def polling (i : Instr) (u : Nat) : Bool := (resetBases i).any fun b => u == b + 2 || u == b + 3

/-- Whether index `u` is the poll read of a soft reset. -/
def pollRead (i : Instr) (u : Nat) : Bool := (resetBases i).any fun b => u == b + 3

/-- The fault codes an operation can raise: the table of 60_exceptions.md R124. -/
def mayRaise : Instr → List ErrCode
  | .identify => [.phyNotFoundNoDevice, .phyNotFoundNoMatch, .phyAccessBus]
  | .isSgmiiCapable => [.notBound]
  | .enableSgmii => [.phyNotFoundNoDevice, .phyAccessBus, .phyAccessResetTimeout, .notBound]
  | .softReset => [.phyNotFoundNoDevice, .phyAccessBus, .phyAccessResetTimeout, .notBound]
  | .setAutonegCaps _ => [.phyNotFoundNoDevice, .phyAccessBus, .phyAccessResetTimeout, .notBound]
  | .getLpCaps => [.phyNotFoundNoDevice, .phyAccessBus, .notBound]
  | .getLinkStatus => [.phyNotFoundNoDevice, .phyAccessBus, .decodeFault, .notBound]
  | .setSpeedDuplex _ _ => [.phyNotFoundNoDevice, .phyAccessBus, .unsupportedSpeed, .notBound]
  | .encAdv _ => []
  | .decLpCaps _ _ => []
  | .decLinkStatus _ => [.decodeFault]
  | .busRead _ => [.phyNotFoundNoDevice, .phyAccessBus]
  | .busWrite _ _ => [.phyNotFoundNoDevice, .phyAccessBus]

/-- The registers an operation reads: the register map of 20_memory.md R61. -/
def readsFrom (p : Params) : Instr → List RegNum
  | .identify => [p.regId1, p.regId2]
  | .enableSgmii => [p.regCtrl, p.regAnar, p.regGctrl, p.regExtsr]
  | .softReset => [p.regCtrl]
  | .setAutonegCaps _ => [p.regCtrl, p.regAnar, p.regGctrl]
  | .getLpCaps => [p.regAnlpar, p.regGstat]
  | .getLinkStatus => [p.regPssr]
  | .busRead reg => [reg]
  | _ => []

/-- The registers an operation writes: the register map of 20_memory.md R61. -/
def writesTo (p : Params) : Instr → List RegNum
  | .enableSgmii => [p.regCtrl, p.regAnar, p.regGctrl, p.regExtsr]
  | .softReset => [p.regCtrl]
  | .setAutonegCaps _ => [p.regCtrl, p.regAnar, p.regGctrl]
  | .setSpeedDuplex _ _ => [p.regCtrl]
  | .busWrite reg _ => [reg]
  | _ => []

/-- The labels an operation may write (41_driver.md R100). -/
def labelsSet : Instr → List FsmState
  | .identify => [.uninitialized]
  | .enableSgmii => [.sgmiiProbed, .autonegConfigured]
  | .setAutonegCaps _ => [.autonegConfigured]
  | .getLinkStatus => [.linkUp, .linkDown]
  | .setSpeedDuplex _ _ => [.forcedConfigured]
  | _ => []

/-- The label a successful operation leaves: the table of R100, from the label `l` it found at its last micro-step.
IDENTIFY's was set at its first. -/
def labelOnSuccess (i : Instr) (l : FsmState) (v : Value) : FsmState :=
  match i, v with
  | .enableSgmii, _ => .autonegConfigured
  | .setAutonegCaps _, _ => .autonegConfigured
  | .setSpeedDuplex _ _, _ => .forcedConfigured
  | .getLinkStatus, .link ls =>
    if l = .uninitialized ∨ l = .sgmiiProbed then l else if ls.state = .up then .linkUp else .linkDown
  | _, _ => l

/-- The driver operations, which need a binding (R99). -/
def isDriverOp : Instr → Bool
  | .isSgmiiCapable => true
  | .enableSgmii => true
  | .softReset => true
  | .setAutonegCaps _ => true
  | .getLpCaps => true
  | .getLinkStatus => true
  | .setSpeedDuplex _ _ => true
  | _ => false

/-! ### The listings -/

/-- One micro-step as a listing has it (R8): a read, a write of a register value, a wait, an internal step, or no index
of the listing. -/
inductive MicroStep where
  | read (reg : RegNum)
  | write (reg : RegNum) (v : Word16)
  | wait
  | internal
  | off
  deriving DecidableEq, Repr

/-- The soft reset's listing (R108). -/
def resetListing (t : KindTable) (tmp : Word16) : Nat → MicroStep
  | 0 => .read t.regCtrl
  | 1 => .write t.regCtrl (tmp ||| 0x8000#16)
  | 2 => .wait
  | 3 => .read t.regCtrl
  | _ => .off

/-- The auto-negotiation setup's listing (R111), the owned bits replaced and the others as read. -/
def autonegListing (t : KindTable) (caps : CapSet) (tmp : Word16) : Nat → MicroStep
  | 0 => .read t.regAnar
  | 1 => .write t.regAnar ((tmp &&& ~~~0x0DE0#16) ||| (advertisementBits t caps).1)
  | 2 => .read t.regGctrl
  | 3 => .write t.regGctrl ((tmp &&& ~~~0x0300#16) ||| (advertisementBits t caps).2)
  | 4 => .read t.regCtrl
  | 5 => .write t.regCtrl ((tmp &&& ~~~0x1000#16) ||| 0x1000#16)
  | n + 6 => resetListing t tmp n

/-- The line of operation `i`'s listing, the poll loop listed once, that the controller is at: `upc` itself where no
poll loop comes before (R25). Log entry 2. -/
def line (i : Instr) (s : State) : Nat :=
  match i with
  | .enableSgmii => sgmiiLine (kindTable s.params .kModeled) s
  | .softReset => resetLine 0 s
  | .setAutonegCaps _ => resetLine 6 s
  | _ => s.upc.val

/-- The micro-step at line `u` of an operation's listing (R101 to R121), with the kind's table `t` and the scratch value
`tmp`. A one-step operation is at its step whatever `upc` is. -/
def listing (p : Params) (t : KindTable) (tmp : Word16) (i : Instr) (u : Nat) : MicroStep :=
  match i with
  | .identify => match u with
    | 0 => .read p.regId1
    | 1 => .read p.regId2
    | _ => .off
  | .isSgmiiCapable => .internal
  | .enableSgmii => match u with
    | 0 => .read t.regExtsr
    | 1 => .write t.regExtsr ((tmp &&& ~~~0x800F#16) ||| 0x8004#16)
    | 2 => resetListing t tmp 0
    | 3 => resetListing t tmp 1
    | 4 => resetListing t tmp 2
    | 5 => resetListing t tmp 3
    | n + 6 => autonegListing t allCaps tmp n
  | .softReset => resetListing t tmp u
  | .setAutonegCaps caps => autonegListing t caps tmp u
  | .getLpCaps => match u with
    | 0 => .read t.regAnlpar
    | 1 => .read t.regGstat
    | _ => .off
  | .getLinkStatus => .read t.regPssr
  | .setSpeedDuplex speed duplex => match controlValue t speed duplex with
    | some v => .write t.regCtrl v
    | none => .internal
  | .encAdv _ => .internal
  | .decLpCaps _ _ => .internal
  | .decLinkStatus _ => .internal
  | .busRead reg => .read reg
  | .busWrite reg value => .write reg value

/-- The micro-step operation `i` is at in `s`, for a controller bound to kind `k`; an operation that is no driver
operation takes nothing from the kind. -/
def microStep (k : DriverKind) (i : Instr) (s : State) : MicroStep :=
  listing s.params (kindTable s.params k) s.tmp i (line i s)

/-- `s` after a wait, which the poll timer has ended (R13, R16, 41_driver.md R108). -/
def waitDone (s : State) : State :=
  { s with upc := countUp s.upc, pollTimer := .waitEnded, log := .wait s.params.tPollMs :: s.log }

/-- The last index that R23's range has room for at a poll wait of the soft reset from line `base` on: ENABLE_SGMII's
first is followed by more. Log entry 22. -/
def roomOf (i : Instr) (base : Nat) : Upc := if i = .enableSgmii ∧ base = 2 then 54 else 62

/-- `upc` after a poll read of that soft reset: one on, within its room. -/
def polledUpc (i : Instr) (base : Nat) (u : Upc) : Upc := within (roomOf i base) (countUp u)

/-- What goes before the transaction of a micro-step: IDENTIFY's clearing, with its micro-step 0 (R101). -/
def cleared (i : Instr) (s : State) : State :=
  if i = .identify ∧ s.upc = 0 then { s with kind := none, phyId := none, fsm := .uninitialized } else s

/-! ### Transactions in the log, newest first -/

/-- An acknowledged RMW that read bus word `w` (20_memory.md R56). -/
def rmwLog (p : Params) (reg : RegNum) (mask value w : Word16) : List Event :=
  [.write p.phyDevAddr reg (toWire p ((fromWire p w &&& ~~~mask) ||| value)) .ack,
   .read p.phyDevAddr reg (.ack w)]

/-- A poll loop that read the bus words `polls`, oldest first (R108). -/
def pollLog (p : Params) (polls : List Word16) : List Event :=
  polls.reverse.flatMap fun v => [.read p.phyDevAddr p.regCtrl (.ack v), .wait p.tPollMs]

/-- A soft reset that read `w` and then polled the bus words `polls`, oldest first (R108). -/
def resetLog (p : Params) (w : Word16) (polls : List Word16) : List Event :=
  pollLog p polls ++
    [.write p.phyDevAddr p.regCtrl (toWire p (fromWire p w ||| 0x8000#16)) .ack,
     .read p.phyDevAddr p.regCtrl (.ack w)]

/-- The reset bit of a bus word read from `CTRL`. -/
def resetBit (p : Params) (w : Word16) : Bool := (fromWire p w).getLsbD 15

/-- The bus words a successful soft reset polls: the reset bit set in all but the last, clear in the last, no more of
them than `N_POLL` (R108, R109). -/
def PollsToClear (p : Params) (polls : List Word16) : Prop :=
  ∃ set last, polls = set ++ [last] ∧ (∀ w ∈ set, resetBit p w = true) ∧ resetBit p last = false ∧
    polls.length ≤ p.nPoll

/-! ### Events -/

/-- A transaction with the PHY. -/
def Event.isTransaction : Event → Bool
  | .read _ _ _ => true
  | .write _ _ _ _ => true
  | _ => false

/-- A poll wait. -/
def Event.isWait : Event → Bool
  | .wait _ => true
  | _ => false

/-- An accepted operation. -/
def Event.isAccept : Event → Bool
  | .accept _ => true
  | _ => false

/-- An operation that ended with a result, or that a reset abandoned. -/
def Event.isClose : Event → Bool
  | .done _ => true
  | .reset abandoned => abandoned
  | _ => false

/-- A transaction or a wait: what `upc` counts (41_driver.md R118). -/
def Event.counts (e : Event) : Bool := e.isTransaction || e.isWait

/-- The transactions and waits in a log, newest first, since the last acceptance. -/
def doneSinceAccept (l : List Event) : Nat := (l.takeWhile fun e => !e.isAccept).countP Event.counts

/-- Every accepted operation has ended, been abandoned, or is the one in progress (60_exceptions.md R139). -/
def LogBalanced (s : State) : Prop :=
  s.log.countP Event.isAccept = s.log.countP Event.isClose + s.busy.toNat

/-! ### The invariant -/

/-- "speed/duplex are meaningful only when state=Up and ... resolved; otherwise speed=0, duplex=Unknown" (00_scope.md
R15): the speed is 0 exactly when the duplex is unknown, and both are so when the link is down. -/
def LinkStatus.Valid (ls : LinkStatus) : Prop :=
  (ls.speedMbps = .s0 ↔ ls.duplex = .unknown) ∧ (ls.state = .down → ls.speedMbps = .s0)

/-- A result whose link status, if it is one, is valid. -/
def Result.Valid (r : Result) : Prop := ∀ ls, r = .ok (.link ls) → ls.Valid

/-- The length of the listing of the operation a descriptor decodes to; an illegal one has its single end. -/
def listingLength (d : Descriptor) : Nat :=
  match decode d with
  | .ok i => seqLength i
  | .error _ => 1

/-- The line the controller is at of the operation a descriptor decodes to. -/
def lineAt (d : Descriptor) (s : State) : Nat :=
  match decode d with
  | .ok i => line i s
  | .error _ => 0

/-- Whether line `u` is at a poll of the operation a descriptor decodes to. -/
def pollingAt (d : Descriptor) (u : Nat) : Bool :=
  match decode d with
  | .ok i => polling i u
  | .error _ => false

/-- Whether line `u` is at a poll read of the operation a descriptor decodes to. -/
def pollReadAt (d : Descriptor) (u : Nat) : Bool :=
  match decode d with
  | .ok i => pollRead i u
  | .error _ => false

/-- The most transactions and waits done at a line of operation `i` with budget `n`: the line itself, two more for each
poll done, and after ENABLE_SGMII's first soft reset two for each of its polls but one (R108, R118). -/
def doneMost (i : Instr) (n line poll : Nat) : Nat :=
  line + (if polling i line then 2 * poll else 0) + (if i = .enableSgmii ∧ 6 ≤ line then 2 * n - 2 else 0)

/-- The same for the operation a descriptor decodes to; an illegal one has no transaction. -/
def doneMostAt (d : Descriptor) (n line poll : Nat) : Nat :=
  match decode d with
  | .ok i => doneMost i n line poll
  | .error _ => 0

/-- "`upc` ... counts transactions and waits" (41_driver.md R118). -/
def Counted (s : State) : Prop := s.upc.val = doneSinceAccept s.log

/-- What holds of the controller in every state it can be in. -/
structure Inv (s : State) : Prop where
  /-- The parameters pass R10. -/
  params : s.params.WellFormed
  /-- `cur` holds a descriptor exactly while `busy` (R26). -/
  cur : s.busy = s.cur.isSome
  /-- The bus handle is never held between operations (R57). -/
  handle : s.busHeld = true → s.busy = true
  /-- The controller is at a line of the running operation's listing. -/
  line : ∀ d, s.cur = some d → lineAt d s < listingLength d
  /-- While busy, `upc` is the number of transactions and waits since acceptance (R25, R118), for every budget whose
  longest operation R23's range can count. -/
  counted : s.busy = true → s.params.nPoll ≤ 13 → Counted s
  /-- At each line that number is no more than the polls done allow. -/
  done : ∀ d, s.cur = some d → doneSinceAccept s.log ≤ doneMostAt d s.params.nPoll (lineAt d s) s.poll
  /-- "so it stays below 40" (R118), for any budget. -/
  below : s.busy = true → doneSinceAccept s.log < 12 + 4 * s.params.nPoll
  /-- What the lines already done have written: IDENTIFY's clearing (R101), ENABLE_SGMII's first label (R106). -/
  written : ∀ d i, s.cur = some d → decode d = .ok i →
    (i = .identify → s.upc = 1 → s.fsm = .uninitialized ∧ s.kind = none) ∧
      (i = .enableSgmii → 6 ≤ lineAt d s → s.fsm = .sgmiiProbed)
  /-- `poll` is within 0..`N_POLL` (R23). -/
  poll : s.poll ≤ s.params.nPoll
  /-- While polling there are polls left (R108). -/
  polls : ∀ d, s.cur = some d → pollingAt d (lineAt d s) = true → s.poll < s.params.nPoll
  /-- The poll timer has ended a wait exactly where its poll read is next (R108, 60_exceptions.md R134). -/
  waited : ∀ d, s.cur = some d → (s.pollTimer = .waitEnded ↔ pollReadAt d (lineAt d s) = true)
  /-- It ends none for an idle block (R133, R134). -/
  timer : s.busy = false → s.pollTimer = .idle
  /-- `kind` and `phyId` are the binding of one directory match (R27, R101), or both absent. -/
  binding : s.phyId.bind (fun id => (dirMatch s.params.directory id).map (·.kind)) = s.kind
  /-- Both or neither. -/
  bound : s.kind.isSome = s.phyId.isSome
  /-- A link status in `result` obeys R15. -/
  result : ∀ r, s.result = some r → r.Valid
  /-- The reference responder's registers are in their canonical form. -/
  regs : ∀ f, s.phy.reference = some f → regsWf f.regs = true

/-! ### Conditions on the PHY's answers -/

/-- Every transaction is answered (70_reset_and_hazards.md R155): no scripted answer is `silent`, and after the scripts
the answers come from a reference responder or from free draws none of which is `silent`. -/
def Phy.Answers (y : Phy) : Prop :=
  (∀ a ∈ y.readScript, a ≠ .silent) ∧ (∀ a ∈ y.writeScript, a ≠ .silent) ∧
    (y.reference.isSome = true ∨ ∀ n, Config.freeRead y.stream n ≠ .silent ∧ Config.freeWrite y.stream n ≠ .silent)

/-- No reset and no read of `result` is pending, so that every step is the controller's. -/
def HostQuiet (s : State) : Prop := s.host = []

/-- `n` steps of the machine, stopping at the first fault or refusal. -/
def run (n : Nat) (s : State) : Out := Host.Core.run core n s

/-- `s` has just accepted operation `i` (R25, R26). -/
def Accepted (i : Instr) (s : State) : Prop :=
  s.params.WellFormed ∧ s.busy = true ∧ s.cur = some (encode i) ∧ s.upc = 0

/-- The step is the controller's, on `u`: no host event, a descriptor held while busy, or a host that waits (R139,
R140). -/
def ControllerTurn (s u : State) : Prop :=
  s.params.WellFormed ∧
    ((s.host = [] ∧ u = s) ∨ (s.busy = true ∧ u = s ∧ ∃ d rest, s.host = .issue d :: rest) ∨
      ∃ rest, s.host = .wait :: rest ∧ u = { s with host := rest })

/-- The same state but for the scratch elements `tmp`, `tmp2` and `poll`. -/
def SameButScratch (s t : State) : Prop :=
  { s with tmp := t.tmp, tmp2 := t.tmp2, poll := t.poll } = t

/-- The same state but for the label `fsm`. -/
def SameButLabel (s t : State) : Prop :=
  { s with fsm := t.fsm } = t

/-- The same outcome, of next states that are the same in the sense of `same`. -/
def SameOutcome (same : State → State → Prop) : Out → Out → Prop
  | .next s, .next t => same s t
  | .fault f, .fault g => f = g
  | .refused r, .refused q => r = q
  | _, _ => False

end Sys2Proof.Machine
end

