-- ==== Sys2Proof/Certificates/Slice0/Obligations.lean ====
section
/-! DEFINITION. The statements about the block. Each docstring names the rule it comes from. A statement about a bus
answer takes the answer as a premise (20_memory.md R50), so it holds for every answer the PHY can give. -/

open Sys2Proof Sys2Proof.Machine

/-! ### Descriptors -/

/-- Decoding the descriptor of any operation, with any operands, gives that operation (30_encoding.md R70 to R72, R77).
-/
def Obligations.DecodeOfEncodeIsTheOperation : Prop :=
  ∀ i : Instr, decode (encode i) = .ok i

/-- A descriptor that decodes to an operation is that operation's one descriptor: no bit of it is ignored (R70, R71,
R77). -/
def Obligations.EncodeOfDecodeIsTheDescriptor : Prop :=
  ∀ (d : Descriptor) (i : Instr), decode d = .ok i → encode i = d

/-- The match and mask of every operation, what it is to select a row, and "No two rows match one descriptor" (R72). -/
def Obligations.NoTwoRowsMatchOneDescriptor : Prop :=
  decodeRows.map (fun r => (r.want, r.mask)) =
    [(0x0100000000000000#64, 0xFFFFFFFFFFFFFFFF#64), (0x0200000000000000#64, 0xFFFFFFFFFFFFFFFF#64),
     (0x0300000000000000#64, 0xFFFFFFFFFFFFFFFF#64), (0x0400000000000000#64, 0xFFFFFFFFFFFFFFFF#64),
     (0x0500000000000000#64, 0xFFFFFFFFFFFFFFC0#64), (0x0600000000000000#64, 0xFFFFFFFFFFFFFFFF#64),
     (0x0700000000000000#64, 0xFFFFFFFFFFFFFFFF#64), (0x0800000000000000#64, 0xFFFFFFFF0000FFFC#64),
     (0x1000000000000000#64, 0xFFFFFFFFFFFFFFC0#64), (0x1100000000000000#64, 0xFFFFFFFF00000000#64),
     (0x1200000000000000#64, 0xFFFFFFFFFFFF0000#64), (0x2000000000000000#64, 0xFF00FFFFFFFFFFFF#64),
     (0x2100000000000000#64, 0xFF00FFFFFFFF0000#64)] ∧
  (∀ (d : Descriptor) (i : Instr), decode d = .ok i ↔ ∃ r ∈ decodeRows, d &&& r.mask = r.want ∧ r.build d = i) ∧
  decodeRows.Pairwise fun r q => ∀ d : Descriptor, ¬ (d &&& r.mask = r.want ∧ d &&& q.mask = q.want)

/-- The reserved `OP` values decode to Illegal whatever the other bits are, and they are all of them: every other value
is the `OP` of some operation's descriptor (R78). -/
def Obligations.ReservedOpValuesAreIllegal : Prop :=
  (∀ d : Descriptor,
    (Descriptor.op d).toNat = 0x00 ∨ (0x09 ≤ (Descriptor.op d).toNat ∧ (Descriptor.op d).toNat ≤ 0x0F) ∨
      (0x13 ≤ (Descriptor.op d).toNat ∧ (Descriptor.op d).toNat ≤ 0x1F) ∨
      (0x22 ≤ (Descriptor.op d).toNat ∧ (Descriptor.op d).toNat ≤ 0xFF) →
    ∃ e, decode d = .error e) ∧
  ∀ op : BitVec 8,
    (0x01 ≤ op.toNat ∧ op.toNat ≤ 0x08) ∨ (0x10 ≤ op.toNat ∧ op.toNat ≤ 0x12) ∨ (0x20 ≤ op.toNat ∧ op.toNat ≤ 0x21) →
    ∃ (d : Descriptor) (i : Instr), Descriptor.op d = op ∧ decode d = .ok i

/-- The example words of R81 and one word of every other operation, written out from R70 and R71. -/
def Obligations.SpecWordsDecode : Prop :=
  decode 0x0100000000000000#64 = .ok .identify ∧
  decode 0x0200000000000000#64 = .ok .isSgmiiCapable ∧
  decode 0x0300000000000000#64 = .ok .enableSgmii ∧
  decode 0x0400000000000000#64 = .ok .softReset ∧
  decode 0x0500000000000028#64 = .ok (.setAutonegCaps ⟨true, false, true, false, false, false⟩) ∧
  decode 0x0600000000000000#64 = .ok .getLpCaps ∧
  decode 0x0700000000000000#64 = .ok .getLinkStatus ∧
  decode 0x0800000000640001#64 = .ok (.setSpeedDuplex 100#16 .full) ∧
  decode 0x1000000000000015#64 = .ok (.encAdv ⟨false, true, false, true, false, true⟩) ∧
  decode 0x110000000DE00300#64 = .ok (.decLpCaps 0x0DE0#16 0x0300#16) ∧
  decode 0x120000000000AC00#64 = .ok (.decLinkStatus 0xAC00#16) ∧
  decode 0x201B000000000000#64 = .ok (.busRead 27#8) ∧
  decode 0x2100000000008000#64 = .ok (.busWrite 0#8 0x8000#16)

/-- The capability mask, most significant bit first, and the duplex code (R73, R74), in every operation that has one,
with any speed (R75). -/
def Obligations.OperandFieldsDecode : Prop :=
  (∀ m : BitVec 6,
    decode (0x0500000000000000#64 ||| m.setWidth 64) = .ok (.setAutonegCaps
      ⟨m.getLsbD 5, m.getLsbD 4, m.getLsbD 3, m.getLsbD 2, m.getLsbD 1, m.getLsbD 0⟩) ∧
    decode (0x1000000000000000#64 ||| m.setWidth 64) = .ok (.encAdv
      ⟨m.getLsbD 5, m.getLsbD 4, m.getLsbD 3, m.getLsbD 2, m.getLsbD 1, m.getLsbD 0⟩)) ∧
  ∀ speed : Word16,
    decode (packDescriptor 0x08#8 0#8 speed 0#16) = .ok (.setSpeedDuplex speed .half) ∧
    decode (packDescriptor 0x08#8 0#8 speed 1#16) = .ok (.setSpeedDuplex speed .full) ∧
    decode (packDescriptor 0x08#8 0#8 speed 2#16) = .ok (.setSpeedDuplex speed .unknown) ∧
    decode (packDescriptor 0x08#8 0#8 speed 3#16) = .ok (.setSpeedDuplex speed .other)

/-! ### The step, the host and reset -/

/-- On the controller's turn, a busy block whose `cur` decodes to `i` runs the micro-step of `i` (R25, R26, R77), and
nothing else but the host's wait being used up. -/
def Obligations.StepRunsTheDecodedOperation : Prop :=
  ∀ (s u : State) (d : Descriptor) (i : Instr),
    ControllerTurn s u → s.busy = true → s.cur = some d → decode d = .ok i → step s = exec i u

/-- A descriptor that decodes to Illegal ends with `Err(IllegalOp)`: no transaction, nothing else changed (R77). That
the poll timer is idle then is the model's choice (log entry 2). -/
def Obligations.IllegalDescriptorEndsAtOnce : Prop :=
  ∀ (s u : State) (d : Descriptor) (e : DecodeError),
    ControllerTurn s u → s.busy = true → s.cur = some d → decode d = .error e →
      step s = .next (ended (.err .illegalOp) [] u.phy u)

/-- The reset values (10_state.md R43), less the two the spec does not give, and the block then waits: with no host
event every step leaves an idle block as it is (70_reset_and_hazards.md R144). -/
def Obligations.ResetBlockWaitsForTheHost : Prop :=
  (State.reset.fsm = .uninitialized ∧ State.reset.kind = none ∧ State.reset.phyId = none ∧
    State.reset.busy = false ∧ State.reset.cur = none ∧ State.reset.upc = 0 ∧ State.reset.poll = 0 ∧
    State.reset.result = none) ∧
  ∀ s u : State, ControllerTurn s u → s.busy = false → step s = .next u

/-- "A descriptor offered while `busy = true` is held: it is not accepted, not lost and not answered", then "accepted
like any other"; and no operation is answered twice or dropped: every accepted one is closed once, by its result or by a
reset (60_exceptions.md R139). -/
def Obligations.OfferedDescriptorsAreHeldThenAccepted : Prop :=
  (∀ (s t : State) (d : Descriptor) (rest : List HostEvent),
    s.busy = true → s.host = .issue d :: rest → step s = .next t →
      t.host = .issue d :: rest ∧ t.log.countP Event.isAccept = s.log.countP Event.isAccept) ∧
  (∀ (s : State) (d : Descriptor) (rest : List HostEvent),
    s.params.WellFormed → s.busy = false → s.host = .issue d :: rest →
      step s = .next { s with busy := true, cur := some d, upc := 0, host := rest, log := .accept d :: s.log }) ∧
  ∀ s t : State, LogBalanced s → step s = .next t → LogBalanced t

/-- Reset at any time, also in the middle of an operation: the controller elements get their reset values, no
transaction is issued and no result written (R142, R143). That it releases the bus handle (20_memory.md R57), that the
poll timer is idle after it, and what else it leaves alone is the model's reading (log entry 18). -/
def Obligations.ResetAbandonsTheOperation : Prop :=
  ∀ (s : State) (rest : List HostEvent),
    s.params.WellFormed → s.host = .reset :: rest →
      ∃ t, step s = .next t ∧
        t.fsm = .uninitialized ∧ t.kind = none ∧ t.phyId = none ∧ t.busy = false ∧ t.cur = none ∧ t.upc = 0 ∧
        t.poll = 0 ∧ t.result = none ∧ t.busHeld = false ∧ t.pollTimer = .idle ∧ t.log = .reset s.busy :: s.log ∧
        t.phy = s.phy ∧ t.params = s.params

/-- The host reads the result of the last operation, and the read changes nothing of the block (R140). That a read while
an operation is in progress is served at once, with the last completed one's result, is the model's choice (log entry
12). -/
def Obligations.HostReadsTheResult : Prop :=
  ∀ (s : State) (r : Result) (rest : List HostEvent),
    s.params.WellFormed → s.host = .readResult :: rest → s.result = some r →
      step s = .next { s with host := rest, replies := r :: s.replies }

/-- The model's own faults: "a parameter set that fails ... R10 is refused before any step", "a host read of `result`
while it is `none` faults" (R130). -/
def Obligations.ModelFaultsOfTheHost : Prop :=
  (∀ (s : State) (e : ParamError), s.params.problem = some e → step s = .refused (.illFormedParams e)) ∧
  ∀ (s : State) (rest : List HostEvent),
    s.params.WellFormed → s.host = .readResult :: rest → s.result = none → step s = .fault .resultUnread

/-- Nothing else is ever refused: no operation, in no state, is without a meaning. -/
def Obligations.OnlyIllFormedParametersAreRefused : Prop :=
  ∀ (s : State) (r : Refusal), step s = .refused r → ∃ e, s.params.problem = some e ∧ r = .illFormedParams e

/-- The checks of 00_scope.md R10, and the refusal of a set that fails one. Register numbers below 256 and bit positions
below 16 hold by their types. -/
def Obligations.ParameterChecks : Prop :=
  (∀ p : Params,
    p.WellFormed ↔
      (p.linkBit ≠ p.resolvedBit ∧ p.linkBit ≠ p.duplexStatusBit ∧ p.resolvedBit ≠ p.duplexStatusBit ∧
        (p.linkBit ≠ 14 ∧ p.linkBit ≠ 15) ∧ (p.resolvedBit ≠ 14 ∧ p.resolvedBit ≠ 15) ∧
        (p.duplexStatusBit ≠ 14 ∧ p.duplexStatusBit ≠ 15)) ∧
      1 ≤ p.nPoll ∧ ∀ e ∈ p.directory, e.idPattern &&& e.mask = e.idPattern) ∧
  ∀ s : State, ¬ s.params.WellFormed → ∃ e, step s = .refused (.illFormedParams e)

/-- The parameters "are configuration, not state: no operation writes them" (10_state.md R46). -/
def Obligations.ParametersNeverChange : Prop :=
  ∀ s t : State, step s = .next t → t.params = s.params

/-! ### The bus -/

/-- The wire conversion and its round trip (20_memory.md R52). -/
def Obligations.WireConversionSwapsBytes : Prop :=
  ∀ (p : Params) (v : Word16),
    fromWire p (toWire p v) = v ∧
    (p.wireSwap = false → fromWire p v = v ∧ toWire p v = v) ∧
    (p.wireSwap = true → toWire p v = fromWire p v ∧
      ∀ i, i < 8 → (fromWire p v).getLsbD i = v.getLsbD (i + 8) ∧ (fromWire p v).getLsbD (i + 8) = v.getLsbD i)

/-- Every `Read` may be answered by any answer and every `Write` by any answer; two reads of one register need not
return the same value and a read after a write need not return the written value (R50). -/
def Obligations.OracleAdmitsEveryAnswer : Prop :=
  (∀ (s : State) (reg : RegNum) (a : ReadAnswer), ∃ y, readAnswer reg { s with phy := y } = a) ∧
  (∀ (s : State) (reg : RegNum) (v : Word16) (a : WriteAnswer), ∃ y, writeAnswer reg v { s with phy := y } = a) ∧
  (∀ (s : State) (reg : RegNum) (w1 w2 : Word16), ∃ y,
    readAnswer reg { s with phy := y } = .ack w1 ∧
      readAnswer reg { s with phy := readPhy reg { s with phy := y } } = .ack w2) ∧
  ∀ (s : State) (reg : RegNum) (v w : Word16), ∃ y,
    writeAnswer reg v { s with phy := y } = .ack ∧
      readAnswer reg { s with phy := writePhy reg v { s with phy := y } } = .ack w

/-- Where an answer comes from: the next scripted one, else the reference responder, else a free draw. This order is the
model's own (log entries 1 and 9). -/
def Obligations.AnswersComeInOrder : Prop :=
  (∀ (p : Params) (y : Phy) (r : RegNum) (a : ReadAnswer) (rest : List ReadAnswer), y.readScript = a :: rest →
    phyRead p y r = (a, { y with readScript := rest })) ∧
  (∀ (p : Params) (y : Phy) (r : RegNum) (f : RefPhy), y.readScript = [] → y.reference = some f →
    phyRead p y r = ((refRead p f r).1, { y with reference := some (refRead p f r).2 })) ∧
  (∀ (p : Params) (y : Phy) (r : RegNum), y.readScript = [] → y.reference = none →
    phyRead p y r = (Config.freeRead y.stream y.draws, { y with draws := y.draws + 1 })) ∧
  (∀ (p : Params) (y : Phy) (r : RegNum) (w : Word16) (a : WriteAnswer) (rest : List WriteAnswer),
    y.writeScript = a :: rest → phyWrite p y r w = (a, { y with writeScript := rest })) ∧
  (∀ (p : Params) (y : Phy) (r : RegNum) (w : Word16) (f : RefPhy), y.writeScript = [] → y.reference = some f →
    phyWrite p y r w = ((refWrite p f r w).1, { y with reference := some (refWrite p f r w).2 })) ∧
  ∀ (p : Params) (y : Phy) (r : RegNum) (w : Word16), y.writeScript = [] → y.reference = none →
    phyWrite p y r w = (Config.freeWrite y.stream y.draws, { y with draws := y.draws + 1 })

/-- The reference responder (R51): an absent one answers `NoDevice` and does nothing; a present one reads a register as
it holds it, counts down or clears the reset bit at a read of `CTRL`, ignores a write to a read-only register, and
changes exactly the register written otherwise. -/
def Obligations.ReferenceResponderRegisters : Prop :=
  ∀ (p : Params) (f : RefPhy) (r : RegNum) (w : Word16), regsWf f.regs = true →
    (f.present = false → refRead p f r = (.noDevice, f) ∧ refWrite p f r w = (.noDevice, f)) ∧
    (f.present = true → r ≠ p.regCtrl → refRead p f r = (.ack (toWire p (regGet f.regs r.toNat)), f)) ∧
    (f.present = true → r = p.regCtrl →
      (refRead p f r).1 = .ack (toWire p (regGet (refRead p f r).2.regs r.toNat)) ∧
      (refRead p f r).2.present = true ∧ (refRead p f r).2.resetClearReads = f.resetClearReads ∧
      (∀ n, f.rstCount = .fin (n + 1) → (refRead p f r).2.rstCount = .fin n ∧ (refRead p f r).2.regs = f.regs) ∧
      (f.rstCount = .inf → (refRead p f r).2.rstCount = .inf ∧ (refRead p f r).2.regs = f.regs) ∧
      (f.rstCount = .fin 0 → (refRead p f r).2.rstCount = .fin 0 ∧
        ∀ q : RegNum, regGet (refRead p f r).2.regs q.toNat =
          if q = r then regGet f.regs q.toNat &&& ~~~0x8000#16 else regGet f.regs q.toNat)) ∧
    (f.present = true → r ∈ [p.regId1, p.regId2, p.regAnlpar, p.regGstat, p.regPssr] →
      refWrite p f r w = (.ack, f)) ∧
    (f.present = true → r ∉ [p.regId1, p.regId2, p.regAnlpar, p.regGstat, p.regPssr] →
      (refWrite p f r w).1 = .ack ∧ (refWrite p f r w).2.present = true ∧
      (refWrite p f r w).2.resetClearReads = f.resetClearReads ∧
      (∀ q : RegNum, regGet (refWrite p f r w).2.regs q.toNat =
        if q = r then fromWire p w else regGet f.regs q.toNat) ∧
      (refWrite p f r w).2.rstCount =
        if r = p.regCtrl ∧ (fromWire p w).getLsbD 15 = true then f.resetClearReads else f.rstCount)

/-- A read answered `NoDevice` or `BusError`, at any micro-step of any operation, ends the operation with code 1 or 3
and has no effect beyond its answer; nothing is rolled back (R54, 60_exceptions.md R128). That the poll timer is idle
then is the model's choice (log entry 2). -/
def Obligations.FailedReadEndsWithItsCode : Prop :=
  ∀ (i : Instr) (k : DriverKind) (s : State) (reg : RegNum),
    (isDriverOp i = true → s.kind = some k) → microStep k i s = .read reg →
      (readAnswer reg s = .noDevice →
        exec i s = .next (ended (.err .phyNotFoundNoDevice) [.read s.params.phyDevAddr reg .noDevice]
          (readPhy reg s) (cleared i s))) ∧
      (readAnswer reg s = .busError →
        exec i s = .next (ended (.err .phyAccessBus) [.read s.params.phyDevAddr reg .busError]
          (readPhy reg s) (cleared i s)))

/-- The same of a write (R55, R128). That the poll timer is idle then is the model's choice (log entry 2). -/
def Obligations.FailedWriteEndsWithItsCode : Prop :=
  ∀ (i : Instr) (k : DriverKind) (s : State) (reg : RegNum) (v : Word16),
    (isDriverOp i = true → s.kind = some k) → microStep k i s = .write reg v →
      (writeAnswer reg v s = .noDevice →
        exec i s = .next (ended (.err .phyNotFoundNoDevice)
          [.write s.params.phyDevAddr reg (toWire s.params v) .noDevice] (writePhy reg v s) s)) ∧
      (writeAnswer reg v s = .busError →
        exec i s = .next (ended (.err .phyAccessBus)
          [.write s.params.phyDevAddr reg (toWire s.params v) .busError] (writePhy reg v s) s))

/-- A transaction that is not answered is a step that is not enabled: the operation stays where it is, nothing is
logged and no fault is invented (70_reset_and_hazards.md R155). IDENTIFY's clearing stands before its first read: the
model's reading, log entry 7. The bus handle stays as it was, not held before an operation's first answered transaction:
the model's choice, log entry 17. -/
def Obligations.UnansweredTransactionIsNotEnabled : Prop :=
  ∀ (i : Instr) (k : DriverKind) (s : State) (reg : RegNum), (isDriverOp i = true → s.kind = some k) →
    (microStep k i s = .read reg → readAnswer reg s = .silent →
      exec i s = .next { cleared i s with phy := readPhy reg s }) ∧
    ∀ v : Word16, microStep k i s = .write reg v → writeAnswer reg v s = .silent →
      exec i s = .next { s with phy := writePhy reg v s }

/-- Every answered micro-step does what its listing has at the controller's line, and only that: one transaction with
the register and value listed, at the one device address, or one wait, or an internal step that ends the operation;
`upc` advances by one, within the room that R23's range has for poll reads (log entry 22); the log grows by that event,
and by the result if the operation ends there; else the result, `cur`, `busy` and `tmp2` are as before, the handle is
held, and `tmp` and `poll` are as the listing has them; the host's side and the parameters are untouched (00_scope.md
R8, R63, 10_state.md R25, R26, R28, 41_driver.md R118). How the line follows from the controller's elements and the poll
timer is the model's reading (log entry 2), and the fault off the listing its choice (log entry 15). -/
def Obligations.MicroStepsFollowTheirListing : Prop :=
  ∀ (i : Instr) (k : DriverKind) (s : State), (isDriverOp i = true → s.kind = some k) →
    (microStep k i s = .off → exec i s = .fault .upcOutOfSequence) ∧
    (microStep k i s ≠ .off → ∃ t, exec i s = .next t ∧
      t.params = s.params ∧ t.host = s.host ∧ t.replies = s.replies ∧
      (∀ reg w, microStep k i s = .read reg → readAnswer reg s = .ack w →
        t.phy = readPhy reg s ∧
        (polling i (line i s) = false → t.upc = countUp s.upc) ∧
        (∀ base ∈ resetBases i, line i s = base + 3 → t.upc = polledUpc i base s.upc) ∧
        (Continues (.read s.params.phyDevAddr reg (.ack w)) s t ∧ t.tmp = fromWire s.params w ∧
            t.poll = (if polling i (line i s) then s.poll + 1 else s.poll) ∨
          ∃ r, t.log = .done r :: .read s.params.phyDevAddr reg (.ack w) :: s.log ∧ Ended r t)) ∧
      (∀ reg v, microStep k i s = .write reg v → writeAnswer reg v s = .ack →
        t.phy = writePhy reg v s ∧ t.upc = countUp s.upc ∧
        (Continues (.write s.params.phyDevAddr reg (toWire s.params v) .ack) s t ∧ t.tmp = s.tmp ∧
            t.poll = (if polling i (line i s + 1) then 0 else s.poll) ∨
          ∃ r, t.log = .done r :: .write s.params.phyDevAddr reg (toWire s.params v) .ack :: s.log ∧ Ended r t)) ∧
      (microStep k i s = .wait → t = waitDone s) ∧
      (microStep k i s = .internal → ∃ r, t = ended r [] s.phy s))

/-- No operation reaches a register that the register map does not give it, or another device (R48, R61). -/
def Obligations.TransactionsStayInTheRegisterMap : Prop :=
  ∀ (i : Instr) (s t : State), exec i s = .next t →
    (∀ dev reg a, Event.read dev reg a ∈ t.log → Event.read dev reg a ∈ s.log ∨
      (dev = s.params.phyDevAddr ∧ reg ∈ readsFrom s.params i)) ∧
    ∀ dev reg w a, Event.write dev reg w a ∈ t.log → Event.write dev reg w a ∈ s.log ∨
      (dev = s.params.phyDevAddr ∧ reg ∈ writesTo s.params i)

/-! ### Identification and the binding -/

/-- A driver operation on an unbound controller ends at once with `NotBound`, before any transaction and before any
other fault, with `fsm` unchanged (41_driver.md R99, 60_exceptions.md R127). That the poll timer is idle then is the
model's choice (log entry 2). -/
def Obligations.UnboundDriverOperationsFault : Prop :=
  ∀ (i : Instr) (s : State), isDriverOp i = true → s.kind = none →
    exec i s = .next (ended (.err .notBound) [] s.phy s)

/-- IDENTIFY (R101): the first micro-step clears the binding and reads `ID1`; the second reads `ID2`, and the ID of both
binds the kind of the matching directory entry, or is `PhyNotFound_NoMatch`. What `upc` and the scratch values hold
after the end is the model's choice (log entry 13). That the poll timer is idle then is the model's choice (log entry
2). -/
def Obligations.IdentifyBindsByDirectoryMatch : Prop :=
  ∀ (s : State) (w : Word16),
    (s.upc = 0 → readAnswer s.params.regId1 s = .ack w →
      exec .identify s = .next
        { stepped (.read s.params.phyDevAddr s.params.regId1 (.ack w)) (readPhy s.params.regId1 s) s with
          kind := none, phyId := none, fsm := .uninitialized, tmp := fromWire s.params w }) ∧
    (∀ e, s.upc = 1 → readAnswer s.params.regId2 s = .ack w →
      dirMatch s.params.directory (s.tmp ++ fromWire s.params w) = some e →
      exec .identify s = .next
        { ended (.ok (.idKind (s.tmp ++ fromWire s.params w) e.kind))
            [.read s.params.phyDevAddr s.params.regId2 (.ack w)] (readPhy s.params.regId2 s) s with
          kind := some e.kind, phyId := some (s.tmp ++ fromWire s.params w),
          tmp2 := fromWire s.params w, upc := 2 }) ∧
    (s.upc = 1 → readAnswer s.params.regId2 s = .ack w →
      dirMatch s.params.directory (s.tmp ++ fromWire s.params w) = none →
      exec .identify s = .next
        { ended (.err .phyNotFoundNoMatch) [.read s.params.phyDevAddr s.params.regId2 (.ack w)]
            (readPhy s.params.regId2 s) s with
          tmp2 := fromWire s.params w, upc := 2 })

/-- "Linear-scan the table, first `(id & mask) == idPattern` wins" (R103): the entry found matches and no entry before
it does, and none is found exactly when none matches. -/
def Obligations.DirectoryScanTakesTheFirstMatch : Prop :=
  ∀ (dir : List DirEntry) (id : Id32),
    (∀ e, dirMatch dir id = some e ↔
      ∃ before after, dir = before ++ e :: after ∧ id &&& e.mask = e.idPattern ∧
        ∀ x ∈ before, id &&& x.mask ≠ x.idPattern) ∧
    (dirMatch dir id = none ↔ ∀ x ∈ dir, id &&& x.mask ≠ x.idPattern)

/-- The assembled ID, over the register values and over the raw bus words at either setting of `WIRE_SWAP` (R102). -/
def Obligations.IdIsAssembledFromRegisterBytes : Prop :=
  (∀ v1 v2 : Word16,
    assembleId v1 v2 = v1.extractLsb' 8 8 ++ v1.extractLsb' 0 8 ++ v2.extractLsb' 8 8 ++ v2.extractLsb' 0 8 ∧
    assembleId v1 v2 = (v1.setWidth 32 <<< 16) ||| v2.setWidth 32) ∧
  ∀ (p : Params) (w1 w2 : Word16),
    (p.wireSwap = true → assembleId (fromWire p w1) (fromWire p w2) =
      w1.extractLsb' 0 8 ++ w1.extractLsb' 8 8 ++ w2.extractLsb' 0 8 ++ w2.extractLsb' 8 8) ∧
    (p.wireSwap = false → assembleId (fromWire p w1) (fromWire p w2) = w1 ++ w2)

/-- A successful IDENTIFY sets `kind` and `phyId`, any IDENTIFY clears both first, and "no other operation writes them"
(10_state.md R27). That the clearing stands while IDENTIFY's first read is not answered is the model's reading (log
entry 7). -/
def Obligations.OnlyIdentifyWritesTheBinding : Prop :=
  (∀ (i : Instr) (s t : State), exec i s = .next t → i ≠ .identify → t.kind = s.kind ∧ t.phyId = s.phyId) ∧
  (∀ s t : State, s.upc = 0 → exec .identify s = .next t → t.kind = none ∧ t.phyId = none) ∧
  ∀ (s t : State) (id : Id32) (k : DriverKind), exec .identify s = .next t →
    t.log ≠ s.log → t.log.head? = some (.done (.ok (.idKind id k))) → t.kind = some k ∧ t.phyId = some id

/-! ### SGMII, soft reset and auto-negotiation, micro-step by micro-step -/

/-- IS_SGMII_CAPABLE answers the kind's capability, true for the modelled family, with no transaction (R105). That the
poll timer is idle then is the model's choice (log entry 2). -/
def Obligations.SgmiiCapabilityOfTheKind : Prop :=
  ∀ (s : State) (k : DriverKind), s.kind = some k →
    exec .isSgmiiCapable s = .next (ended (.ok (.flag true)) [] s.phy s)

/-- ENABLE_SGMII (R106): the RMW of `EXTSR`; the poll reads of both soft resets: a set bit goes back to the wait while
polls are left and times out after the last, a clear bit ends the first with its label, and the second with the
operation. How the line follows from the controller's elements and the poll timer is the model's reading (log entry 2);
the room that R23's range has for `upc` (log entry 22), and what it, `poll` and the
scratch values hold after the end (log entry 13), its choice. -/
def Obligations.EnableSgmiiMicroSteps : Prop :=
  ∀ (s : State) (k : DriverKind) (w : Word16), s.kind = some k →
    (s.upc = 0 → readAnswer s.params.regExtsr s = .ack w →
      exec .enableSgmii s = .next
        { stepped (.read s.params.phyDevAddr s.params.regExtsr (.ack w)) (readPhy s.params.regExtsr s) s with
          tmp := fromWire s.params w }) ∧
    (∀ v, v = (s.tmp &&& ~~~0x800F#16) ||| 0x8004#16 → s.upc = 1 →
      writeAnswer s.params.regExtsr v s = .ack →
      exec .enableSgmii s = .next
        (stepped (.write s.params.phyDevAddr s.params.regExtsr (toWire s.params v) .ack)
          (writePhy s.params.regExtsr v s) s)) ∧
    (line .enableSgmii s = 5 → readAnswer s.params.regCtrl s = .ack w → resetBit s.params w = false →
      exec .enableSgmii s = .next
        { stepped (.read s.params.phyDevAddr s.params.regCtrl (.ack w)) (readPhy s.params.regCtrl s) s with
          tmp := fromWire s.params w, poll := s.poll + 1, fsm := .sgmiiProbed
          upc := polledUpc .enableSgmii 2 s.upc }) ∧
    (line .enableSgmii s = 5 → readAnswer s.params.regCtrl s = .ack w → resetBit s.params w = true →
      s.poll + 1 < s.params.nPoll →
      exec .enableSgmii s = .next
        { stepped (.read s.params.phyDevAddr s.params.regCtrl (.ack w)) (readPhy s.params.regCtrl s) s with
          tmp := fromWire s.params w, poll := s.poll + 1, upc := polledUpc .enableSgmii 2 s.upc }) ∧
    (line .enableSgmii s = 5 → readAnswer s.params.regCtrl s = .ack w → resetBit s.params w = true →
      s.params.nPoll ≤ s.poll + 1 →
      exec .enableSgmii s = .next
        { ended (.err .phyAccessResetTimeout) [.read s.params.phyDevAddr s.params.regCtrl (.ack w)]
            (readPhy s.params.regCtrl s) s with
          tmp := fromWire s.params w, poll := s.poll + 1, upc := polledUpc .enableSgmii 2 s.upc }) ∧
    (line .enableSgmii s = 15 → readAnswer s.params.regCtrl s = .ack w → resetBit s.params w = false →
      exec .enableSgmii s = .next
        { ended (.ok .unit) [.read s.params.phyDevAddr s.params.regCtrl (.ack w)] (readPhy s.params.regCtrl s) s with
          tmp := fromWire s.params w, poll := s.poll + 1, fsm := .autonegConfigured,
          upc := polledUpc .enableSgmii 12 s.upc }) ∧
    (line .enableSgmii s = 15 → readAnswer s.params.regCtrl s = .ack w → resetBit s.params w = true →
      s.poll + 1 < s.params.nPoll →
      exec .enableSgmii s = .next
        { stepped (.read s.params.phyDevAddr s.params.regCtrl (.ack w)) (readPhy s.params.regCtrl s) s with
          tmp := fromWire s.params w, poll := s.poll + 1, upc := polledUpc .enableSgmii 12 s.upc }) ∧
    (line .enableSgmii s = 15 → readAnswer s.params.regCtrl s = .ack w → resetBit s.params w = true →
      s.params.nPoll ≤ s.poll + 1 →
      exec .enableSgmii s = .next
        { ended (.err .phyAccessResetTimeout) [.read s.params.phyDevAddr s.params.regCtrl (.ack w)]
            (readPhy s.params.regCtrl s) s with
          tmp := fromWire s.params w, poll := s.poll + 1, upc := polledUpc .enableSgmii 12 s.upc })

/-- SOFT_RESET (R108, R110): read `CTRL`, write it with bit 15 set and the other bits as read, wait, read again; return
at the first clear bit, wait again while polls are left, time out after the last. How the line follows from `upc` is the
model's reading (log entry 2); the room that R23's range has for `upc` (log entry 22), and what it, `poll` and the
scratch values hold after the end (log entry 13), its choice. -/
def Obligations.SoftResetMicroSteps : Prop :=
  ∀ (s : State) (k : DriverKind) (w : Word16), s.kind = some k →
    (s.upc = 0 → readAnswer s.params.regCtrl s = .ack w →
      exec .softReset s = .next
        { stepped (.read s.params.phyDevAddr s.params.regCtrl (.ack w)) (readPhy s.params.regCtrl s) s with
          tmp := fromWire s.params w }) ∧
    (s.upc = 1 → 0 < s.params.nPoll → writeAnswer s.params.regCtrl (s.tmp ||| 0x8000#16) s = .ack →
      exec .softReset s = .next
        { stepped (.write s.params.phyDevAddr s.params.regCtrl (toWire s.params (s.tmp ||| 0x8000#16)) .ack)
            (writePhy s.params.regCtrl (s.tmp ||| 0x8000#16) s) s with poll := 0 }) ∧
    (line .softReset s = 2 → exec .softReset s = .next (waitDone s)) ∧
    (line .softReset s = 3 → readAnswer s.params.regCtrl s = .ack w → resetBit s.params w = false →
      exec .softReset s = .next
        { ended (.ok .unit) [.read s.params.phyDevAddr s.params.regCtrl (.ack w)] (readPhy s.params.regCtrl s) s with
          tmp := fromWire s.params w, poll := s.poll + 1, upc := polledUpc .softReset 0 s.upc }) ∧
    (line .softReset s = 3 → readAnswer s.params.regCtrl s = .ack w → resetBit s.params w = true →
      s.poll + 1 < s.params.nPoll →
      exec .softReset s = .next
        { stepped (.read s.params.phyDevAddr s.params.regCtrl (.ack w)) (readPhy s.params.regCtrl s) s with
          tmp := fromWire s.params w, poll := s.poll + 1, upc := polledUpc .softReset 0 s.upc }) ∧
    (line .softReset s = 3 → readAnswer s.params.regCtrl s = .ack w → resetBit s.params w = true →
      s.params.nPoll ≤ s.poll + 1 →
      exec .softReset s = .next
        { ended (.err .phyAccessResetTimeout) [.read s.params.phyDevAddr s.params.regCtrl (.ack w)]
            (readPhy s.params.regCtrl s) s with
          tmp := fromWire s.params w, poll := s.poll + 1, upc := polledUpc .softReset 0 s.upc })

/-- SET_AUTONEG_CAPS (R111, R112): what the three RMWs write, and the poll reads of the soft reset: a clear bit ends the
operation with its label, a set bit goes back to the wait while polls are left and times out after the last. How the
line follows from `upc` is the model's reading (log entry 2); the room that R23's range has for `upc` (log entry 22),
and what it, `poll` and the scratch values hold after the end (log entry 13), its choice. -/
def Obligations.SetAutonegCapsMicroSteps : Prop :=
  ∀ (s : State) (k : DriverKind) (caps : CapSet) (w v : Word16), s.kind = some k →
    (s.upc = 1 → v = (s.tmp &&& ~~~0x0DE0#16) ||| (advertisementBits (kindTable s.params k) caps).1 →
      writeAnswer s.params.regAnar v s = .ack →
      exec (.setAutonegCaps caps) s = .next
        (stepped (.write s.params.phyDevAddr s.params.regAnar (toWire s.params v) .ack)
          (writePhy s.params.regAnar v s) s)) ∧
    (s.upc = 3 → v = (s.tmp &&& ~~~0x0300#16) ||| (advertisementBits (kindTable s.params k) caps).2 →
      writeAnswer s.params.regGctrl v s = .ack →
      exec (.setAutonegCaps caps) s = .next
        (stepped (.write s.params.phyDevAddr s.params.regGctrl (toWire s.params v) .ack)
          (writePhy s.params.regGctrl v s) s)) ∧
    (s.upc = 5 → v = (s.tmp &&& ~~~0x1000#16) ||| 0x1000#16 →
      writeAnswer s.params.regCtrl v s = .ack →
      exec (.setAutonegCaps caps) s = .next
        (stepped (.write s.params.phyDevAddr s.params.regCtrl (toWire s.params v) .ack)
          (writePhy s.params.regCtrl v s) s)) ∧
    (line (.setAutonegCaps caps) s = 9 → readAnswer s.params.regCtrl s = .ack w → resetBit s.params w = false →
      exec (.setAutonegCaps caps) s = .next
        { ended (.ok .unit) [.read s.params.phyDevAddr s.params.regCtrl (.ack w)] (readPhy s.params.regCtrl s) s with
          tmp := fromWire s.params w, poll := s.poll + 1, fsm := .autonegConfigured,
          upc := polledUpc (.setAutonegCaps caps) 6 s.upc }) ∧
    (line (.setAutonegCaps caps) s = 9 → readAnswer s.params.regCtrl s = .ack w → resetBit s.params w = true →
      s.poll + 1 < s.params.nPoll →
      exec (.setAutonegCaps caps) s = .next
        { stepped (.read s.params.phyDevAddr s.params.regCtrl (.ack w)) (readPhy s.params.regCtrl s) s with
          tmp := fromWire s.params w, poll := s.poll + 1, upc := polledUpc (.setAutonegCaps caps) 6 s.upc }) ∧
    (line (.setAutonegCaps caps) s = 9 → readAnswer s.params.regCtrl s = .ack w → resetBit s.params w = true →
      s.params.nPoll ≤ s.poll + 1 →
      exec (.setAutonegCaps caps) s = .next
        { ended (.err .phyAccessResetTimeout) [.read s.params.phyDevAddr s.params.regCtrl (.ack w)]
            (readPhy s.params.regCtrl s) s with
          tmp := fromWire s.params w, poll := s.poll + 1, upc := polledUpc (.setAutonegCaps caps) 6 s.upc })

/-- GET_LP_CAPS (R113): the two reads, and the decoded set. What `upc` and the scratch values hold after the end is the
model's choice (log entry 13). That the poll timer is idle then is the model's choice (log entry 2). -/
def Obligations.PartnerCapabilitiesAreReadAndDecoded : Prop :=
  ∀ (s : State) (k : DriverKind) (w : Word16), s.kind = some k →
    (s.upc = 0 → readAnswer s.params.regAnlpar s = .ack w →
      exec .getLpCaps s = .next
        { stepped (.read s.params.phyDevAddr s.params.regAnlpar (.ack w)) (readPhy s.params.regAnlpar s) s with
          tmp := fromWire s.params w }) ∧
    (s.upc = 1 → readAnswer s.params.regGstat s = .ack w →
      exec .getLpCaps s = .next
        { ended (.ok (.caps (decodeLinkPartnerCaps (kindTable s.params k) s.tmp (fromWire s.params w))))
            [.read s.params.phyDevAddr s.params.regGstat (.ack w)] (readPhy s.params.regGstat s) s with
          tmp2 := fromWire s.params w, upc := 2 })

/-! ### Link status and forced mode -/

/-- GET_LINK_STATUS (R114): the decoded status is the result and moves the label from the four configured labels; a
decode fault leaves the label. What `upc` and the scratch values hold after the end is the model's choice (log entry
13). That the poll timer is idle then is the model's choice (log entry 2). -/
def Obligations.LinkStatusIsReadAndDecoded : Prop :=
  ∀ (s : State) (k : DriverKind) (w : Word16), s.kind = some k →
    readAnswer s.params.regPssr s = .ack w →
      (∀ ls, decodeLinkStatus s.params (fromWire s.params w) = .ok ls →
        exec .getLinkStatus s = .next
          { ended (.ok (.link ls)) [.read s.params.phyDevAddr s.params.regPssr (.ack w)]
              (readPhy s.params.regPssr s) s with
            tmp := fromWire s.params w, upc := countUp s.upc,
            fsm := if s.fsm = .autonegConfigured ∨ s.fsm = .forcedConfigured ∨ s.fsm = .linkUp ∨ s.fsm = .linkDown
              then (if ls.state = .up then .linkUp else .linkDown) else s.fsm }) ∧
      (∀ c, decodeLinkStatus s.params (fromWire s.params w) = .error c →
        exec .getLinkStatus s = .next
          { ended (.err .decodeFault) [.read s.params.phyDevAddr s.params.regPssr (.ack w)]
              (readPhy s.params.regPssr s) s with
            tmp := fromWire s.params w, upc := countUp s.upc })

/-- SET_SPEED_DUPLEX (R116, R117): the one blind write, with the whole table of values, and `UnsupportedSpeed` before
any transaction for every other speed. That the poll timer is idle then is the model's choice (log entry 2). -/
def Obligations.ForcedModeWritesTheTableValue : Prop :=
  ∀ (s : State) (k : DriverKind) (speed v : Word16) (duplex : DuplexArg), s.kind = some k →
    ((speed = 1000#16 ∧ v = (if duplex = .half then 0x0040#16 else 0x0140#16) ∨
      speed = 100#16 ∧ v = (if duplex = .half then 0x2000#16 else 0x2100#16) ∨
      speed = 10#16 ∧ v = (if duplex = .half then 0x0000#16 else 0x0100#16)) →
      writeAnswer s.params.regCtrl v s = .ack →
      ∃ upcAfter, exec (.setSpeedDuplex speed duplex) s = .next
        { ended (.ok .unit) [.write s.params.phyDevAddr s.params.regCtrl (toWire s.params v) .ack]
            (writePhy s.params.regCtrl v s) s with
          fsm := .forcedConfigured, upc := upcAfter }) ∧
    (speed ≠ 1000#16 → speed ≠ 100#16 → speed ≠ 10#16 →
      exec (.setSpeedDuplex speed duplex) s = .next (ended (.err .unsupportedSpeed) [] s.phy s))

/-- The link-status decoder over its five bits (40_codec.md R93, R94), at any position of the link bit (R97). -/
def Obligations.LinkStatusDecodeTable : Prop :=
  ∀ (p : Params) (s : Word16) (L R D : Bool) (S : BitVec 2) (down : LinkStatus),
    L = s.getLsbD p.linkBit.val → R = s.getLsbD p.resolvedBit.val → D = s.getLsbD p.duplexStatusBit.val →
    S = s.extractLsb' 14 2 → down = ⟨if L then .up else .down, .s0, .unknown⟩ →
      (L = true → R = true → S = 0#2 → decodeLinkStatus p s = .ok ⟨.up, .s10, if D then .full else .half⟩) ∧
      (L = true → R = true → S = 1#2 → decodeLinkStatus p s = .ok ⟨.up, .s100, if D then .full else .half⟩) ∧
      (L = true → R = true → S = 2#2 → decodeLinkStatus p s = .ok ⟨.up, .s1000, if D then .full else .half⟩) ∧
      (L = true → R = true → S = 3#2 → decodeLinkStatus p s = .error .decodeFault) ∧
      ((L = false ∨ R = false) → S ≠ 3#2 → decodeLinkStatus p s = .ok down) ∧
      ((L = false ∨ R = false) → S = 3#2 → p.decodeFaultScope = .meaningful → decodeLinkStatus p s = .ok down) ∧
      ((L = false ∨ R = false) → S = 3#2 → p.decodeFaultScope = .always →
        decodeLinkStatus p s = .error .decodeFault)

/-- Every link status the block produces: "if not (`state = Up` and the resolved bit was set) then `speedMbps = 0` and
`duplex = Unknown`" (00_scope.md R15). -/
def Obligations.ProducedStatusObeysTheInvariant : Prop :=
  ∀ (i : Instr) (s t : State) (ls : LinkStatus), exec i s = .next t → t.log ≠ s.log →
    t.log.head? = some (.done (.ok (.link ls))) →
      ∃ b : Word16, ((∃ w, i = .getLinkStatus ∧ readAnswer s.params.regPssr s = .ack w ∧ b = fromWire s.params w) ∨
          i = .decLinkStatus b) ∧
        (¬ (ls.state = .up ∧ b.getLsbD s.params.resolvedBit.val = true) →
          ls.speedMbps = .s0 ∧ ls.duplex = .unknown)

/-! ### The codec operations -/

/-- ENC_ADV (40_codec.md R86, R88), bit by bit. That the poll timer is idle then is the model's choice (log entry 2). -/
def Obligations.AdvertisementIsEncoded : Prop :=
  ∀ (s : State) (caps : CapSet),
    ∃ adv gig : Word16,
      exec (.encAdv caps) s = .next (ended (.ok (.advBits adv gig)) [] s.phy s) ∧
      (∀ n, n < 16 → adv.getLsbD n =
        (n == 11 || n == 10 || (n == 8 && caps.c100full) || (n == 7 && caps.c100half) || (n == 6 && caps.c10full) ||
          (n == 5 && caps.c10half))) ∧
      ∀ n, n < 16 → gig.getLsbD n = ((n == 9 && caps.c1000full) || (n == 8 && caps.c1000half))

/-- DEC_LP_CAPS (R89, R91), bit by bit, at either layout of `GSTAT`. That the poll timer is idle then is the model's
choice (log entry 2). -/
def Obligations.PartnerBitsAreDecoded : Prop :=
  ∀ (s : State) (p g : Word16),
    exec (.decLpCaps p g) s = .next (ended (.ok (.caps
      ⟨g.getLsbD (if s.params.gstatLayout = .inverse then 9 else 11),
        g.getLsbD (if s.params.gstatLayout = .inverse then 8 else 10),
        p.getLsbD 8, p.getLsbD 7, p.getLsbD 6, p.getLsbD 5⟩)) [] s.phy s)

/-- DEC_LINK_STATUS (R96): the decoder's answer is the result, and nothing else changes, `fsm` in particular. That the
poll timer is idle then is the model's choice (log entry 2). -/
def Obligations.StatusBitsAreDecoded : Prop :=
  ∀ (s : State) (b : Word16),
    (∀ ls, decodeLinkStatus s.params b = .ok ls →
      exec (.decLinkStatus b) s = .next (ended (.ok (.link ls)) [] s.phy s)) ∧
    ∀ c, decodeLinkStatus s.params b = .error c →
      exec (.decLinkStatus b) s = .next (ended (.err .decodeFault) [] s.phy s)

/-- The encoder's properties (R87): the pause bits always set, no bit outside the owned masks, injective. -/
def Obligations.EncoderStaysInItsMasks : Prop :=
  ∀ (p : Params) (k : DriverKind) (caps other : CapSet),
    (advertisementBits (kindTable p k) caps).1 &&& 0x0C00#16 = 0x0C00#16 ∧
    (advertisementBits (kindTable p k) caps).1 &&& ~~~0x0DE0#16 = 0#16 ∧
    (advertisementBits (kindTable p k) caps).2 &&& ~~~0x0300#16 = 0#16 ∧
    0x0C00 ≤ (advertisementBits (kindTable p k) caps).1.toNat ∧
    (advertisementBits (kindTable p k) caps).1.toNat ≤ 0x0DE0 ∧
    ((advertisementBits (kindTable p k) caps).2 ∈ [0x0000#16, 0x0100#16, 0x0200#16, 0x0300#16]) ∧
    (advertisementBits (kindTable p k) caps = advertisementBits (kindTable p k) other → caps = other)

/-- The round trip (R92): with `Inverse` every set comes back exactly; with `Ieee` a set does exactly when it holds no
1000 key. -/
def Obligations.EncodeThenDecodeReturnsTheSet : Prop :=
  ∀ (p : Params) (k : DriverKind) (caps : CapSet),
    (p.gstatLayout = .inverse →
      decodeLinkPartnerCaps (kindTable p k) (advertisementBits (kindTable p k) caps).1
        (advertisementBits (kindTable p k) caps).2 = caps) ∧
    (p.gstatLayout = .ieee →
      (decodeLinkPartnerCaps (kindTable p k) (advertisementBits (kindTable p k) caps).1
        (advertisementBits (kindTable p k) caps).2 = caps ↔ caps.c1000full = false ∧ caps.c1000half = false))

/-- An RMW writes every bit outside its mask back as read, and its owned bits as given: no use of it has a value bit
outside the mask (20_memory.md R56). -/
def Obligations.ReadModifyWritePreservesOtherBits : Prop :=
  (∀ (read mask value : Word16) (n : Nat), value &&& ~~~mask = 0#16 → n < 16 →
    (mergeBits read mask value).getLsbD n = if mask.getLsbD n then value.getLsbD n else read.getLsbD n) ∧
  ∀ (p : Params) (k : DriverKind) (caps : CapSet),
    (kindTable p k).extSgmii &&& ~~~(kindTable p k).extMask = 0#16 ∧
    anAdvBits (kindTable p k) caps &&& ~~~(kindTable p k).advMask = 0#16 ∧
    gigECtrlBits (kindTable p k) caps &&& ~~~(kindTable p k).gigMask = 0#16 ∧
    (kindTable p k).ctrlAnen &&& ~~~(kindTable p k).ctrlAnen = 0#16

/-! ### Register pass-through -/

/-- BUS_READ (42_bus.md R120): the register value is the result; no binding needed, label and binding kept (R119). What
`upc` and the scratch values hold after the end is the model's choice (log entry 13). That the poll timer is idle then
is the model's choice (log entry 2). -/
def Obligations.BusReadReturnsTheRegister : Prop :=
  ∀ (s : State) (reg : RegNum) (w : Word16), readAnswer reg s = .ack w →
    exec (.busRead reg) s = .next
      { ended (.ok (.word (fromWire s.params w))) [.read s.params.phyDevAddr reg (.ack w)] (readPhy reg s) s with
        tmp := fromWire s.params w, upc := countUp s.upc }

/-- BUS_WRITE (R121): the value as given goes out in wire order; no binding needed, label and binding kept (R119). What
`upc` and the scratch values hold after the end is the model's choice (log entry 13). That the poll timer is idle then
is the model's choice (log entry 2). -/
def Obligations.BusWriteSendsTheValue : Prop :=
  ∀ (s : State) (reg : RegNum) (value : Word16), writeAnswer reg value s = .ack →
    exec (.busWrite reg value) s = .next
      { ended (.ok .unit) [.write s.params.phyDevAddr reg (toWire s.params value) .ack] (writePhy reg value s) s with
        upc := countUp s.upc }

/-! ### Rules over all operations -/

/-- The transitions of the label: the table of 41_driver.md R100, for every operation. From every state: a label kept
or one of the operation's row; kept by every micro-step that does not end the operation, but for IDENTIFY's clearing
with its first and ENABLE_SGMII's first label at the clear poll that ends its first soft reset; the label on success and
on a fault from the one found at the last micro-step; IDENTIFY's clearing at its first answered micro-step and no other
change of it; ENABLE_SGMII's first label at that clear poll. From a state of the invariant, in which the operation in
`cur` runs: IDENTIFY ends with `Uninitialized` whatever its end, and ENABLE_SGMII's fault after its first label leaves
that label. And the label "is bookkeeping" (10_state.md R24), of six values: two blocks that differ only in it never
differ in anything else, in no transaction and no result, whatever the host does and the PHY answers. How the line
follows from the controller's elements and the poll timer is log entry 2, and that the clearing stands while the first
read is not answered log entry 7. -/
def Obligations.LabelTransitions : Prop :=
  (∀ (i : Instr) (s t : State), exec i s = .next t →
    (t.fsm = s.fsm ∨ t.fsm ∈ labelsSet i) ∧
    ((t.log = s.log ∨ ∃ e, Event.counts e = true ∧ t.log = e :: s.log) →
      t.fsm = s.fsm ∨ (i = .identify ∧ s.upc = 0 ∧ t.fsm = .uninitialized) ∨
        (i = .enableSgmii ∧ line i s = 5 ∧ t.fsm = .sgmiiProbed ∧
          ∃ w, readAnswer s.params.regCtrl s = .ack w ∧ resetBit s.params w = false)) ∧
    (∀ v, t.log ≠ s.log → t.log.head? = some (.done (.ok v)) → t.fsm = labelOnSuccess i s.fsm v) ∧
    (∀ c, t.log ≠ s.log → t.log.head? = some (.done (.err c)) →
      t.fsm = if i = .identify ∧ s.upc = 0 then .uninitialized else s.fsm)) ∧
  (∀ s t : State, exec .identify s = .next t →
    (s.upc = 0 → readAnswer s.params.regId1 s ≠ .silent → t.fsm = .uninitialized) ∧
    (s.upc = 1 → t.fsm = s.fsm)) ∧
  (∀ (s : State) (k : DriverKind) (w : Word16), s.kind = some k → line .enableSgmii s = 5 →
    readAnswer s.params.regCtrl s = .ack w → resetBit s.params w = false →
      ∃ t, exec .enableSgmii s = .next t ∧ t.fsm = .sgmiiProbed) ∧
  (∀ (i : Instr) (s t : State) (r : Result), Inv s → s.cur = some (encode i) → exec i s = .next t → Ended r t →
    (i = .identify → t.fsm = .uninitialized) ∧
    (∀ c, i = .enableSgmii → r = .err c → t.fsm = if 6 ≤ line i s then .sgmiiProbed else s.fsm)) ∧
  (∀ l : FsmState,
    l ∈ [.uninitialized, .sgmiiProbed, .autonegConfigured, .forcedConfigured, .linkDown, .linkUp]) ∧
  ∀ (n : Nat) (s t : State), SameButLabel s t → SameOutcome SameButLabel (run n s) (run n t)

/-- The fault codes with the numbers and classes of R122 and R123: an operation raises no code outside its row of R124,
every code of the row is raised by some operand in some state of the invariant, and an illegal descriptor raises code 8.
-/
def Obligations.FaultCodesAreTheTables : Prop :=
  (∀ (i : Instr) (s t : State) (c : ErrCode), exec i s = .next t →
    Event.done (.err c) ∈ t.log → Event.done (.err c) ∈ s.log ∨ c ∈ mayRaise i) ∧
  (∀ (i : Instr) (c : ErrCode), c ∈ mayRaise i →
    ∃ (j : Instr) (s t : State), Descriptor.op (encode j) = Descriptor.op (encode i) ∧ Inv s ∧
      s.cur = some (encode j) ∧ exec j s = .next t ∧ Ended (.err c) t) ∧
  (∀ (s u : State) (d : Descriptor) (e : DecodeError),
    ControllerTurn s u → s.busy = true → s.cur = some d → decode d = .error e →
      ∃ t, step s = .next t ∧ Ended (.err .illegalOp) t) ∧
  [ErrCode.phyNotFoundNoDevice, .phyNotFoundNoMatch, .phyAccessBus, .phyAccessResetTimeout, .decodeFault,
    .unsupportedSpeed, .notBound, .illegalOp].map (fun c => (c.number, c.errClass)) =
    [(1, .notFound), (2, .notFound), (3, .accessFault), (4, .accessFault), (5, .protocolFault), (6, .usageFault),
      (7, .usageFault), (8, .usageFault)]

/-- The invariant holds after reset. -/
def Obligations.InvariantHoldsAtReset : Prop := Inv State.reset

/-- Every step keeps the invariant, whatever the host does and the PHY answers. -/
def Obligations.EveryStepKeepsTheInvariant : Prop :=
  ∀ s t : State, Inv s → step s = .next t → Inv t

/-- Under the invariant the machine never stops, but at the host's read of a result that is not there (R43, R130): no
operation faults the machine, none is refused (R129). -/
def Obligations.NoStopUnderTheInvariant : Prop :=
  ∀ s : State, Inv s →
    (∃ t, step s = .next t) ∨
      (step s = .fault .resultUnread ∧ s.result = none ∧ ∃ rest, s.host = .readResult :: rest)

/-- Every operation ends, within `12 + 4 * N_POLL` micro-steps (40 at the default), provided every transaction is
answered (70_reset_and_hazards.md R155, 41_driver.md R118): no more steps, and no more transactions and waits. -/
def Obligations.EveryOperationEnds : Prop :=
  ∀ s : State, Inv s → HostQuiet s → s.phy.Answers → s.busy = true →
    ∃ (n : Nat) (t : State) (r : Result), n ≤ 12 + 4 * s.params.nPoll ∧ run n s = .next t ∧ Ended r t ∧
      t.log.head? = some (.done r) ∧ doneSinceAccept t.log ≤ 12 + 4 * s.params.nPoll

/-- A soft reset returns at the first poll read that sees the reset bit clear: exactly 2 + k transactions and k waits,
with the values R108 writes, for every k in 1..`N_POLL` (41_driver.md R108 to R110). `upc` counts them all (R118), as
far as R23's range has room (log entry 22); what it and `poll` hold once the block is idle is the model's choice (log
entry 13). -/
def Obligations.SoftResetReturnsAtTheFirstClearPoll : Prop :=
  ∀ (s : State) (w : Word16) (polls : List Word16) (reads : List ReadAnswer) (writes : List WriteAnswer),
    Accepted .softReset s → HostQuiet s → s.kind.isSome = true → PollsToClear s.params polls →
    s.phy.readScript = .ack w :: (polls.map ReadAnswer.ack ++ reads) → s.phy.writeScript = .ack :: writes →
      ∃ t, run (2 + 2 * polls.length) s = .next t ∧ Ended (.ok .unit) t ∧
        t.log = .done (.ok .unit) :: (resetLog s.params w polls ++ s.log) ∧
        t.fsm = s.fsm ∧ t.kind = s.kind ∧ t.phyId = s.phyId ∧ t.poll = polls.length ∧
        t.upc.val = min 62 (2 + 2 * polls.length) ∧
        t.phy = { s.phy with readScript := reads, writeScript := writes }

/-- A soft reset whose bit never clears times out after `N_POLL` poll reads, never later (R108, R109): SOFT_RESET from
acceptance, and in every operation that does one (R106, R110, R112) each poll read that sees the bit set, which goes
back to the wait while polls are left and ends the operation after the last, and its whole poll loop from the first
wait. `upc` counts SOFT_RESET's transactions and waits (R118), as far as R23's range has room (log entry 22); what it
holds once the block is idle is the model's choice (log entry 13), and how the line follows from the controller's
elements and the poll timer, its reading (log entry 2). -/
def Obligations.SoftResetTimesOutAfterTheBudget : Prop :=
  (∀ (s : State) (w : Word16) (polls : List Word16) (reads : List ReadAnswer) (writes : List WriteAnswer),
    Accepted .softReset s → HostQuiet s → s.kind.isSome = true →
    polls.length = s.params.nPoll → (∀ v ∈ polls, resetBit s.params v = true) →
    s.phy.readScript = .ack w :: (polls.map ReadAnswer.ack ++ reads) → s.phy.writeScript = .ack :: writes →
      ∃ t, run (2 + 2 * s.params.nPoll) s = .next t ∧ Ended (.err .phyAccessResetTimeout) t ∧
        t.log = .done (.err .phyAccessResetTimeout) :: (resetLog s.params w polls ++ s.log) ∧
        t.fsm = s.fsm ∧ t.kind = s.kind ∧ t.phyId = s.phyId ∧
        t.upc.val = min 62 (2 + 2 * s.params.nPoll) ∧
        t.phy = { s.phy with readScript := reads, writeScript := writes }) ∧
  (∀ (i : Instr) (k : DriverKind) (base : Nat) (s : State) (w : Word16),
    base ∈ resetBases i → s.kind = some k → line i s = base + 3 → readAnswer s.params.regCtrl s = .ack w →
    resetBit s.params w = true →
      (s.poll + 1 < s.params.nPoll → ∃ t, exec i s = .next t ∧
        Continues (.read s.params.phyDevAddr s.params.regCtrl (.ack w)) s t ∧
        t.fsm = s.fsm ∧ t.poll = s.poll + 1 ∧ line i t = base + 2) ∧
      (s.params.nPoll ≤ s.poll + 1 → ∃ t, exec i s = .next t ∧ Ended (.err .phyAccessResetTimeout) t ∧
        t.log = [.done (.err .phyAccessResetTimeout), .read s.params.phyDevAddr s.params.regCtrl (.ack w)] ++ s.log ∧
        t.fsm = s.fsm)) ∧
  ∀ (i : Instr) (k : DriverKind) (base : Nat) (s : State) (polls : List Word16) (reads : List ReadAnswer),
    base ∈ resetBases i → s.params.WellFormed → HostQuiet s → s.busy = true → s.cur = some (encode i) →
    s.kind = some k → line i s = base + 2 → s.poll = 0 →
    polls.length = s.params.nPoll → (∀ v ∈ polls, resetBit s.params v = true) →
    s.phy.readScript = polls.map ReadAnswer.ack ++ reads →
      ∃ t, run (2 * s.params.nPoll) s = .next t ∧ Ended (.err .phyAccessResetTimeout) t ∧
        t.log = .done (.err .phyAccessResetTimeout) :: (pollLog s.params polls ++ s.log) ∧
        t.fsm = s.fsm ∧ t.kind = s.kind ∧ t.phyId = s.phyId ∧ t.phy = { s.phy with readScript := reads }

/-- SET_AUTONEG_CAPS from acceptance to result: the RMWs of `ANAR`, `GCTRL` and `CTRL` in this order, then the soft
reset, for every capability set and every content of the registers (R111, R112). `upc` counts them all (R118), as far
as R23's range has room (log entry 22); what it holds once the block is idle is the model's choice (log entry 13). -/
def Obligations.SetAutonegCapsWholeRun : Prop :=
  ∀ (s : State) (k : DriverKind) (caps : CapSet) (wa wg wc w : Word16) (polls : List Word16)
    (reads : List ReadAnswer) (writes : List WriteAnswer),
    Accepted (.setAutonegCaps caps) s → HostQuiet s → s.kind = some k → PollsToClear s.params polls →
    s.phy.readScript = [.ack wa, .ack wg, .ack wc, .ack w] ++ (polls.map ReadAnswer.ack ++ reads) →
    s.phy.writeScript = [.ack, .ack, .ack, .ack] ++ writes →
      ∃ t, run (8 + 2 * polls.length) s = .next t ∧ Ended (.ok .unit) t ∧
        t.log = .done (.ok .unit) :: (resetLog s.params w polls ++
          rmwLog s.params s.params.regCtrl 0x1000#16 0x1000#16 wc ++
          rmwLog s.params s.params.regGctrl 0x0300#16 (advertisementBits (kindTable s.params k) caps).2 wg ++
          rmwLog s.params s.params.regAnar 0x0DE0#16 (advertisementBits (kindTable s.params k) caps).1 wa ++ s.log) ∧
        t.fsm = .autonegConfigured ∧ t.kind = s.kind ∧ t.phyId = s.phyId ∧
        t.upc.val = min 62 (8 + 2 * polls.length) ∧
        t.phy = { s.phy with readScript := reads, writeScript := writes }

/-- ENABLE_SGMII from acceptance to result: the RMW of `EXTSR`, the soft reset that commits it, the auto-negotiation
setup with every capability, in `2 + (2 + k1) + 6 + (2 + k2)` transactions and `k1 + k2` waits (R106, R118). `upc`
counts them all (R118), as far as R23's range has room (log entry 22); what it holds once the block is idle is the
model's choice (log entry 13). -/
def Obligations.EnableSgmiiWholeRun : Prop :=
  ∀ (s : State) (k : DriverKind) (we w1 wa wg wc w2 : Word16) (polls1 polls2 : List Word16)
    (reads : List ReadAnswer) (writes : List WriteAnswer),
    Accepted .enableSgmii s → HostQuiet s → s.kind = some k →
    PollsToClear s.params polls1 → PollsToClear s.params polls2 →
    s.phy.readScript = [.ack we, .ack w1] ++ (polls1.map ReadAnswer.ack ++
      ([.ack wa, .ack wg, .ack wc, .ack w2] ++ (polls2.map ReadAnswer.ack ++ reads))) →
    s.phy.writeScript = [.ack, .ack, .ack, .ack, .ack, .ack] ++ writes →
      ∃ t, run (12 + 2 * polls1.length + 2 * polls2.length) s = .next t ∧ Ended (.ok .unit) t ∧
        t.log = .done (.ok .unit) :: (resetLog s.params w2 polls2 ++
          rmwLog s.params s.params.regCtrl 0x1000#16 0x1000#16 wc ++
          rmwLog s.params s.params.regGctrl 0x0300#16 0x0300#16 wg ++
          rmwLog s.params s.params.regAnar 0x0DE0#16 0x0DE0#16 wa ++
          resetLog s.params w1 polls1 ++
          rmwLog s.params s.params.regExtsr 0x800F#16 0x8004#16 we ++ s.log) ∧
        t.fsm = .autonegConfigured ∧ t.kind = s.kind ∧ t.phyId = s.phyId ∧
        t.upc.val = min 62 (12 + 2 * min polls1.length 25 + 2 * polls2.length) ∧
        t.phy = { s.phy with readScript := reads, writeScript := writes }

/-- No value read by one operation is used by another, and no rule reads a scratch element before the operation has
written it: two blocks that differ only in `tmp`, `tmp2` and `poll` at the start of an operation, or idle, never differ
in anything else, whatever the host does and the PHY answers (10_state.md R43, R45). -/
def Obligations.ScratchNeverCarriesOver : Prop :=
  ∀ (n : Nat) (s t : State), SameButScratch s t → (s.busy = false ∨ s.upc = 0) →
    SameOutcome SameButScratch (run n s) (run n t)

/-- Instances share no state (60_exceptions.md R136): what a step of the system does to a block is that block's own
step, and nothing to any other; every block starts at reset with its own parameters, and no two draw one PHY's answers
(20_memory.md R68). A command of the host offers its operation to the block of every port it reaches, PHYLINKSTATUS to
every present one's, changes nothing else of it and nothing of any other, and the replies report those ports' results
(30_encoding.md R83, 60_exceptions.md R141); that a port is a place in the list is the model's choice (log entry 23). -/
def Obligations.InstancesShareNothing : Prop :=
  (∀ (k : Nat) (blocks after : List State), systemStep k blocks = .next after →
    (∀ j, j ≠ k → after[j]? = blocks[j]?) ∧
    (∀ s, blocks[k]? = some s → ∃ t, step s = .next t ∧ after[k]? = some t)) ∧
  (∀ (k : Nat) (blocks : List State) (s t : State), blocks[k]? = some s → step s = .next t →
    ∃ after, systemStep k blocks = .next after ∧ after[k]? = some t) ∧
  (∀ ps : List Params,
    (systemReset ps).length = ps.length ∧
    (∀ (k : Nat) (p : Params), ps[k]? = some p → ∃ s : State, (systemReset ps)[k]? = some s ∧
      s = { State.reset with params := p, phy := s.phy } ∧ s.phy = { Phy.oracle with stream := s.phy.stream }) ∧
    ∀ (j k : Nat) (s t : State), (systemReset ps)[j]? = some s → (systemReset ps)[k]? = some t → j ≠ k →
      s.phy.stream ≠ t.phy.stream) ∧
  ∀ (present : List Nat) (blocks : List State) (c : HostCommand) (i : Instr) (reached : Nat → Prop),
    ((∃ port caps, c = .phyAutonegSet port caps ∧ i = .setAutonegCaps caps ∧ ∀ k, reached k ↔ k = port) ∨
      (∃ port speed duplex, c = .phySpeedDuplexSet port speed duplex ∧ i = .setSpeedDuplex speed duplex ∧
        ∀ k, reached k ↔ k = port) ∨
      (c = .phyLinkStatus ∧ i = .getLinkStatus ∧ ∀ k, reached k ↔ k ∈ present)) →
    (issueCommand present c blocks).length = blocks.length ∧
    ∀ (k : Nat) (s : State), blocks[k]? = some s →
      (reached k → (issueCommand present c blocks)[k]? = some { s with host := s.host ++ [.issue (encode i)] }) ∧
      (¬ reached k → (issueCommand present c blocks)[k]? = some s) ∧
      (∀ reply, (k, reply) ∈ commandReplies present c blocks ↔
        reached k ∧ reply = s.result.bind (commandReply c)) ∧
      (c = .phyLinkStatus → ∀ ls, commandReply c (.ok (.link ls)) = some (.status ls)) ∧
      (c ≠ .phyLinkStatus → commandReply c (.ok .unit) = some .acknowledged) ∧
      ∀ e, commandReply c (.err e) = some (.error e)

/-- The pseudo-instructions: `SET_AUTONEG_ALL`, and `PROBE_SGMII`, whose host issues each next operation only after an
`Ok`, and ENABLE_SGMII only after `Ok(Flag(true))`, and nothing after that (30_encoding.md R82). -/
def Obligations.PseudoOperationsExpand : Prop :=
  encode setAutonegAll = 0x050000000000003F#64 ∧
  (∀ r, probeNext 0 r = some .identify) ∧
  (∀ v, probeNext 1 (some (.ok v)) = some .isSgmiiCapable) ∧
  probeNext 2 (some (.ok (.flag true))) = some .enableSgmii ∧
  (∀ v, v ≠ .flag true → probeNext 2 (some (.ok v)) = none) ∧
  (∀ n c, n ≠ 0 → probeNext n (some (.err c)) = none) ∧
  (∀ n, n ≠ 0 → probeNext n none = none) ∧
  ∀ n r, 3 ≤ n → probeNext n r = none
end

