-- ==== Sys2Proof/Laws/Encoding.lean ====
section
/-! SUPPORT. The fields of a packed descriptor, and masks over them: what proofs about the encoder and the decoder cite
instead of unfolding bits. -/

namespace Sys2Proof.Laws

theorem packDescriptor_getLsbD (op : BitVec 8) (reg : RegNum) (a b : Word16) (i : Nat) :
    (packDescriptor op reg a b).getLsbD i =
      if i < 16 then b.getLsbD i else if i < 32 then a.getLsbD (i - 16) else if i < 48 then false
      else if i < 56 then reg.getLsbD (i - 48) else op.getLsbD (i - 56) := by
  unfold packDescriptor
  rw [BitVec.getLsbD_cast, BitVec.getLsbD_append, BitVec.getLsbD_append, BitVec.getLsbD_append,
    BitVec.getLsbD_append]
  by_cases h1 : i < 16
  · simp [h1]
  by_cases h2 : i < 32
  · simp [h1, h2, show i - 16 < 16 by omega]
  by_cases h3 : i < 48
  · simp [h1, h2, h3, show ¬ i - 16 < 16 by omega, show i - 16 - 16 < 16 by omega]
  have h16 : ¬ i - 16 < 16 := by omega
  have h32 : ¬ i - 16 - 16 < 16 := by omega
  by_cases h4 : i < 56
  · simp [h1, h2, h3, h4, h16, h32, show i - 16 - 16 - 16 = i - 48 by omega, show i - 48 < 8 by omega]
  · simp [h1, h2, h3, h4, h16, h32, show ¬ i - 16 - 16 - 16 < 8 by omega,
      show i - 16 - 16 - 16 - 8 = i - 56 by omega]

@[simp] theorem op_packDescriptor (op : BitVec 8) (reg : RegNum) (a b : Word16) :
    Descriptor.op (packDescriptor op reg a b) = op := by
  apply BitVec.eq_of_getLsbD_eq
  intro i hi
  simp only [Descriptor.op, BitVec.getLsbD_extractLsb', packDescriptor_getLsbD, hi]
  simp [show ¬ 56 + i < 16 by omega, show ¬ 56 + i < 32 by omega, show ¬ 56 + i < 48 by omega]

@[simp] theorem reg_packDescriptor (op : BitVec 8) (reg : RegNum) (a b : Word16) :
    Descriptor.reg (packDescriptor op reg a b) = reg := by
  apply BitVec.eq_of_getLsbD_eq
  intro i hi
  simp only [Descriptor.reg, BitVec.getLsbD_extractLsb', packDescriptor_getLsbD, hi]
  simp [show ¬ 48 + i < 16 by omega, show ¬ 48 + i < 32 by omega, show 48 + i < 56 by omega]

@[simp] theorem a_packDescriptor (op : BitVec 8) (reg : RegNum) (a b : Word16) :
    Descriptor.a (packDescriptor op reg a b) = a := by
  apply BitVec.eq_of_getLsbD_eq
  intro i hi
  simp only [Descriptor.a, BitVec.getLsbD_extractLsb', packDescriptor_getLsbD, hi]
  simp [show 16 + i < 32 by omega]

@[simp] theorem b_packDescriptor (op : BitVec 8) (reg : RegNum) (a b : Word16) :
    Descriptor.b (packDescriptor op reg a b) = b := by
  apply BitVec.eq_of_getLsbD_eq
  intro i hi
  simp only [Descriptor.b, BitVec.getLsbD_extractLsb', packDescriptor_getLsbD, hi]
  simp [hi]

@[simp] theorem caps_packDescriptor (op : BitVec 8) (reg : RegNum) (a : Word16) (m : BitVec 6) :
    Descriptor.caps (packDescriptor op reg a (m.setWidth 16)) = CapSet.ofMask m := by
  have h : (packDescriptor op reg a (m.setWidth 16)).extractLsb' 0 6 = m := by
    apply BitVec.eq_of_getLsbD_eq
    intro i hi
    simp only [BitVec.getLsbD_extractLsb', packDescriptor_getLsbD, hi]
    simp [show i < 16 by omega]
  simp [Descriptor.caps, h]

@[simp] theorem duplex_packDescriptor (op : BitVec 8) (reg : RegNum) (a : Word16) (m : BitVec 2) :
    Descriptor.duplex (packDescriptor op reg a (m.setWidth 16)) = DuplexArg.ofCode m := by
  have h : (packDescriptor op reg a (m.setWidth 16)).extractLsb' 0 2 = m := by
    apply BitVec.eq_of_getLsbD_eq
    intro i hi
    simp only [BitVec.getLsbD_extractLsb', packDescriptor_getLsbD, hi]
    simp [show i < 16 by omega]
  simp [Descriptor.duplex, h]

@[simp] theorem ofMask_toMask (c : CapSet) : CapSet.ofMask c.toMask = c := by
  obtain ⟨a, b, c, d, e, f⟩ := c
  revert a b c d e f
  decide

@[simp] theorem ofCode_code (c : DuplexArg) : DuplexArg.ofCode c.code = c := by
  cases c <;> rfl

theorem packDescriptor_and (op op' : BitVec 8) (reg reg' : RegNum) (a a' b b' : Word16) :
    packDescriptor op reg a b &&& packDescriptor op' reg' a' b' =
      packDescriptor (op &&& op') (reg &&& reg') (a &&& a') (b &&& b') := by
  apply BitVec.eq_of_getLsbD_eq
  intro i hi
  simp only [BitVec.getLsbD_and, packDescriptor_getLsbD]
  split_ifs <;> simp

/-- The bits of `RSV` are zero in a packed descriptor. -/
theorem packDescriptor_and_rsv (op : BitVec 8) (reg : RegNum) (a b : Word16) :
    packDescriptor op reg a b &&& 0xFFFF00000000#64 = 0#64 := by
  apply BitVec.eq_of_getLsbD_eq
  intro i hi
  have h : (0xFFFF00000000#64).getLsbD i = (decide (32 ≤ i) && decide (i < 48)) := by
    revert i
    decide
  simp only [BitVec.getLsbD_and, packDescriptor_getLsbD, h]
  split_ifs <;> simp <;> omega

/-- A packed descriptor under a mask that takes in `RSV`. -/
theorem packDescriptor_and_mask (op op' : BitVec 8) (reg reg' : RegNum) (a a' b b' : Word16) :
    packDescriptor op reg a b &&& (packDescriptor op' reg' a' b' ||| 0xFFFF00000000#64) =
      packDescriptor (op &&& op') (reg &&& reg') (a &&& a') (b &&& b') := by
  rw [BitVec.and_or_distrib_left, packDescriptor_and, packDescriptor_and_rsv, BitVec.or_zero]

/-- A descriptor whose `RSV` is zero is the packing of its fields. -/
theorem eq_packDescriptor (d : Descriptor) (h : d &&& 0xFFFF00000000#64 = 0#64) :
    d = packDescriptor d.op d.reg d.a d.b := by
  apply BitVec.eq_of_getLsbD_eq
  intro i hi
  rw [packDescriptor_getLsbD]
  have hb := congrArg (fun x => x.getLsbD i) h
  have hm : (0xFFFF00000000#64).getLsbD i = (decide (32 ≤ i) && decide (i < 48)) := by
    clear hb
    revert i
    decide
  simp only [BitVec.getLsbD_and, hm] at hb
  split_ifs with h1 h2 h3 h4
  · simp [Descriptor.b, h1]
  · simp [Descriptor.a, show i - 16 < 16 by omega, show 16 + (i - 16) = i by omega]
  · have h5 : 32 ≤ i := by omega
    simpa [h5, h3] using hb
  · simp [Descriptor.reg, show i - 48 < 8 by omega, show 48 + (i - 48) = i by omega]
  · simp [Descriptor.op, show i - 56 < 8 by omega, show 56 + (i - 56) = i by omega]

@[simp] theorem toMask_ofMask (m : BitVec 6) : (CapSet.ofMask m).toMask = m := by
  revert m
  decide

@[simp] theorem code_ofCode (c : BitVec 2) : (DuplexArg.ofCode c).code = c := by
  revert c
  decide

end Sys2Proof.Laws
end

