-- ==== Sys2Proof/Laws/State.lean ====
section
/-! SUPPORT. What each named update does to each field of the state, true by definition, so that no proof unfolds a
record update. One theorem per update, a conjunct per field, each a simplification rule. -/

namespace Sys2Proof.Machine

@[simp] theorem setTmp_fields (v : Word16) (s : State) :
    (setTmp v s).params = s.params ∧ (setTmp v s).fsm = s.fsm ∧ (setTmp v s).kind = s.kind ∧
    (setTmp v s).phyId = s.phyId ∧ (setTmp v s).busy = s.busy ∧ (setTmp v s).cur = s.cur ∧
    (setTmp v s).upc = s.upc ∧ (setTmp v s).poll = s.poll ∧ (setTmp v s).tmp = v ∧ (setTmp v s).tmp2 = s.tmp2 ∧
    (setTmp v s).result = s.result ∧ (setTmp v s).busHeld = s.busHeld ∧ (setTmp v s).host = s.host ∧
    (setTmp v s).replies = s.replies ∧ (setTmp v s).phy = s.phy ∧
    (setTmp v s).pollTimer = s.pollTimer ∧ (setTmp v s).log = s.log :=
  ⟨rfl, rfl, rfl, rfl, rfl, rfl, rfl, rfl, rfl, rfl, rfl, rfl, rfl, rfl, rfl, rfl, rfl⟩

@[simp] theorem setTmp2_fields (v : Word16) (s : State) :
    (setTmp2 v s).params = s.params ∧ (setTmp2 v s).fsm = s.fsm ∧ (setTmp2 v s).kind = s.kind ∧
    (setTmp2 v s).phyId = s.phyId ∧ (setTmp2 v s).busy = s.busy ∧ (setTmp2 v s).cur = s.cur ∧
    (setTmp2 v s).upc = s.upc ∧ (setTmp2 v s).poll = s.poll ∧ (setTmp2 v s).tmp = s.tmp ∧ (setTmp2 v s).tmp2 = v ∧
    (setTmp2 v s).result = s.result ∧ (setTmp2 v s).busHeld = s.busHeld ∧ (setTmp2 v s).host = s.host ∧
    (setTmp2 v s).replies = s.replies ∧ (setTmp2 v s).phy = s.phy ∧
    (setTmp2 v s).pollTimer = s.pollTimer ∧ (setTmp2 v s).log = s.log :=
  ⟨rfl, rfl, rfl, rfl, rfl, rfl, rfl, rfl, rfl, rfl, rfl, rfl, rfl, rfl, rfl, rfl, rfl⟩

@[simp] theorem setPoll_fields (n : Nat) (s : State) :
    (setPoll n s).params = s.params ∧ (setPoll n s).fsm = s.fsm ∧ (setPoll n s).kind = s.kind ∧
    (setPoll n s).phyId = s.phyId ∧ (setPoll n s).busy = s.busy ∧ (setPoll n s).cur = s.cur ∧
    (setPoll n s).upc = s.upc ∧ (setPoll n s).poll = n ∧ (setPoll n s).tmp = s.tmp ∧ (setPoll n s).tmp2 = s.tmp2 ∧
    (setPoll n s).result = s.result ∧ (setPoll n s).busHeld = s.busHeld ∧ (setPoll n s).host = s.host ∧
    (setPoll n s).replies = s.replies ∧ (setPoll n s).phy = s.phy ∧
    (setPoll n s).pollTimer = s.pollTimer ∧ (setPoll n s).log = s.log :=
  ⟨rfl, rfl, rfl, rfl, rfl, rfl, rfl, rfl, rfl, rfl, rfl, rfl, rfl, rfl, rfl, rfl, rfl⟩

@[simp] theorem countPoll_fields (m : Upc) (s : State) :
    (countPoll m s).params = s.params ∧ (countPoll m s).fsm = s.fsm ∧ (countPoll m s).kind = s.kind ∧
    (countPoll m s).phyId = s.phyId ∧ (countPoll m s).busy = s.busy ∧ (countPoll m s).cur = s.cur ∧
    (countPoll m s).upc = within m s.upc ∧ (countPoll m s).poll = s.poll + 1 ∧ (countPoll m s).tmp = s.tmp ∧
    (countPoll m s).tmp2 = s.tmp2 ∧ (countPoll m s).result = s.result ∧ (countPoll m s).busHeld = s.busHeld ∧
    (countPoll m s).host = s.host ∧ (countPoll m s).replies = s.replies ∧ (countPoll m s).phy = s.phy ∧
    (countPoll m s).pollTimer = s.pollTimer ∧ (countPoll m s).log = s.log :=
  ⟨rfl, rfl, rfl, rfl, rfl, rfl, rfl, rfl, rfl, rfl, rfl, rfl, rfl, rfl, rfl, rfl, rfl⟩

@[simp] theorem setFsm_fields (l : FsmState) (s : State) :
    (setFsm l s).params = s.params ∧ (setFsm l s).fsm = l ∧ (setFsm l s).kind = s.kind ∧
    (setFsm l s).phyId = s.phyId ∧ (setFsm l s).busy = s.busy ∧ (setFsm l s).cur = s.cur ∧
    (setFsm l s).upc = s.upc ∧ (setFsm l s).poll = s.poll ∧ (setFsm l s).tmp = s.tmp ∧ (setFsm l s).tmp2 = s.tmp2 ∧
    (setFsm l s).result = s.result ∧ (setFsm l s).busHeld = s.busHeld ∧ (setFsm l s).host = s.host ∧
    (setFsm l s).replies = s.replies ∧ (setFsm l s).phy = s.phy ∧
    (setFsm l s).pollTimer = s.pollTimer ∧ (setFsm l s).log = s.log :=
  ⟨rfl, rfl, rfl, rfl, rfl, rfl, rfl, rfl, rfl, rfl, rfl, rfl, rfl, rfl, rfl, rfl, rfl⟩

@[simp] theorem unbind_fields (s : State) :
    (unbind s).params = s.params ∧ (unbind s).fsm = .uninitialized ∧ (unbind s).kind = none ∧
    (unbind s).phyId = none ∧ (unbind s).busy = s.busy ∧ (unbind s).cur = s.cur ∧ (unbind s).upc = s.upc ∧
    (unbind s).poll = s.poll ∧ (unbind s).tmp = s.tmp ∧ (unbind s).tmp2 = s.tmp2 ∧ (unbind s).result = s.result ∧
    (unbind s).busHeld = s.busHeld ∧ (unbind s).host = s.host ∧ (unbind s).replies = s.replies ∧
    (unbind s).phy = s.phy ∧ (unbind s).pollTimer = s.pollTimer ∧ (unbind s).log = s.log :=
  ⟨rfl, rfl, rfl, rfl, rfl, rfl, rfl, rfl, rfl, rfl, rfl, rfl, rfl, rfl, rfl, rfl, rfl⟩

@[simp] theorem bindKind_fields (k : DriverKind) (id : Id32) (s : State) :
    (bindKind k id s).params = s.params ∧ (bindKind k id s).fsm = s.fsm ∧ (bindKind k id s).kind = some k ∧
    (bindKind k id s).phyId = some id ∧ (bindKind k id s).busy = s.busy ∧ (bindKind k id s).cur = s.cur ∧
    (bindKind k id s).upc = s.upc ∧ (bindKind k id s).poll = s.poll ∧ (bindKind k id s).tmp = s.tmp ∧
    (bindKind k id s).tmp2 = s.tmp2 ∧ (bindKind k id s).result = s.result ∧ (bindKind k id s).busHeld = s.busHeld ∧
    (bindKind k id s).host = s.host ∧ (bindKind k id s).replies = s.replies ∧ (bindKind k id s).phy = s.phy ∧
    (bindKind k id s).pollTimer = s.pollTimer ∧ (bindKind k id s).log = s.log :=
  ⟨rfl, rfl, rfl, rfl, rfl, rfl, rfl, rfl, rfl, rfl, rfl, rfl, rfl, rfl, rfl, rfl, rfl⟩

@[simp] theorem acceptOp_fields (d : Descriptor) (s : State) :
    (acceptOp d s).params = s.params ∧ (acceptOp d s).fsm = s.fsm ∧ (acceptOp d s).kind = s.kind ∧
    (acceptOp d s).phyId = s.phyId ∧ (acceptOp d s).busy = true ∧ (acceptOp d s).cur = some d ∧
    (acceptOp d s).upc = 0 ∧ (acceptOp d s).poll = s.poll ∧ (acceptOp d s).tmp = s.tmp ∧
    (acceptOp d s).tmp2 = s.tmp2 ∧ (acceptOp d s).result = s.result ∧ (acceptOp d s).busHeld = s.busHeld ∧
    (acceptOp d s).host = s.host ∧ (acceptOp d s).replies = s.replies ∧ (acceptOp d s).phy = s.phy ∧
    (acceptOp d s).pollTimer = s.pollTimer ∧ (acceptOp d s).log = .accept d :: s.log :=
  ⟨rfl, rfl, rfl, rfl, rfl, rfl, rfl, rfl, rfl, rfl, rfl, rfl, rfl, rfl, rfl, rfl, rfl⟩

@[simp] theorem finish_fields (r : Result) (s : State) :
    (finish r s).params = s.params ∧ (finish r s).fsm = s.fsm ∧ (finish r s).kind = s.kind ∧
    (finish r s).phyId = s.phyId ∧ (finish r s).busy = false ∧ (finish r s).cur = none ∧ (finish r s).upc = s.upc ∧
    (finish r s).poll = s.poll ∧ (finish r s).tmp = s.tmp ∧ (finish r s).tmp2 = s.tmp2 ∧
    (finish r s).result = some r ∧ (finish r s).busHeld = false ∧ (finish r s).host = s.host ∧
    (finish r s).replies = s.replies ∧ (finish r s).phy = s.phy ∧
    (finish r s).pollTimer = .idle ∧ (finish r s).log = .done r :: s.log :=
  ⟨rfl, rfl, rfl, rfl, rfl, rfl, rfl, rfl, rfl, rfl, rfl, rfl, rfl, rfl, rfl, rfl, rfl⟩

@[simp] theorem transacted_fields (e : Event) (y : Phy) (s : State) :
    (transacted e y s).params = s.params ∧ (transacted e y s).fsm = s.fsm ∧ (transacted e y s).kind = s.kind ∧
    (transacted e y s).phyId = s.phyId ∧ (transacted e y s).busy = s.busy ∧ (transacted e y s).cur = s.cur ∧
    (transacted e y s).upc = s.upc ∧ (transacted e y s).poll = s.poll ∧ (transacted e y s).tmp = s.tmp ∧
    (transacted e y s).tmp2 = s.tmp2 ∧ (transacted e y s).result = s.result ∧ (transacted e y s).busHeld = true ∧
    (transacted e y s).host = s.host ∧ (transacted e y s).replies = s.replies ∧ (transacted e y s).phy = y ∧
    (transacted e y s).pollTimer = .idle ∧ (transacted e y s).log = e :: s.log :=
  ⟨rfl, rfl, rfl, rfl, rfl, rfl, rfl, rfl, rfl, rfl, rfl, rfl, rfl, rfl, rfl, rfl, rfl⟩

@[simp] theorem unanswered_fields (y : Phy) (s : State) :
    (unanswered y s).params = s.params ∧ (unanswered y s).fsm = s.fsm ∧ (unanswered y s).kind = s.kind ∧
    (unanswered y s).phyId = s.phyId ∧ (unanswered y s).busy = s.busy ∧ (unanswered y s).cur = s.cur ∧
    (unanswered y s).upc = s.upc ∧ (unanswered y s).poll = s.poll ∧ (unanswered y s).tmp = s.tmp ∧
    (unanswered y s).tmp2 = s.tmp2 ∧ (unanswered y s).result = s.result ∧ (unanswered y s).busHeld = s.busHeld ∧
    (unanswered y s).host = s.host ∧ (unanswered y s).replies = s.replies ∧ (unanswered y s).phy = y ∧
    (unanswered y s).pollTimer = s.pollTimer ∧ (unanswered y s).log = s.log :=
  ⟨rfl, rfl, rfl, rfl, rfl, rfl, rfl, rfl, rfl, rfl, rfl, rfl, rfl, rfl, rfl, rfl, rfl⟩

@[simp] theorem advance_fields (s : State) :
    (advance s).params = s.params ∧ (advance s).fsm = s.fsm ∧ (advance s).kind = s.kind ∧
    (advance s).phyId = s.phyId ∧ (advance s).busy = s.busy ∧ (advance s).cur = s.cur ∧
    (advance s).upc = countUp s.upc ∧ (advance s).poll = s.poll ∧ (advance s).tmp = s.tmp ∧
    (advance s).tmp2 = s.tmp2 ∧ (advance s).result = s.result ∧ (advance s).busHeld = s.busHeld ∧
    (advance s).host = s.host ∧ (advance s).replies = s.replies ∧ (advance s).phy = s.phy ∧
    (advance s).pollTimer = s.pollTimer ∧ (advance s).log = s.log :=
  ⟨rfl, rfl, rfl, rfl, rfl, rfl, rfl, rfl, rfl, rfl, rfl, rfl, rfl, rfl, rfl, rfl, rfl⟩

@[simp] theorem pollWait_fields (s : State) :
    (pollWait s).params = s.params ∧ (pollWait s).fsm = s.fsm ∧ (pollWait s).kind = s.kind ∧
    (pollWait s).phyId = s.phyId ∧ (pollWait s).busy = s.busy ∧ (pollWait s).cur = s.cur ∧
    (pollWait s).upc = countUp s.upc ∧ (pollWait s).poll = s.poll ∧ (pollWait s).tmp = s.tmp ∧
    (pollWait s).tmp2 = s.tmp2 ∧ (pollWait s).result = s.result ∧ (pollWait s).busHeld = s.busHeld ∧
    (pollWait s).host = s.host ∧ (pollWait s).replies = s.replies ∧ (pollWait s).phy = s.phy ∧
    (pollWait s).pollTimer = .waitEnded ∧ (pollWait s).log = .wait s.params.tPollMs :: s.log :=
  ⟨rfl, rfl, rfl, rfl, rfl, rfl, rfl, rfl, rfl, rfl, rfl, rfl, rfl, rfl, rfl, rfl, rfl⟩

@[simp] theorem setHost_fields (l : List HostEvent) (s : State) :
    (setHost l s).params = s.params ∧ (setHost l s).fsm = s.fsm ∧ (setHost l s).kind = s.kind ∧
    (setHost l s).phyId = s.phyId ∧ (setHost l s).busy = s.busy ∧ (setHost l s).cur = s.cur ∧
    (setHost l s).upc = s.upc ∧ (setHost l s).poll = s.poll ∧ (setHost l s).tmp = s.tmp ∧
    (setHost l s).tmp2 = s.tmp2 ∧ (setHost l s).result = s.result ∧ (setHost l s).busHeld = s.busHeld ∧
    (setHost l s).host = l ∧ (setHost l s).replies = s.replies ∧ (setHost l s).phy = s.phy ∧
    (setHost l s).pollTimer = s.pollTimer ∧ (setHost l s).log = s.log :=
  ⟨rfl, rfl, rfl, rfl, rfl, rfl, rfl, rfl, rfl, rfl, rfl, rfl, rfl, rfl, rfl, rfl, rfl⟩

@[simp] theorem succeed_eq_finish (v : Value) (s : State) : succeed v s = finish (.ok v) s := rfl

@[simp] theorem raise_eq_finish (c : ErrCode) (s : State) : raise c s = finish (.err c) s := rfl

@[simp] theorem afterRead_eq_transacted (reg : RegNum) (a : ReadAnswer) (s : State) :
    afterRead reg a s = transacted (.read s.params.phyDevAddr reg a) (readPhy reg s) s := rfl

@[simp] theorem afterWrite_eq_transacted (reg : RegNum) (v : Word16) (a : WriteAnswer) (s : State) :
    afterWrite reg v a s =
      transacted (.write s.params.phyDevAddr reg (toWire s.params v) a) (writePhy reg v s) s := rfl

end Sys2Proof.Machine
end

