-- ==== Sys2Proof/Laws/Ops.lean ====
section
/-! SUPPORT. What each shared operation can do, said once: the bus primitives, the poll loop, the need for a binding,
and the decision a step makes. Proofs cite these instead of unfolding. -/

namespace Sys2Proof.Machine

/-- A bus read: one case per answer (20_memory.md R54, R155). -/
theorem busRead_cases (reg : RegNum) (k : Word16 → State → State) (s : State) :
    (∃ w, readAnswer reg s = .ack w ∧
      busRead reg k s = k (fromWire s.params w) (advance (afterRead reg (.ack w) s))) ∨
    (readAnswer reg s = .noDevice ∧ busRead reg k s = raise .phyNotFoundNoDevice (afterRead reg .noDevice s)) ∨
    (readAnswer reg s = .busError ∧ busRead reg k s = raise .phyAccessBus (afterRead reg .busError s)) ∨
    (readAnswer reg s = .silent ∧ busRead reg k s = unanswered (readPhy reg s) s) := by
  unfold busRead
  cases h : readAnswer reg s <;> simp

/-- A bus write: one case per answer (20_memory.md R55, R155). -/
theorem busWrite_cases (reg : RegNum) (v : Word16) (k : State → State) (s : State) :
    (writeAnswer reg v s = .ack ∧ busWrite reg v k s = k (advance (afterWrite reg v .ack s))) ∨
    (writeAnswer reg v s = .noDevice ∧
      busWrite reg v k s = raise .phyNotFoundNoDevice (afterWrite reg v .noDevice s)) ∨
    (writeAnswer reg v s = .busError ∧ busWrite reg v k s = raise .phyAccessBus (afterWrite reg v .busError s)) ∨
    (writeAnswer reg v s = .silent ∧ busWrite reg v k s = unanswered (writePhy reg v s) s) := by
  unfold busWrite
  cases h : writeAnswer reg v s <;> simp

/-- The four answers to a bus read, each as a rewriting. -/
theorem busRead_ack {reg : RegNum} {s : State} {w : Word16} (h : readAnswer reg s = .ack w)
    (k : Word16 → State → State) :
    busRead reg k s = k (fromWire s.params w) (advance (afterRead reg (.ack w) s)) := by
  simp only [busRead, h]

theorem busRead_noDevice {reg : RegNum} {s : State} (h : readAnswer reg s = .noDevice)
    (k : Word16 → State → State) : busRead reg k s = raise .phyNotFoundNoDevice (afterRead reg .noDevice s) := by
  simp only [busRead, h]

theorem busRead_busError {reg : RegNum} {s : State} (h : readAnswer reg s = .busError)
    (k : Word16 → State → State) : busRead reg k s = raise .phyAccessBus (afterRead reg .busError s) := by
  simp only [busRead, h]

theorem busRead_silent {reg : RegNum} {s : State} (h : readAnswer reg s = .silent)
    (k : Word16 → State → State) : busRead reg k s = unanswered (readPhy reg s) s := by
  simp only [busRead, h]

/-- The four answers to a bus write, each as a rewriting. -/
theorem busWrite_ack {reg : RegNum} {v : Word16} {s : State} (h : writeAnswer reg v s = .ack) (k : State → State) :
    busWrite reg v k s = k (advance (afterWrite reg v .ack s)) := by
  simp only [busWrite, h]

theorem busWrite_noDevice {reg : RegNum} {v : Word16} {s : State} (h : writeAnswer reg v s = .noDevice)
    (k : State → State) : busWrite reg v k s = raise .phyNotFoundNoDevice (afterWrite reg v .noDevice s) := by
  simp only [busWrite, h]

theorem busWrite_busError {reg : RegNum} {v : Word16} {s : State} (h : writeAnswer reg v s = .busError)
    (k : State → State) : busWrite reg v k s = raise .phyAccessBus (afterWrite reg v .busError s) := by
  simp only [busWrite, h]

theorem busWrite_silent {reg : RegNum} {v : Word16} {s : State} (h : writeAnswer reg v s = .silent)
    (k : State → State) : busWrite reg v k s = unanswered (writePhy reg v s) s := by
  simp only [busWrite, h]

/-- Counting up, as numbers: one more below 63, else the same. -/
theorem countUp_val (u : Upc) : (countUp u).val = if u.val < 63 then u.val + 1 else u.val := by
  unfold countUp
  split <;> rfl

/-- The room `upc` has, as numbers: the smaller of the two. -/
theorem within_val (room u : Upc) : (within room u).val = min u.val room.val := by
  unfold within
  split
  · next h => exact (Nat.min_eq_right (Nat.le_of_lt h)).symm
  · next h => exact (Nat.min_eq_left (Nat.le_of_not_lt h)).symm

/-- The two ways of each test of the poll loop, as rewritings. -/
theorem pollHead_again {s : State} (h : s.poll < s.params.nPoll) : pollHead s = s :=
  if_pos h

theorem pollHead_timeout {s : State} (h : s.params.nPoll ≤ s.poll) : pollHead s = raise .phyAccessResetTimeout s :=
  if_neg (Nat.not_lt.mpr h)

theorem pollCheck_clear {t : KindTable} {done : State → State} {s : State}
    (h : s.tmp &&& t.ctrlReset = 0#16) : pollCheck t done s = done s :=
  if_pos h

theorem pollCheck_set {t : KindTable} {done : State → State} {s : State}
    (h : s.tmp &&& t.ctrlReset ≠ 0#16) : pollCheck t done s = pollHead s :=
  if_neg h

/-- The reset bit of a register value is bit 15 (10_state.md R33). -/
theorem and_reset_eq_zero (v : Word16) : v &&& 0x8000#16 = 0#16 ↔ v.getLsbD 15 = false := by
  constructor
  · intro h
    have := congrArg (fun x => x.getLsbD 15) h
    rw [BitVec.getLsbD_and] at this
    simpa using this
  · intro h
    apply BitVec.eq_of_getLsbD_eq
    intro i hi
    have hm : (0x8000#16).getLsbD i = decide (i = 15) := by
      clear h
      revert i
      decide
    rw [BitVec.getLsbD_and, hm]
    by_cases h15 : i = 15
    · subst h15
      rw [h]
      rfl
    · simp [h15]

/-- The head of the poll loop: another wait, or the timeout (41_driver.md R108). -/
theorem pollHead_cases (s : State) :
    (s.poll < s.params.nPoll ∧ pollHead s = s) ∨
    (s.params.nPoll ≤ s.poll ∧ pollHead s = raise .phyAccessResetTimeout s) := by
  unfold pollHead
  split <;> simp <;> omega

/-- After a poll read: the sequence returns, or the loop goes on (R108). -/
theorem pollCheck_cases (t : KindTable) (done : State → State) (s : State) :
    (s.tmp &&& t.ctrlReset = 0#16 ∧ pollCheck t done s = done s) ∨
    (s.tmp &&& t.ctrlReset ≠ 0#16 ∧ pollCheck t done s = pollHead s) := by
  unfold pollCheck
  split <;> simp [*]

/-- A driver operation without a binding (41_driver.md R99). -/
theorem driver_unbound {s : State} (h : s.kind = none) (f : KindTable → Out) :
    driver s f = .next (raise .notBound s) := by
  simp [driver, h]

/-- A driver operation with one: it runs with its kind's table (R98). -/
theorem driver_bound {s : State} {k : DriverKind} (h : s.kind = some k) (f : KindTable → Out) :
    driver s f = f (kindTable s.params k) := by
  simp [driver, h]

/-- The link-status decoder answers a status or `DecodeFault`, nothing else (40_codec.md R93). -/
theorem decodeLinkStatus_error {p : Params} {s : Word16} {c : ErrCode} (h : decodeLinkStatus p s = .error c) :
    c = .decodeFault := by
  unfold decodeLinkStatus at h
  split at h <;> split at h <;> simp_all

/-- A step with a well-formed parameter set is the host's or the controller's. -/
theorem step_wellFormed {s : State} (h : s.params.WellFormed) : step s = hostStep s := by
  unfold step stepOnce
  rw [h]

end Sys2Proof.Machine
end

