-- ==== Sys2Proof/Laws/Line.lean ====
section
/-! SUPPORT. Where a micro-step takes the controller in its listing, and what it counts: outside the poll loops one line
on, through a loop as 41_driver.md R108 has it. -/

namespace Sys2Proof.Machine

/-- Line `p` is in no poll loop of operation `i`, and not just past one. -/
abbrev OutsidePoll (i : Instr) (p : Nat) : Prop := ∀ b ∈ resetBases i, p < b + 2 ∨ b + 4 < p

/-- The state after a poll read, of the soft reset from line `base` on, that returned `v`. -/
def polled (i : Instr) (base : Nat) (v : Word16) (u : State) : State := countPoll (roomOf i base) (setTmp v u)

theorem OutsidePoll.polling {i : Instr} {p : Nat} (h : OutsidePoll i p) : polling i p = false := by
  unfold Machine.polling
  rw [List.any_eq_false]
  intro b hb
  have := h b hb
  simp
  omega

/-- The line before one outside every poll loop is no wait and no poll read. -/
theorem OutsidePoll.polling_prev {i : Instr} {p : Nat} (h : OutsidePoll i (p + 1)) : Machine.polling i p = false := by
  unfold Machine.polling
  rw [List.any_eq_false]
  intro b hb
  have := h b hb
  simp
  omega

/-- A soft reset's wait and poll read are lines of the operation's listing; the write before them is no poll. -/
theorem polling_loop {i : Instr} {base : Nat} (h : base ∈ resetBases i) :
    polling i (base + 1) = false ∧ polling i (base + 2) = true ∧ polling i (base + 3) = true ∧
      base + 3 < seqLength i := by
  cases i <;> simp [resetBases] at h
  · rcases h with rfl | rfl <;> decide
  · subst h
    decide
  · subst h
    simp [polling, resetBases, seqLength]

/-! ### The next line -/

/-- The three operations whose listing has poll loops. -/
theorem resetBases_cases {i : Instr} {base : Nat} (h : base ∈ resetBases i) :
    (i = .enableSgmii ∧ (base = 2 ∨ base = 12)) ∨ (i = .softReset ∧ base = 0) ∨
      ∃ caps, i = .setAutonegCaps caps ∧ base = 6 := by
  cases i <;> simp_all [resetBases]

/-! ### The count of transactions and waits -/

/-- Acceptance starts the count anew. -/
@[simp] theorem doneSinceAccept_accept (d : Descriptor) (l : List Event) : doneSinceAccept (.accept d :: l) = 0 := by
  simp [doneSinceAccept, Event.isAccept]

/-- A transaction or a wait adds one. -/
theorem doneSinceAccept_counted {e : Event} (h : e.counts = true) (l : List Event) :
    doneSinceAccept (e :: l) = doneSinceAccept l + 1 := by
  have : e.isAccept = false := by
    cases e <;> simp_all [Event.counts, Event.isAccept, Event.isTransaction, Event.isWait]
  simp [doneSinceAccept, this, h]

/-- A transaction or a wait is counted, while R23's range has room. -/
theorem Counted.next {s u : State} {e : Event} (h : Counted s) (hr : s.upc.val < 63) (hu : u.upc = countUp s.upc)
    (hl : u.log = e :: s.log) (he : e.counts = true) : Counted u := by
  unfold Counted at *
  rw [hu, hl, doneSinceAccept_counted he, countUp_val, if_pos hr, h]

theorem resetLine_next {base : Nat} {s u : State} (hb : base = 0 ∨ base = 6) (hl : resetLine base s < base + 3)
    (hu : u.upc = countUp s.upc) : resetLine base u = resetLine base s + 1 := by
  have hv := countUp_val s.upc
  have := s.upc.isLt
  rw [← hu] at hv
  unfold resetLine at *
  split_ifs at * <;> omega

/-! ENABLE_SGMII's line, as numbers. -/

/-- What being at line `l` says of the index. -/
theorem index_of_sgmiiLine {u polls l : Nat} {clear waited : Bool} (h : sgmiiLineOf u polls clear waited = l) :
    (l < 4 ∧ u = l) ∨ ((l = 4 ∨ l = 6 ∧ polls ≠ 0) ∧ u = 4 + 2 * min polls 25) ∨
      ((l = 5 ∨ l = 7) ∧ u = 5 + 2 * min polls 25) ∨ (8 ≤ l ∧ l ≤ 13 ∧ u + 2 = l + 2 * min polls 25) ∨
      (14 ≤ l ∧ l ≤ 15 ∧ 12 + 2 * min polls 25 ≤ u ∧ u % 2 = l % 2) ∨ l = 16 := by
  unfold sgmiiLineOf at h
  split_ifs at h <;> omega

/-- One on, outside the poll loops and the writes that they follow. -/
theorem sgmiiLineOf_next {u polls l : Nat} {clear waited : Bool} (clear' : Bool)
    (h : sgmiiLineOf u polls clear waited = l) (hl : l < 3 ∨ 5 < l ∧ l < 13) :
    u < 63 ∧ sgmiiLineOf (u + 1) polls clear' false = l + 1 := by
  have hi := index_of_sgmiiLine h
  clear h
  refine ⟨by omega, ?_⟩
  unfold sgmiiLineOf
  split_ifs <;> first | omega | contradiction

/-- The write that sets the reset bit. -/
theorem sgmiiLineOf_enter {u polls l : Nat} {clear waited : Bool} (clear' waited' : Bool)
    (h : sgmiiLineOf u polls clear waited = l) (hl : l = 3 ∨ l = 13) :
    u < 63 ∧ sgmiiLineOf (u + 1) 0 clear' waited' = l + 1 := by
  have hi := index_of_sgmiiLine h
  clear h
  refine ⟨by omega, ?_⟩
  unfold sgmiiLineOf
  split_ifs <;> omega

/-- The wait. -/
theorem sgmiiLineOf_wait {u polls l : Nat} {clear waited : Bool} (clear' : Bool) (hu : u < 64)
    (h : sgmiiLineOf u polls clear waited = l) (hl : l = 4 ∨ l = 14) :
    u < 63 ∧ sgmiiLineOf (u + 1) polls clear' true = l + 1 := by
  have hi := index_of_sgmiiLine h
  clear h
  refine ⟨by omega, ?_⟩
  unfold sgmiiLineOf
  split_ifs <;> first | omega | contradiction

/-- The poll read of the first soft reset. -/
theorem sgmiiLineOf_first {u polls : Nat} {clear waited : Bool} (clear' waited' : Bool)
    (h : sgmiiLineOf u polls clear waited = 5) :
    sgmiiLineOf (min (u + 1) 54) (polls + 1) clear' waited' = if clear' = true then 6 else 4 := by
  have hi := index_of_sgmiiLine h
  rw [show min (u + 1) 54 = 4 + 2 * min (polls + 1) 25 by omega]
  unfold sgmiiLineOf
  cases clear' <;> simp

/-- The second one's, where the bit is still set. -/
theorem sgmiiLineOf_second {u polls : Nat} {clear waited : Bool} (clear' waited' : Bool) (hu : u < 64)
    (h : sgmiiLineOf u polls clear waited = 15) :
    sgmiiLineOf (min (if u < 63 then u + 1 else u) 62) (polls + 1) clear' waited' = 14 := by
  have hi := index_of_sgmiiLine h
  have h2 : 12 + 2 * min (polls + 1) 25 ≤ min (if u < 63 then u + 1 else u) 62 ∧
      min (if u < 63 then u + 1 else u) 62 % 2 = 0 := by
    split_ifs <;> omega
  generalize min (if u < 63 then u + 1 else u) 62 = w at *
  clear h hi
  unfold sgmiiLineOf
  split_ifs <;> omega

/-! ### The next line, of any operation -/

/-- The host's events and IDENTIFY's clearing leave the line where it is. -/
theorem line_setHost (i : Instr) (h : List HostEvent) (s : State) : line i (setHost h s) = line i s := by
  cases i <;> rfl

theorem line_cleared (i : Instr) (s : State) : line i (cleared i s) = line i s := by
  unfold cleared
  split
  · next h => rw [h.1]; rfl
  · rfl

/-- Outside the poll loops a transaction takes the controller one line on. -/
theorem line_next {i : Instr} {s u : State} (hl : line i s + 1 < seqLength i) (ho : OutsidePoll i (line i s + 1))
    (hu : u.upc = countUp s.upc) (hp : u.poll = s.poll) (ht : u.pollTimer = .idle) : line i u = line i s + 1 := by
  have hv := countUp_val s.upc
  rw [← hu] at hv
  cases i with
  | enableSgmii =>
    have h2 := ho 2 (by simp [resetBases])
    have h12 := ho 12 (by simp [resetBases])
    simp only [seqLength] at hl
    simp only [line, sgmiiLine] at *
    rw [hp, hv, ht]
    generalize hl0 : sgmiiLineOf s.upc.val _ _ _ = l at *
    have := sgmiiLineOf_next (u.tmp &&& (kindTable u.params .kModeled).ctrlReset == 0#16) hl0 (by omega)
    rw [if_pos this.1]
    exact this.2
  | softReset =>
    have h0 := ho 0 (by simp [resetBases])
    simp only [seqLength] at hl
    exact resetLine_next (.inl rfl) (by simp only [line] at *; omega) hu
  | setAutonegCaps caps =>
    have h6 := ho 6 (by simp [resetBases])
    simp only [seqLength] at hl
    exact resetLine_next (.inr rfl) (by simp only [line] at *; omega) hu
  | _ =>
    simp only [line, seqLength] at *
    split_ifs at hv <;> omega

/-- The write that sets the reset bit takes the controller to the first wait. -/
theorem line_enter {i : Instr} {base : Nat} {s u : State} (hb : base ∈ resetBases i) (hs : line i s = base + 1)
    (hu : u.upc = countUp s.upc) : line i (setPoll 0 u) = base + 2 := by
  have hv := countUp_val s.upc
  rw [← hu] at hv
  rcases resetBases_cases hb with ⟨rfl, h⟩ | ⟨rfl, rfl⟩ | ⟨caps, rfl, rfl⟩
  · simp only [line, sgmiiLine, setPoll_fields] at *
    have := sgmiiLineOf_enter (u.tmp &&& (kindTable u.params .kModeled).ctrlReset == 0#16) (u.pollTimer == .waitEnded)
      hs (by omega)
    rw [hv, if_pos this.1, this.2]
  · rw [show line .softReset (setPoll 0 u) = line .softReset s + 1 from
      resetLine_next (.inl rfl) (by simp only [line] at hs; omega) hu, hs]
  · rw [show line (.setAutonegCaps caps) (setPoll 0 u) = line (.setAutonegCaps caps) s + 1 from
      resetLine_next (.inr rfl) (by simp only [line] at hs; omega) hu, hs]

/-- The wait takes it to the poll read. -/
theorem line_wait {i : Instr} {base : Nat} {s : State} (hb : base ∈ resetBases i) (hs : line i s = base + 2) :
    line i (pollWait s) = base + 3 := by
  have hv := countUp_val s.upc
  rcases resetBases_cases hb with ⟨rfl, h⟩ | ⟨rfl, rfl⟩ | ⟨caps, rfl, rfl⟩
  · simp only [line, sgmiiLine, pollWait_fields] at *
    have := sgmiiLineOf_wait (s.tmp &&& (kindTable s.params .kModeled).ctrlReset == 0#16) s.upc.isLt hs (by omega)
    rw [hv, if_pos this.1]
    exact this.2
  · rw [show line .softReset (pollWait s) = line .softReset s + 1 from
      resetLine_next (.inl rfl) (by simp only [line] at hs; omega) (by simp), hs]
  · rw [show line (.setAutonegCaps caps) (pollWait s) = line (.setAutonegCaps caps) s + 1 from
      resetLine_next (.inr rfl) (by simp only [line] at hs; omega) (by simp), hs]

/-- Where `upc` is when ENABLE_SGMII's first soft reset does a poll read. -/
theorem firstPoll_upc {s : State} (h : line .enableSgmii s = 5) : s.upc.val = 5 + 2 * min s.poll 25 := by
  have := index_of_sgmiiLine (show sgmiiLineOf _ _ _ _ = 5 from h)
  omega

/-- A poll read of ENABLE_SGMII's first soft reset: back to the wait, or on to the auto-negotiation setup. -/
theorem line_firstPoll {v : Word16} {s x : State} (h : line .enableSgmii s = 5)
    (hu : x.upc = polledUpc .enableSgmii 2 s.upc) (hp : x.poll = s.poll + 1) (ht : x.tmp = v) :
    line .enableSgmii x = if v &&& 0x8000#16 = 0#16 then 6 else 4 := by
  have hi := firstPoll_upc h
  have hc := countUp_val s.upc
  rw [if_pos (by omega)] at hc
  have hw := within_val 54 (countUp s.upc)
  rw [show ((54 : Upc)).val = 54 from rfl, hc] at hw
  show sgmiiLineOf x.upc.val x.poll (x.tmp &&& 0x8000#16 == 0#16) (x.pollTimer == .waitEnded) = _
  rw [hu, show polledUpc .enableSgmii 2 s.upc = within 54 (countUp s.upc) from rfl, hw, hp, ht,
    sgmiiLineOf_first _ _ h]
  simp

/-- A poll read that sees the reset bit set takes a soft reset back to the wait. -/
theorem line_again {i : Instr} {base : Nat} {v : Word16} {s x : State} (hb : base ∈ resetBases i)
    (hs : line i s = base + 3) (hu : x.upc = polledUpc i base s.upc) (hp : x.poll = s.poll + 1) (ht : x.tmp = v)
    (hv : v &&& 0x8000#16 ≠ 0#16) : line i x = base + 2 := by
  by_cases hf : i = .enableSgmii ∧ base = 2
  · obtain ⟨rfl, rfl⟩ := hf
    rw [line_firstPoll hs hu hp ht, if_neg hv]
  · have hc := countUp_val s.upc
    have hlt := s.upc.isLt
    have hw := within_val 62 (countUp s.upc)
    rw [show ((62 : Upc)).val = 62 from rfl] at hw
    rw [polledUpc, roomOf, if_neg hf] at hu
    rw [← hu] at hw
    rcases resetBases_cases hb with ⟨rfl, rfl | rfl⟩ | ⟨rfl, rfl⟩ | ⟨caps, rfl, rfl⟩
    · simp at hf
    · simp only [line, sgmiiLine] at *
      rw [hw, hp, hc]
      exact sgmiiLineOf_second _ _ hlt hs
    · simp only [line, resetLine] at *
      split_ifs at * <;> omega
    · simp only [line, resetLine] at *
      split_ifs at * <;> omega

/-- Outside the poll loops the bound moves with the line. -/
theorem doneMost_line {i : Instr} {n line poll : Nat} (h : OutsidePoll i (line + 1)) :
    doneMost i n line poll + 1 ≤ doneMost i n (line + 1) poll := by
  unfold doneMost
  rw [h.polling_prev, h.polling]
  by_cases he : i = .enableSgmii
  · simp only [he, true_and]
    split_ifs <;> simp_all
    omega
  · simp [he]

/-- Through a poll loop: one more at the poll read, two more for the next poll; entered with `poll` at 0. -/
theorem doneMost_loop {i : Instr} {base n poll : Nat} (h : base ∈ resetBases i) :
    doneMost i n (base + 3) poll = doneMost i n (base + 2) poll + 1 ∧
      doneMost i n (base + 2) (poll + 1) = doneMost i n (base + 2) poll + 2 ∧
      doneMost i n (base + 1) poll + 1 = doneMost i n (base + 2) 0 := by
  have hp := polling_loop h
  have he : (i = .enableSgmii ∧ 6 ≤ base + 3 ↔ i = .enableSgmii ∧ 6 ≤ base + 2) ∧
      (i = .enableSgmii ∧ 6 ≤ base + 1 ↔ i = .enableSgmii ∧ 6 ≤ base + 2) := by
    cases i <;> simp [resetBases] at h <;> simp
    omega
  unfold doneMost
  simp only [hp, he.1, he.2, if_true]
  simp
  omega

/-- A parameter set that passes R10 has a poll budget. -/
theorem Params.WellFormed.nPoll_pos {p : Params} (h : p.WellFormed) : 0 < p.nPoll := by
  unfold Params.WellFormed Params.problem at h
  by_contra hc
  rw [show p.nPoll = 0 by omega] at h
  split at h <;> simp at h

end Sys2Proof.Machine
end

