-- ==== Sys2Proof/Laws/Exec.lean ====
section
/-! SUPPORT. Everything one micro-step can do, said once: `exec_cases`. What follows an acknowledged read or write is
one of `ReadEnd` or `WriteEnd`; where it takes the controller is Laws/Line.lean. Proofs about all operations cite this
instead of unfolding `exec`. -/

namespace Sys2Proof.Machine

/-- What can follow an acknowledged read of the register value `v` at line `l` of operation `i`, from the state `u` in
which it is counted. -/
inductive ReadEnd (i : Instr) (l : Nat) (v : Word16) (u : State) : State → Prop where
  /-- The value is kept in `tmp` and more micro-steps follow. -/
  | kept (hl : l + 1 < seqLength i) (hp : OutsidePoll i (l + 1)) : ReadEnd i l v u (setTmp v u)
  /-- The reset bit is still set and polls are left. -/
  | again (base : Nat) (hb : base ∈ resetBases i) (hl : l = base + 3) (hv : v &&& 0x8000#16 ≠ 0#16)
      (hn : u.poll + 1 < u.params.nPoll) : ReadEnd i l v u (polled i base v u)
  /-- The reset bit is still set after the last poll. -/
  | timeout (base : Nat) (hb : base ∈ resetBases i) (hl : l = base + 3) (hv : v &&& 0x8000#16 ≠ 0#16)
      (hn : u.params.nPoll ≤ u.poll + 1) : ReadEnd i l v u (finish (.err .phyAccessResetTimeout) (polled i base v u))
  /-- ENABLE_SGMII's first soft reset is done. -/
  | probed (hi : i = .enableSgmii) (hl : l = 5) (hv : v &&& 0x8000#16 = 0#16) :
      ReadEnd i l v u (setFsm .sgmiiProbed (polled i 2 v u))
  /-- The soft reset that commits an auto-negotiation setup is done. -/
  | committed (hi : i = .enableSgmii ∨ ∃ caps, i = .setAutonegCaps caps) (base : Nat) (hb : base ∈ resetBases i)
      (hl : l = base + 3) (hv : v &&& 0x8000#16 = 0#16) :
      ReadEnd i l v u (finish (.ok .unit) (setFsm .autonegConfigured (polled i base v u)))
  /-- SOFT_RESET is done. -/
  | reset (hi : i = .softReset) (base : Nat) (hb : base ∈ resetBases i) (hl : l = base + 3)
      (hv : v &&& 0x8000#16 = 0#16) : ReadEnd i l v u (finish (.ok .unit) (polled i base v u))
  /-- IDENTIFY has both halves of the ID. -/
  | identified (hi : i = .identify) : ReadEnd i l v u (identifyMatch (setTmp2 v u))
  /-- GET_LP_CAPS has both registers. -/
  | partner (hi : i = .getLpCaps) (c : CapSet) : ReadEnd i l v u (finish (.ok (.caps c)) (setTmp2 v u))
  /-- GET_LINK_STATUS has the status. -/
  | link (hi : i = .getLinkStatus) : ReadEnd i l v u (linkResult (setTmp v u))
  /-- BUS_READ has the register. -/
  | word (reg : RegNum) (hi : i = .busRead reg) : ReadEnd i l v u (finish (.ok (.word v)) (setTmp v u))

/-- What can follow an acknowledged write at line `l` of operation `i`, from the state `u` in which it is counted. -/
inductive WriteEnd (i : Instr) (l : Nat) (u : State) : State → Prop where
  /-- More micro-steps follow. -/
  | more (hl : l + 1 < seqLength i) (hp : OutsidePoll i (l + 1)) : WriteEnd i l u u
  /-- The reset bit is written and polling begins. -/
  | poll (base : Nat) (hb : base ∈ resetBases i) (hl : l = base + 1) (hn : 0 < u.params.nPoll) :
      WriteEnd i l u (setPoll 0 u)
  /-- No poll is allowed: only with an ill-formed parameter set. -/
  | timeout (hb : resetBases i ≠ []) (hn : u.params.nPoll = 0) :
      WriteEnd i l u (finish (.err .phyAccessResetTimeout) (setPoll 0 u))
  /-- SET_SPEED_DUPLEX is done. -/
  | forced (speed : Word16) (duplex : DuplexArg) (hi : i = .setSpeedDuplex speed duplex) :
      WriteEnd i l u (finish (.ok .unit) (setFsm .forcedConfigured u))
  /-- BUS_WRITE is done. -/
  | written (reg : RegNum) (value : Word16) (hi : i = .busWrite reg value) : WriteEnd i l u (finish (.ok .unit) u)

/-- The results an internal step can end with. -/
inductive InternalEnd (p : Params) : Instr → Result → Prop where
  | capable : InternalEnd p .isSgmiiCapable (.ok (.flag true))
  | speed (speed : Word16) (duplex : DuplexArg) :
      InternalEnd p (.setSpeedDuplex speed duplex) (.err .unsupportedSpeed)
  | advBits (caps : CapSet) (a g : Word16) : InternalEnd p (.encAdv caps) (.ok (.advBits a g))
  | caps (a g : Word16) (c : CapSet) : InternalEnd p (.decLpCaps a g) (.ok (.caps c))
  | link (b : Word16) (ls : LinkStatus) (h : decodeLinkStatus p b = .ok ls) :
      InternalEnd p (.decLinkStatus b) (.ok (.link ls))
  | decodeFault (b : Word16) : InternalEnd p (.decLinkStatus b) (.err .decodeFault)

/-- The answers `exec i s` can give. -/
inductive ExecCase (i : Instr) (s : State) : Out → Prop where
  | unbound (hd : isDriverOp i = true) (hk : s.kind = none) : ExecCase i s (.next (finish (.err .notBound) s))
  | read (reg : RegNum) (k : Word16 → State → State) (hb : isDriverOp i = true → s.kind = some .kModeled)
      (hm : microStep .kModeled i s = .read reg) (hr : reg ∈ readsFrom s.params i)
      (hk : ∀ v u, ReadEnd i (line i s) v u (k v u)) : ExecCase i s (.next (busRead reg k (cleared i s)))
  | write (reg : RegNum) (v : Word16) (k : State → State) (hb : isDriverOp i = true → s.kind = some .kModeled)
      (hm : microStep .kModeled i s = .write reg v) (hr : reg ∈ writesTo s.params i)
      (hk : ∀ u, WriteEnd i (line i s) u (k u)) : ExecCase i s (.next (busWrite reg v k s))
  | wait (base : Nat) (hb : base ∈ resetBases i) (hl : line i s = base + 2)
      (hm : microStep .kModeled i s = .wait) : ExecCase i s (.next (pollWait s))
  | internal (r : Result) (hm : microStep .kModeled i s = .internal) (hr : InternalEnd s.params i r) :
      ExecCase i s (.next (finish r s))
  | off (hm : microStep .kModeled i s = .off) (hl : seqLength i ≤ line i s) :
      ExecCase i s (.fault .upcOutOfSequence)

/-- The reset-bit test after a poll read ends in one of three ways. -/
theorem pollDone_readEnd {i : Instr} {t : KindTable} {base l : Nat} {done : State → State} {v : Word16} {u : State}
    (ht : t.ctrlReset = 0x8000#16) (hb : base ∈ resetBases i) (hl : l = base + 3)
    (hd : v &&& 0x8000#16 = 0#16 → ReadEnd i l v u (done (polled i base v u))) :
    ReadEnd i l v u (pollDone t (roomOf i base) done v u) := by
  show ReadEnd i l v u (pollCheck t done (polled i base v u))
  rcases pollCheck_cases t done (polled i base v u) with ⟨hv, h⟩ | ⟨hv, h⟩ <;> rw [h] <;> rw [ht] at hv
  · exact hd hv
  · rcases pollHead_cases (polled i base v u) with ⟨hn, h⟩ | ⟨hn, h⟩ <;> rw [h]
    · exact .again base hb hl hv hn
    · exact .timeout base hb hl hv hn

theorem pollHead_writeEnd {i : Instr} {base l : Nat} {u : State} (hb : base ∈ resetBases i) (hl : l = base + 1) :
    WriteEnd i l u (pollHead (setPoll 0 u)) := by
  rcases pollHead_cases (setPoll 0 u) with ⟨hn, h⟩ | ⟨hn, h⟩ <;> rw [h]
  · exact .poll base hb hl hn
  · exact .timeout (List.ne_nil_of_mem hb) (Nat.le_zero.mp hn)

/-- The micro-steps of a soft reset that is part of a driver operation. -/
theorem softResetSeq_cases {i : Instr} {s : State} {base o : Nat} {done : State → State}
    (hk : s.kind = some .kModeled) (hl : line i s = base + o) (hb : base ∈ resetBases i)
    (hid : i ≠ .identify) (hr : s.params.regCtrl ∈ readsFrom s.params i)
    (hw : s.params.regCtrl ∈ writesTo s.params i)
    (hm : microStep .kModeled i s = resetListing (kindTable s.params .kModeled) s.tmp o)
    (h1 : base + 1 < seqLength i) (hp : OutsidePoll i (base + 1))
    (hoff : 4 ≤ o → seqLength i ≤ line i s)
    (hd : ∀ v u, v &&& 0x8000#16 = 0#16 → ReadEnd i (base + 3) v u (done (polled i base v u))) :
    ExecCase i s (softResetSeq (kindTable s.params .kModeled) (roomOf i base) o done s) := by
  have hc : cleared i s = s := by simp [cleared, hid]
  match o, hl, hm, hoff with
  | 0, hl, hm, _ =>
    have := ExecCase.read (i := i) (s := s) s.params.regCtrl setTmp (fun _ => hk) hm hr
      (fun v u => .kept (by omega) (by rw [hl]; exact hp))
    rwa [hc] at this
  | 1, hl, hm, _ => exact .write s.params.regCtrl _ _ (fun _ => hk) hm hw (fun u => pollHead_writeEnd hb hl)
  | 2, hl, hm, _ => exact .wait base hb hl hm
  | 3, hl, hm, _ =>
    have := ExecCase.read (i := i) (s := s) s.params.regCtrl
      (pollDone (kindTable s.params .kModeled) (roomOf i base) done) (fun _ => hk) hm hr
      (fun v u => pollDone_readEnd rfl hb hl (fun hv => by rw [hl]; exact hd v u hv))
    rwa [hc] at this
  | n + 4, hl, hm, hoff => exact .off hm (hoff (by omega))

/-- The micro-steps of the auto-negotiation setup. -/
theorem setAutonegSeq_cases {i : Instr} {s : State} {base o : Nat} {caps : CapSet}
    (hk : s.kind = some .kModeled) (hl : line i s = base + o) (hb : base + 6 ∈ resetBases i)
    (hi : i = .enableSgmii ∨ ∃ caps, i = .setAutonegCaps caps) (hroom : roomOf i (base + 6) = 62)
    (hm : microStep .kModeled i s = autonegListing (kindTable s.params .kModeled) caps s.tmp o)
    (hlen : seqLength i = base + 10) (hp : ∀ n, 0 < n → n < 8 → OutsidePoll i (base + n)) :
    ExecCase i s (setAutonegSeq (kindTable s.params .kModeled) o caps (succeed .unit) s) := by
  have hid : i ≠ .identify := by
    rcases hi with h | ⟨_, h⟩ <;> simp [h]
  have hc : cleared i s = s := by simp [cleared, hid]
  have regs : s.params.regCtrl ∈ readsFrom s.params i ∧ s.params.regCtrl ∈ writesTo s.params i ∧
      s.params.regAnar ∈ readsFrom s.params i ∧ s.params.regAnar ∈ writesTo s.params i ∧
      s.params.regGctrl ∈ readsFrom s.params i ∧ s.params.regGctrl ∈ writesTo s.params i := by
    rcases hi with h | ⟨_, h⟩ <;> simp [h, readsFrom, writesTo]
  have kept : ∀ n, line i s = base + n → n < 6 →
      ∀ v u, ReadEnd i (line i s) v u (setTmp v u) := by
    intro n hn h6 v u
    exact .kept (by omega) (by rw [hn, Nat.add_assoc]; exact hp (n + 1) (by omega) (by omega))
  have more : ∀ n, line i s = base + n → n < 6 → ∀ u, WriteEnd i (line i s) u u := by
    intro n hn h6 u
    exact .more (by omega) (by rw [hn, Nat.add_assoc]; exact hp (n + 1) (by omega) (by omega))
  match o, hl, hm with
  | 0, hl, hm =>
    have := ExecCase.read (i := i) (s := s) s.params.regAnar setTmp (fun _ => hk) hm regs.2.2.1 (kept 0 hl (by omega))
    rwa [hc] at this
  | 1, hl, hm => exact .write s.params.regAnar _ _ (fun _ => hk) hm regs.2.2.2.1 (more 1 hl (by omega))
  | 2, hl, hm =>
    have := ExecCase.read (i := i) (s := s) s.params.regGctrl setTmp (fun _ => hk) hm regs.2.2.2.2.1
      (kept 2 hl (by omega))
    rwa [hc] at this
  | 3, hl, hm => exact .write s.params.regGctrl _ _ (fun _ => hk) hm regs.2.2.2.2.2 (more 3 hl (by omega))
  | 4, hl, hm =>
    have := ExecCase.read (i := i) (s := s) s.params.regCtrl setTmp (fun _ => hk) hm regs.1 (kept 4 hl (by omega))
    rwa [hc] at this
  | 5, hl, hm => exact .write s.params.regCtrl _ _ (fun _ => hk) hm regs.2.1 (more 5 hl (by omega))
  | n + 6, hl, hm =>
    show ExecCase i s (softResetSeq _ 62 n _ s)
    rw [← hroom]
    exact softResetSeq_cases hk (base := base + 6) (by omega) hb hid regs.1 regs.2.1 hm (by omega)
      (by rw [Nat.add_assoc]; exact hp 7 (by omega) (by omega)) (by omega)
      (fun v u hv => .committed hi (base + 6) hb rfl hv)

theorem kind_eq_modeled {s : State} {k : DriverKind} (h : s.kind = some k) : s.kind = some .kModeled := by
  cases k
  exact h

/-- Every answer of `exec` is one of the cases. -/
theorem exec_cases (i : Instr) (s : State) : ExecCase i s (exec i s) := by
  have driverCase : ∀ f : KindTable → Out, isDriverOp i = true →
      (s.kind = some .kModeled → ExecCase i s (f (kindTable s.params .kModeled))) → ExecCase i s (driver s f) := by
    intro f hd h
    cases hk : s.kind with
    | none => rw [driver_unbound hk]; exact .unbound hd hk
    | some k => cases k; rw [driver_bound hk]; exact h hk
  cases i with
  | identify =>
    show ExecCase .identify s (execIdentify s)
    unfold execIdentify
    split
    · next h =>
      have := ExecCase.read (i := .identify) (s := s) s.params.regId1 setTmp (by simp [isDriverOp])
        (by simp [microStep, listing, line, h]) (by simp [readsFrom])
        (fun v u => .kept (by simp [line, h, seqLength]) (by simp [OutsidePoll, resetBases]))
      rwa [show cleared .identify s = unbind s by simp [cleared, Fin.ext_iff, h, unbind]] at this
    · next h =>
      have := ExecCase.read (i := .identify) (s := s) s.params.regId2 (fun v u => identifyMatch (setTmp2 v u))
        (by simp [isDriverOp]) (by simp [microStep, listing, line, h]) (by simp [readsFrom])
        (fun v u => .identified rfl)
      rwa [show cleared .identify s = s by simp [cleared, Fin.ext_iff, h]] at this
    · next h0 h1 =>
      have h2 : 2 ≤ s.upc.val := by
        have h0' : s.upc.val ≠ 0 := h0
        have h1' : s.upc.val ≠ 1 := h1
        omega
      obtain ⟨n, hn⟩ : ∃ n, s.upc.val = n + 2 := ⟨s.upc.val - 2, by omega⟩
      exact .off (by simp [microStep, listing, line, hn]) h2
  | isSgmiiCapable =>
    show ExecCase .isSgmiiCapable s (execIsSgmiiCapable s)
    unfold execIsSgmiiCapable
    exact driverCase _ rfl fun _ => .internal _ rfl .capable
  | enableSgmii =>
    show ExecCase (.enableSgmii) s (execEnableSgmii s)
    unfold execEnableSgmii
    refine driverCase _ rfl fun hk => ?_
    have hc : cleared .enableSgmii s = s := by simp [cleared]
    have he : line .enableSgmii s = sgmiiLine (kindTable s.params .kModeled) s := rfl
    have soft : ∀ o, line .enableSgmii s = 2 + o → o < 4 → ExecCase .enableSgmii s
        (softResetSeq (kindTable s.params .kModeled) 54 o (setFsm .sgmiiProbed) s) := by
      intro o ho h4
      refine softResetSeq_cases (base := 2) hk ho (by simp [resetBases]) (by simp) (by simp [readsFrom])
        (by simp [writesTo]) ?_ (by decide) (by decide) (by omega) (fun v u hv => .probed rfl rfl hv)
      match o, ho, h4 with
      | 0, ho, _ => simp [microStep, listing, ho]
      | 1, ho, _ => simp [microStep, listing, ho]
      | 2, ho, _ => simp [microStep, listing, ho]
      | 3, ho, _ => simp [microStep, listing, ho]
    show ExecCase .enableSgmii s _
    split
    · next h =>
      have := ExecCase.read (i := .enableSgmii) (s := s) s.params.regExtsr setTmp (fun _ => hk)
        (by simp only [microStep, listing, he, h]; rfl) (by simp [readsFrom])
        (fun v u => .kept (by simp [he, h, seqLength]) (by rw [he, h]; decide))
      rwa [hc] at this
    · next h =>
      exact .write s.params.regExtsr _ _ (fun _ => hk) (by simp only [microStep, listing, he, h]; rfl)
        (by simp [writesTo]) (fun u => .more (by simp [he, h, seqLength]) (by rw [he, h]; decide))
    · next h => exact soft 0 h (by omega)
    · next h => exact soft 1 h (by omega)
    · next h => exact soft 2 h (by omega)
    · next h => exact soft 3 h (by omega)
    · next n h =>
      exact setAutonegSeq_cases (base := 6) hk (by omega) (by simp [resetBases]) (.inl rfl) rfl
        (by simp [microStep, listing, he, h]) rfl
        (by intro n h0 h8 b hb; simp [resetBases] at hb; omega)
  | softReset =>
    show ExecCase (.softReset) s (execSoftReset s)
    unfold execSoftReset
    refine driverCase _ rfl fun hk => ?_
    exact softResetSeq_cases (base := 0) hk (by simp [line]) (by simp [resetBases]) (by simp) (by simp [readsFrom])
      (by simp [writesTo]) rfl (by decide) (by decide) (by simp [seqLength, line])
      (fun v u hv => .reset rfl 0 (by simp [resetBases]) rfl hv)
  | setAutonegCaps caps =>
    show ExecCase (.setAutonegCaps caps) s (execSetAutonegCaps caps s)
    unfold execSetAutonegCaps
    refine driverCase _ rfl fun hk => ?_
    exact setAutonegSeq_cases (base := 0) hk (by simp [line]) (by simp [resetBases]) (.inr ⟨caps, rfl⟩)
      (by simp [roomOf]) rfl rfl
      (by intro n h0 hn b hb; simp [resetBases] at hb; omega)
  | getLpCaps =>
    show ExecCase (.getLpCaps) s (execGetLpCaps s)
    unfold execGetLpCaps
    refine driverCase _ rfl fun hk => ?_
    have hc : cleared .getLpCaps s = s := by simp [cleared]
    show ExecCase .getLpCaps s _
    split
    · next h =>
      have := ExecCase.read (i := .getLpCaps) (s := s) s.params.regAnlpar setTmp (fun _ => hk)
        (by simp [microStep, listing, line, h, kindTable]) (by simp [readsFrom])
        (fun v u => .kept (by simp [line, h, seqLength]) (by simp [OutsidePoll, resetBases]))
      rwa [hc] at this
    · next h =>
      have := ExecCase.read (i := .getLpCaps) (s := s) s.params.regGstat
        (fun v u => finish (.ok (.caps (decodeLinkPartnerCaps (kindTable s.params .kModeled) u.tmp v))) (setTmp2 v u))
        (fun _ => hk) (by simp [microStep, listing, line, h, kindTable]) (by simp [readsFrom])
        (fun v u => .partner rfl _)
      rwa [hc] at this
    · next h0 h1 =>
      have h2 : 2 ≤ s.upc.val := by
        have h0' : s.upc.val ≠ 0 := h0
        have h1' : s.upc.val ≠ 1 := h1
        omega
      obtain ⟨n, hn⟩ : ∃ n, s.upc.val = n + 2 := ⟨s.upc.val - 2, by omega⟩
      exact .off (by simp [microStep, listing, line, hn]) h2
  | getLinkStatus =>
    show ExecCase (.getLinkStatus) s (execGetLinkStatus s)
    unfold execGetLinkStatus
    refine driverCase _ rfl fun hk => ?_
    have := ExecCase.read (i := .getLinkStatus) (s := s) s.params.regPssr (fun v u => linkResult (setTmp v u))
      (fun _ => hk) rfl (by simp [readsFrom]) (fun v u => .link rfl)
    rwa [show cleared .getLinkStatus s = s by simp [cleared]] at this
  | setSpeedDuplex speed duplex =>
    show ExecCase (.setSpeedDuplex speed duplex) s (execSetSpeedDuplex speed duplex s)
    unfold execSetSpeedDuplex
    refine driverCase _ rfl fun hk => ?_
    cases h : controlValue (kindTable s.params .kModeled) speed duplex with
    | none => exact .internal _ (by simp [microStep, listing, h]) (.speed speed duplex)
    | some v =>
      exact .write s.params.regCtrl v _ (fun _ => hk) (by simp only [microStep, listing, h]; rfl)
        (by simp [writesTo]) (fun u => .forced speed duplex rfl)
  | encAdv caps => exact .internal _ rfl (.advBits caps _ _)
  | decLpCaps a g => exact .internal _ rfl (.caps a g _)
  | decLinkStatus b =>
    show ExecCase (.decLinkStatus b) s (execDecLinkStatus b s)
    unfold execDecLinkStatus
    split
    · next c h => cases decodeLinkStatus_error h; exact .internal _ rfl (.decodeFault b)
    · next ls h => exact .internal _ rfl (.link b ls h)
  | busRead reg =>
    have := ExecCase.read (i := .busRead reg) (s := s) reg (fun v u => finish (.ok (.word v)) (setTmp v u))
      (by simp [isDriverOp]) rfl (by simp [readsFrom]) (fun v u => .word reg rfl)
    rwa [show cleared (.busRead reg) s = s by simp [cleared]] at this
  | busWrite reg value =>
    exact .write reg value _ (by simp [isDriverOp]) rfl (by simp [writesTo]) (fun u => .written reg value rfl)

/-! ### What follows from the cases -/

/-- IDENTIFY's clearing touches the binding and the label alone. -/
theorem cleared_fields (i : Instr) (s : State) :
    (cleared i s).params = s.params ∧ (cleared i s).busy = s.busy ∧ (cleared i s).cur = s.cur ∧
    (cleared i s).upc = s.upc ∧ (cleared i s).poll = s.poll ∧ (cleared i s).tmp = s.tmp ∧
    (cleared i s).tmp2 = s.tmp2 ∧ (cleared i s).result = s.result ∧
    (cleared i s).busHeld = s.busHeld ∧ (cleared i s).host = s.host ∧ (cleared i s).replies = s.replies ∧
    (cleared i s).phy = s.phy ∧ (cleared i s).pollTimer = s.pollTimer ∧ (cleared i s).log = s.log := by
  unfold cleared
  split <;> simp

theorem cleared_of_ne {i : Instr} {s : State} (h : i ≠ .identify) : cleared i s = s := by
  simp [cleared, h]

theorem cleared_readAnswer (i : Instr) (s : State) (reg : RegNum) :
    readAnswer reg (cleared i s) = readAnswer reg s := by
  unfold cleared
  split <;> rfl

theorem cleared_readPhy (i : Instr) (s : State) (reg : RegNum) : readPhy reg (cleared i s) = readPhy reg s := by
  unfold cleared
  split <;> rfl

/-- The state after an acknowledged read, before its value is used. -/
def readDone (i : Instr) (reg : RegNum) (w : Word16) (s : State) : State :=
  advance (transacted (.read s.params.phyDevAddr reg (.ack w)) (readPhy reg s) (cleared i s))

/-- The state after an acknowledged write. -/
def writeDone (reg : RegNum) (x : Word16) (s : State) : State :=
  advance (transacted (.write s.params.phyDevAddr reg (toWire s.params x) .ack) (writePhy reg x s) s)

/-- A property of every next state of an operation follows from its cases, one for each answer of the PHY. -/
theorem exec_elim {P : State → Prop} {i : Instr} {s t : State} (ht : exec i s = .next t)
    (unbound : isDriverOp i = true → s.kind = none → P (finish (.err .notBound) s))
    (internal : ∀ r, InternalEnd s.params i r → P (finish r s))
    (wait : ∀ base, base ∈ resetBases i → line i s = base + 2 → P (pollWait s))
    (read : ∀ reg w v, reg ∈ readsFrom s.params i → readAnswer reg s = .ack w →
      microStep .kModeled i s = .read reg →
      ReadEnd i (line i s) (fromWire s.params w) (readDone i reg w s) v → P v)
    (write : ∀ reg x v, reg ∈ writesTo s.params i → writeAnswer reg x s = .ack →
      microStep .kModeled i s = .write reg x → WriteEnd i (line i s) (writeDone reg x s) v → P v)
    (readNoDevice : ∀ reg, reg ∈ readsFrom s.params i → readAnswer reg s = .noDevice →
      P (finish (.err .phyNotFoundNoDevice)
        (transacted (.read s.params.phyDevAddr reg .noDevice) (readPhy reg s) (cleared i s))))
    (readBusError : ∀ reg, reg ∈ readsFrom s.params i → readAnswer reg s = .busError →
      P (finish (.err .phyAccessBus)
        (transacted (.read s.params.phyDevAddr reg .busError) (readPhy reg s) (cleared i s))))
    (readSilent : ∀ reg, reg ∈ readsFrom s.params i → readAnswer reg s = .silent →
      P (unanswered (readPhy reg s) (cleared i s)))
    (writeNoDevice : ∀ reg x, reg ∈ writesTo s.params i → writeAnswer reg x s = .noDevice →
      P (finish (.err .phyNotFoundNoDevice)
        (transacted (.write s.params.phyDevAddr reg (toWire s.params x) .noDevice) (writePhy reg x s) s)))
    (writeBusError : ∀ reg x, reg ∈ writesTo s.params i → writeAnswer reg x s = .busError →
      P (finish (.err .phyAccessBus)
        (transacted (.write s.params.phyDevAddr reg (toWire s.params x) .busError) (writePhy reg x s) s)))
    (writeSilent : ∀ reg x, reg ∈ writesTo s.params i → writeAnswer reg x s = .silent →
      P (unanswered (writePhy reg x s) s)) : P t := by
  have hc := exec_cases i s
  generalize exec i s = out at hc ht
  cases hc with
  | unbound hd hk => cases ht; exact unbound hd hk
  | off => cases ht
  | internal r _ hr => cases ht; exact internal r hr
  | wait base hb hl => cases ht; exact wait base hb hl
  | read reg k _ hm hr hk =>
    cases ht
    have hp : (cleared i s).params = s.params := (cleared_fields i s).1
    rcases busRead_cases reg k (cleared i s) with ⟨w, ha, he⟩ | ⟨ha, he⟩ | ⟨ha, he⟩ | ⟨ha, he⟩ <;> rw [he] <;>
      rw [cleared_readAnswer] at ha <;>
      simp only [raise_eq_finish, afterRead_eq_transacted, hp, cleared_readPhy]
    · exact read reg w _ hr ha hm (hk _ _)
    · exact readNoDevice reg hr ha
    · exact readBusError reg hr ha
    · exact readSilent reg hr ha
  | write reg x k _ hm hr hk =>
    cases ht
    rcases busWrite_cases reg x k s with ⟨ha, he⟩ | ⟨ha, he⟩ | ⟨ha, he⟩ | ⟨ha, he⟩ <;> rw [he]
    · exact write reg x _ hr ha hm (hk _)
    · exact writeNoDevice reg x hr ha
    · exact writeBusError reg x hr ha
    · exact writeSilent reg x hr ha

/-- What the end of a micro-step leaves alone, and the two ways it ends: the operation goes on, with `tmp` and `poll` as
given, or it has its result. -/
structure Tail (tmp : Word16) (poll : Nat) (u t : State) : Prop where
  params : t.params = u.params
  host : t.host = u.host
  replies : t.replies = u.replies
  phy : t.phy = u.phy
  life : (t.log = u.log ∧ t.busy = u.busy ∧ t.cur = u.cur ∧ t.busHeld = u.busHeld ∧ t.result = u.result ∧
      t.tmp2 = u.tmp2 ∧ t.pollTimer = u.pollTimer ∧ t.tmp = tmp ∧ t.poll = poll) ∨
    ∃ r, t.log = .done r :: u.log ∧ Ended r t

theorem finish_tail {tmp : Word16} {poll : Nat} {u v : State} (r : Result) (h1 : v.params = u.params)
    (h2 : v.host = u.host) (h3 : v.replies = u.replies) (h4 : v.phy = u.phy) (h5 : v.log = u.log) :
    Tail tmp poll u (finish r v) := by
  constructor <;> simp [*, Ended]

/-- After a read that goes on, `tmp` has the value, and a poll read is counted. -/
theorem readEnd_tail {i : Instr} {l : Nat} {v : Word16} {u t : State} (h : ReadEnd i l v u t) :
    Tail v (if polling i l then u.poll + 1 else u.poll) u t := by
  cases h with
  | kept _ hp => constructor <;> simp [hp.polling_prev]
  | again base hb hl => subst hl; constructor <;> simp [polled, polling_loop hb]
  | probed hi hl => subst hi hl; constructor <;> simp [polled, polling, resetBases]
  | identified =>
    generalize (if polling i l then u.poll + 1 else u.poll) = p
    unfold identifyMatch
    split <;> apply finish_tail <;> simp
  | link =>
    generalize (if polling i l then u.poll + 1 else u.poll) = p
    unfold linkResult
    split <;> apply finish_tail <;> simp
  | timeout => apply finish_tail <;> simp [polled]
  | committed => apply finish_tail <;> simp [polled]
  | reset => apply finish_tail <;> simp [polled]
  | partner => apply finish_tail <;> simp
  | word => apply finish_tail <;> simp

/-- After a write that goes on, `tmp` is as before, and `poll` is 0 where a poll loop follows. -/
theorem writeEnd_tail {i : Instr} {l : Nat} {u t : State} (h : WriteEnd i l u t) :
    Tail u.tmp (if polling i (l + 1) then 0 else u.poll) u t := by
  cases h with
  | more _ hp => constructor <;> simp [hp.polling]
  | poll base hb hl => subst hl; constructor <;> simp [polling_loop hb]
  | timeout => apply finish_tail <;> simp
  | forced => apply finish_tail <;> simp
  | written => apply finish_tail <;> simp

end Sys2Proof.Machine
end

