-- ==== Sys2Proof/Laws/PerInstr.lean ====
section
/-! SUPPORT. Statements made per instruction. Family `RowOf`: an operation's descriptor is hit by a row of R72 that
builds the operation again. -/

namespace Sys2Proof.Laws

/-- Some row of the decode table hits the descriptor of `i` and builds `i` from it. -/
def RowOf.Statement (i : Instr) : Prop :=
  ∃ r ∈ decodeRows, r.hits (encode i) = true ∧ r.build (encode i) = i

theorem RowOf.identify : RowOf.Statement .identify :=
  ⟨decodeRows[0], by simp [decodeRows], by decide, rfl⟩

theorem RowOf.isSgmiiCapable : RowOf.Statement .isSgmiiCapable :=
  ⟨decodeRows[1], by simp [decodeRows], by decide, rfl⟩

theorem RowOf.enableSgmii : RowOf.Statement .enableSgmii :=
  ⟨decodeRows[2], by simp [decodeRows], by decide, rfl⟩

theorem RowOf.softReset : RowOf.Statement .softReset :=
  ⟨decodeRows[3], by simp [decodeRows], by decide, rfl⟩

theorem RowOf.setAutonegCaps (caps : CapSet) : RowOf.Statement (.setAutonegCaps caps) := by
  refine ⟨decodeRows[4], by simp [decodeRows], ?_, by simp [decodeRows, encode]⟩
  obtain ⟨a, b, c, d, e, f⟩ := caps
  revert a b c d e f
  decide

theorem RowOf.getLpCaps : RowOf.Statement .getLpCaps :=
  ⟨decodeRows[5], by simp [decodeRows], by decide, rfl⟩

theorem RowOf.getLinkStatus : RowOf.Statement .getLinkStatus :=
  ⟨decodeRows[6], by simp [decodeRows], by decide, rfl⟩

theorem RowOf.setSpeedDuplex (speed : Word16) (duplex : DuplexArg) :
    RowOf.Statement (.setSpeedDuplex speed duplex) := by
  refine ⟨decodeRows[7], by simp [decodeRows], ?_, by simp [decodeRows, encode]⟩
  have h : 0xFFFFFFFF0000FFFC#64 = packDescriptor 0xFF#8 0xFF#8 0#16 0xFFFC#16 ||| 0xFFFF00000000#64 := by decide
  show (encode (.setSpeedDuplex speed duplex) &&& 0xFFFFFFFF0000FFFC#64 == 0x0800000000000000#64) = true
  rw [h, encode, packDescriptor_and_mask]
  cases duplex <;> simp [DuplexArg.code] <;> decide

theorem RowOf.encAdv (caps : CapSet) : RowOf.Statement (.encAdv caps) := by
  refine ⟨decodeRows[8], by simp [decodeRows], ?_, by simp [decodeRows, encode]⟩
  obtain ⟨a, b, c, d, e, f⟩ := caps
  revert a b c d e f
  decide

theorem RowOf.decLpCaps (p g : Word16) : RowOf.Statement (.decLpCaps p g) := by
  refine ⟨decodeRows[9], by simp [decodeRows], ?_, by simp [decodeRows, encode]⟩
  have h : 0xFFFFFFFF00000000#64 = packDescriptor 0xFF#8 0xFF#8 0#16 0#16 ||| 0xFFFF00000000#64 := by decide
  show (encode (.decLpCaps p g) &&& 0xFFFFFFFF00000000#64 == 0x1100000000000000#64) = true
  rw [h, encode, packDescriptor_and_mask]
  simp
  decide

theorem RowOf.decLinkStatus (b : Word16) : RowOf.Statement (.decLinkStatus b) := by
  refine ⟨decodeRows[10], by simp [decodeRows], ?_, by simp [decodeRows, encode]⟩
  have h : 0xFFFFFFFFFFFF0000#64 = packDescriptor 0xFF#8 0xFF#8 0xFFFF#16 0#16 ||| 0xFFFF00000000#64 := by decide
  show (encode (.decLinkStatus b) &&& 0xFFFFFFFFFFFF0000#64 == 0x1200000000000000#64) = true
  rw [h, encode, packDescriptor_and_mask]
  simp
  decide

theorem RowOf.busRead (reg : RegNum) : RowOf.Statement (.busRead reg) := by
  refine ⟨decodeRows[11], by simp [decodeRows], ?_, by simp [decodeRows, encode]⟩
  have h : 0xFF00FFFFFFFFFFFF#64 = packDescriptor 0xFF#8 0#8 0xFFFF#16 0xFFFF#16 ||| 0xFFFF00000000#64 := by decide
  show (encode (.busRead reg) &&& 0xFF00FFFFFFFFFFFF#64 == 0x2000000000000000#64) = true
  rw [h, encode, packDescriptor_and_mask]
  simp
  decide

theorem RowOf.busWrite (reg : RegNum) (value : Word16) : RowOf.Statement (.busWrite reg value) := by
  refine ⟨decodeRows[12], by simp [decodeRows], ?_, by simp [decodeRows, encode]⟩
  have h : 0xFF00FFFFFFFF0000#64 = packDescriptor 0xFF#8 0#8 0xFFFF#16 0#16 ||| 0xFFFF00000000#64 := by decide
  show (encode (.busWrite reg value) &&& 0xFF00FFFFFFFF0000#64 == 0x2100000000000000#64) = true
  rw [h, encode, packDescriptor_and_mask]
  simp
  decide

end Sys2Proof.Laws
end

