-- ==== Sys2Proof/Laws/Phy.lean ====
section
/-! SUPPORT. The canonical form of the reference responder's registers: every operation of the PHY agent keeps it. -/

namespace Sys2Proof.Machine

theorem regsWfFrom_mono {lo hi : Nat} (h : lo ≤ hi) : ∀ l, regsWfFrom hi l = true → regsWfFrom lo l = true
  | [], _ => rfl
  | (a, v) :: rest, hl => by
    simp only [regsWfFrom, Bool.and_eq_true, decide_eq_true_eq] at hl ⊢
    exact ⟨⟨⟨by omega, hl.1.1.2⟩, hl.1.2⟩, hl.2⟩

theorem regPut_wfFrom {r : Nat} (hr : r < 256) (v : Word16) :
    ∀ (l : List RegCell) (lo : Nat), lo ≤ r → regsWfFrom lo l = true → regsWfFrom lo (regPut l r v) = true
  | [], lo, hlo, _ => by
    unfold regPut
    split <;> simp_all [regsWfFrom]
  | (a, x) :: rest, lo, hlo, hl => by
    simp only [regsWfFrom, Bool.and_eq_true, decide_eq_true_eq] at hl
    unfold regPut
    split_ifs with h1 h2 h3 h4
    · simp_all [regsWfFrom]
    · simp_all [regsWfFrom]
    · exact regsWfFrom_mono (by omega) rest hl.2
    · subst h3
      simp_all [regsWfFrom]
    · simp only [regsWfFrom, Bool.and_eq_true, decide_eq_true_eq]
      exact ⟨hl.1, regPut_wfFrom hr v rest (a + 1) (by omega) hl.2⟩

/-- Setting a register keeps the canonical form. -/
theorem regPut_wf {l : List RegCell} (h : regsWf l = true) (r : RegNum) (v : Word16) :
    regsWf (regPut l r.toNat v) = true :=
  regPut_wfFrom (by omega) v l 0 (Nat.zero_le _) h

theorem refReadState_wf (p : Params) {f : RefPhy} (h : regsWf f.regs = true) (r : RegNum) :
    regsWf (refReadState p f r).regs = true := by
  unfold refReadState refCtrlTick
  split_ifs
  · exact h
  · exact regPut_wf h _ _
  · exact h

theorem refWriteState_wf (p : Params) {f : RefPhy} (h : regsWf f.regs = true) (r : RegNum) (v : Word16) :
    regsWf (refWriteState p f r v).regs = true := by
  unfold refWriteState
  split
  · exact h
  · exact regPut_wf h _ _

/-- The canonical form of the PHY agent's registers, if a reference responder is attached. -/
def Phy.RegsWf (y : Phy) : Prop := ∀ f, y.reference = some f → regsWf f.regs = true

theorem phyRead_regsWf (p : Params) {y : Phy} (h : y.RegsWf) (r : RegNum) : (phyRead p y r).2.RegsWf := by
  intro f hf
  unfold phyRead at hf
  split at hf
  · exact h f hf
  · split at hf
    · next g hg =>
      simp only [Option.some.injEq] at hf
      subst hf
      unfold refRead
      split
      · exact refReadState_wf p (h g hg) r
      · exact h g hg
    · exact h f hf

theorem phyWrite_regsWf (p : Params) {y : Phy} (h : y.RegsWf) (r : RegNum) (w : Word16) :
    (phyWrite p y r w).2.RegsWf := by
  intro f hf
  unfold phyWrite at hf
  split at hf
  · exact h f hf
  · split at hf
    · next g hg =>
      simp only [Option.some.injEq] at hf
      subst hf
      unfold refWrite
      split
      · exact refWriteState_wf p (h g hg) r _
      · exact h g hg
    · exact h f hf

theorem readPhy_regsWf (reg : RegNum) {s : State} (h : s.phy.RegsWf) : (readPhy reg s).RegsWf :=
  phyRead_regsWf s.params h reg

theorem writePhy_regsWf (reg : RegNum) (v : Word16) {s : State} (h : s.phy.RegsWf) : (writePhy reg v s).RegsWf :=
  phyWrite_regsWf s.params h reg _

/-- The reset state attaches no reference responder, so its registers are in the canonical form. -/
theorem reset_regsWf : State.reset.phy.RegsWf := by
  intro f hf
  cases hf

/-! ### Reading back -/

theorem regGet_of_wfFrom : ∀ (l : List RegCell) (lo q : Nat), q < lo → regsWfFrom lo l = true → regGet l q = 0#16
  | [], _, _, _, _ => rfl
  | (a, v) :: rest, lo, q, hq, h => by
    simp only [regsWfFrom, Bool.and_eq_true, decide_eq_true_eq] at h
    unfold regGet
    rw [if_neg (by omega)]
    exact regGet_of_wfFrom rest (a + 1) q (by omega) h.2

theorem regGet_regPutFrom (r q : Nat) (v : Word16) :
    ∀ (l : List RegCell) (lo : Nat), regsWfFrom lo l = true →
      regGet (regPut l r v) q = if q = r then v else regGet l q
  | [], _, _ => by
    unfold regPut
    by_cases hv : v = 0#16
    · simp [hv, regGet]
    · by_cases hq : r = q
      · simp [hv, hq, regGet]
      · simp [hv, hq, regGet, Ne.symm hq]
  | (a, x) :: rest, lo, h => by
    simp only [regsWfFrom, Bool.and_eq_true, decide_eq_true_eq] at h
    have below : ∀ q, q < a + 1 → regGet rest q = 0#16 := fun q hq => regGet_of_wfFrom rest (a + 1) q hq h.2
    unfold regPut
    split_ifs with h1 h2 h3 h4 <;> subst_vars
    · simp [regGet, show ¬ a = q by omega, below q (by omega)]
    · rfl
    · simp [regGet]
    · simp [regGet, show ¬ r = q by omega]
    · simp [below a (by omega)]
    · simp [regGet, show ¬ a = q by omega]
    · simp [regGet]
    · simp [regGet, show ¬ a = q by omega]
    · simp [regGet, show ¬ a = q by omega, regGet_regPutFrom q q v rest (a + 1) h.2]
    · by_cases haq : a = q
      · simp [regGet, haq]
      · simp [regGet, haq, regGet_regPutFrom r q v rest (a + 1) h.2]
        intro hc
        exact absurd hc (by assumption)

/-- A register set reads back, and every other register is as it was. -/
theorem regGet_regPut {l : List RegCell} (h : regsWf l = true) (r q : Nat) (v : Word16) :
    regGet (regPut l r v) q = if q = r then v else regGet l q :=
  regGet_regPutFrom r q v l 0 h

end Sys2Proof.Machine
end

