-- ==== Sys2Proof/Laws/Step.lean ====
section
/-! SUPPORT. Everything one step can do, said once: a turn of the controller is `controllerStep`, and a step that
answers a next state is one of the host's four events or the controller's turn. -/

namespace Sys2Proof.Machine

/-- On its turn the controller steps (60_exceptions.md R139, R140). -/
theorem turn_step {s u : State} (h : ControllerTurn s u) : step s = controllerStep u := by
  obtain ⟨hw, ⟨h, rfl⟩ | ⟨hb, rfl, d, r, h⟩ | ⟨r, h, rfl⟩⟩ := h
  · rw [step_wellFormed hw]
    simp [hostStep, h]
  · rw [step_wellFormed hw]
    simp [hostStep, h, hb]
  · rw [step_wellFormed hw]
    simp [hostStep, h, setHost]

/-- A turn changes no field before the controller's step but the host's events. -/
theorem turn_fields {s u : State} (h : ControllerTurn s u) : u = { s with host := u.host } := by
  obtain ⟨_, ⟨_, rfl⟩ | ⟨_, rfl, _⟩ | ⟨_, _, rfl⟩⟩ := h <;> rfl

/-- What the controller's turn can do, from `s` by way of `u`, to reach `t`. -/
inductive TurnCase (s u t : State) : Prop where
  /-- Idle: nothing (70_reset_and_hazards.md R144). -/
  | idle (hb : s.busy = false) (ht : t = u)
  /-- An illegal descriptor ends (30_encoding.md R77). -/
  | illegal (d : Descriptor) (e : DecodeError) (hb : s.busy = true) (hc : s.cur = some d) (hd : decode d = .error e)
      (ht : t = raise .illegalOp u)
  /-- A micro-step of the operation in `cur`. -/
  | micro (d : Descriptor) (i : Instr) (hb : s.busy = true) (hc : s.cur = some d) (hd : decode d = .ok i)
      (ht : exec i u = .next t)

/-- What a step that answers a next state can be. -/
inductive StepCase (s t : State) : Prop where
  /-- The host resets the block. -/
  | reset (rest : List HostEvent) (hh : s.host = .reset :: rest) (ht : t = blockReset (setHost rest s))
  /-- The host reads a result. -/
  | reply (r : Result) (rest : List HostEvent) (hh : s.host = .readResult :: rest) (hr : s.result = some r)
      (ht : t = { s with host := rest, replies := r :: s.replies })
  /-- An idle block accepts a descriptor. -/
  | accept (d : Descriptor) (rest : List HostEvent) (hh : s.host = .issue d :: rest) (hb : s.busy = false)
      (ht : t = acceptOp d (setHost rest s))
  /-- The controller's turn. -/
  | turn (u : State) (hu : ControllerTurn s u) (hf : u = { s with host := u.host }) (hc : TurnCase s u t)

/-- A controller step that answers a next state. -/
theorem turn_cases {s u t : State} (hu : ControllerTurn s u) (h : controllerStep u = .next t) : TurnCase s u t := by
  have hf := turn_fields hu
  have e1 : u.busy = s.busy := by rw [hf]
  have e2 : u.cur = s.cur := by rw [hf]
  unfold controllerStep at h
  rw [e1, e2] at h
  split at h
  · next hb =>
    split at h
    · next d hc =>
      split at h
      · next i hd => exact .micro d i hb hc hd h
      · next e hd => cases h; exact .illegal d e hb hc hd rfl
    · cases h
  · next hb => cases h; exact .idle (by simpa using hb) rfl

/-- Every step that answers a next state is one of the cases, and its parameters pass R10. -/
theorem step_cases {s t : State} (h : step s = .next t) : s.params.WellFormed ∧ StepCase s t := by
  have hw : s.params.WellFormed := by
    unfold step stepOnce at h
    split at h
    · cases h
    · assumption
  refine ⟨hw, ?_⟩
  rw [step_wellFormed hw] at h
  have turn : ∀ u, ControllerTurn s u → controllerStep u = .next t → StepCase s t :=
    fun u hu hc => .turn u hu (turn_fields hu) (turn_cases hu hc)
  unfold hostStep at h
  split at h
  · next hh => exact turn s ⟨hw, .inl ⟨hh, rfl⟩⟩ h
  · next rest hh => cases h; exact .reset rest hh rfl
  · next rest hh =>
    unfold hostRead at h
    split at h
    · next r hr => cases h; exact .reply r rest hh hr rfl
    · cases h
  · next rest hh => exact turn _ ⟨hw, .inr (.inr ⟨rest, hh, rfl⟩)⟩ h
  · next d rest hh =>
    split at h
    · next hb => exact turn s ⟨hw, .inr (.inl ⟨hb, rfl, d, rest, hh⟩)⟩ h
    · next hb => cases h; exact .accept d rest hh (by simpa using hb) rfl

end Sys2Proof.Machine
end

