-- ==== Sys2Proof/Laws/System.lean ====
section
/-! SUPPORT. What a command of the host does to one block of a system, and how schedules compose. -/

namespace Sys2Proof.Machine

/-- A command changes the number of blocks not at all. -/
@[simp] theorem issueCommand_length (present : List Nat) (c : HostCommand) (blocks : List State) :
    (issueCommand present c blocks).length = blocks.length := by
  simp [issueCommand]

/-- A block after a command: offered the operation if the command reaches its port, else as it was. -/
theorem issueCommand_getElem? (present : List Nat) (c : HostCommand) (blocks : List State) (k : Nat) :
    (issueCommand present c blocks)[k]? =
      blocks[k]?.map fun s => if k ∈ commandPorts present c then hostIssue (encode (commandOp c)) s else s := by
  simp [issueCommand]

/-- A schedule in two parts: the second runs from where the first ended. -/
theorem systemRun_append {first : List Nat} {blocks mid : List State} (second : List Nat)
    (h : systemRun first blocks = .next mid) : systemRun (first ++ second) blocks = systemRun second mid := by
  induction first generalizing blocks with
  | nil => cases h; rfl
  | cons k rest ih =>
    simp only [List.cons_append, systemRun] at h ⊢
    split at h
    · next after hs => exact ih h
    · cases h
    · cases h

end Sys2Proof.Machine
end

