-- ==== Sys2Proof/Tests/Slice0.lean ====
section
/-! SUPPORT. Tests: parameter sets the check refuses, decoding of words written out from the spec, at most two steps per
operation with the spec's own examples as expected results, and a witness for the hypotheses of every statement that has
some. -/

namespace Sys2Proof.Tests

open Sys2Proof.Machine

/-! ### Helpers -/

/-- An idle bound block whose PHY answers its next read with `w`. -/
def idleBound (w : Word16) : State :=
  { State.reset with kind := some .kModeled, phyId := some 0x01410CC2#32, phy := ⟨[.ack w], [], 0, 0, none⟩ }

/-- A field of a next state; none of a stop. -/
def field {α : Type} (f : State → α) : Out → Option α
  | .next t => some (f t)
  | .fault _ => none
  | .refused _ => none

/-- A bound block in the middle of operation `i`, at index `u`, with scratch value `tmp` and these answers to
come. -/
def midOp (i : Instr) (u : Upc) (tmp : Word16) (reads : List ReadAnswer) (writes : List WriteAnswer) : State :=
  { State.reset with
    kind := some .kModeled
    phyId := some 0x01410CC2#32
    busy := true
    cur := some (encode i)
    upc := u
    tmp := tmp
    phy := ⟨reads, writes, 0, 0, none⟩ }

/-- A block that has never identified its PHY, at the start of operation `i`. -/
def unboundOp (i : Instr) : State := { State.reset with busy := true, cur := some (encode i) }

/-- The reset state with these host events. -/
def hostDoes (events : List HostEvent) : State := { State.reset with host := events }

/-- A reference responder whose `CTRL` holds 0x9140. -/
def responder (present : Bool) (count : Count) : RefPhy := ⟨[(0, 0x9140#16), (4, 0x01E1#16)], present, count, .fin 2⟩

/-- A log of `n` transactions and waits. -/
def counts (n : Nat) : List Event := List.replicate n (.wait 75)

/-- ENABLE_SGMII after `u` transactions and waits, with the label an earlier run can have left. -/
def sgmiiAt (u : Upc) (t : PollTimer) (poll : Nat) (tmp : Word16) (reads : List ReadAnswer) : State :=
  { midOp .enableSgmii u tmp reads [] with fsm := .sgmiiProbed, poll := poll, pollTimer := t, log := counts u.val }

/-! ### Well-formedness (00_scope.md R10) -/

theorem test_defaults_wellFormed : defaultParams.WellFormed := by decide

theorem test_linkBit_on_resolvedBit_refused :
    Params.problem { defaultParams with linkBit := 11 } = some .statusBitsNotDistinct := by decide

theorem test_nPoll_zero_refused : Params.problem { defaultParams with nPoll := 0 } = some .nPollZero := by decide

theorem test_unmasked_directory_refused :
    Params.problem { defaultParams with directory := [⟨0x01410CC2#32, 0xFFFFFFF0#32, .kModeled⟩] } =
      some .directoryNotPremasked := by decide

/-! ### Decoding: words from 30_encoding.md R70 to R74 and R81 -/

theorem test_decode_identify : decode 0x0100000000000000#64 = .ok .identify := by decide

theorem test_decode_isSgmiiCapable : decode 0x0200000000000000#64 = .ok .isSgmiiCapable := by decide

theorem test_decode_enableSgmii : decode 0x0300000000000000#64 = .ok .enableSgmii := by decide

theorem test_decode_softReset : decode 0x0400000000000000#64 = .ok .softReset := by decide

theorem test_decode_setAutonegCaps :
    decode 0x050000000000000A#64 = .ok (.setAutonegCaps ⟨false, false, true, false, true, false⟩) := by decide

theorem test_decode_getLpCaps : decode 0x0600000000000000#64 = .ok .getLpCaps := by decide

theorem test_decode_getLinkStatus : decode 0x0700000000000000#64 = .ok .getLinkStatus := by decide

theorem test_decode_setSpeedDuplex : decode 0x0800000003E80003#64 = .ok (.setSpeedDuplex 1000#16 .other) := by decide

theorem test_decode_encAdv :
    decode 0x1000000000000028#64 = .ok (.encAdv ⟨true, false, true, false, false, false⟩) := by decide

theorem test_decode_decLpCaps : decode 0x110000000DE00300#64 = .ok (.decLpCaps 0x0DE0#16 0x0300#16) := by decide

theorem test_decode_decLinkStatus : decode 0x120000000000AC00#64 = .ok (.decLinkStatus 0xAC00#16) := by decide

theorem test_decode_busRead : decode 0x2002000000000000#64 = .ok (.busRead 2#8) := by decide

theorem test_decode_busWrite : decode 0x2100000000008000#64 = .ok (.busWrite 0#8 0x8000#16) := by decide

theorem test_decode_reserved_space :
    (decode 0x0000000000000000#64 = .error .reservedOpcode ∧ decode 0x0900000000000000#64 = .error .reservedOpcode ∧
      decode 0x0F00000000000000#64 = .error .reservedOpcode ∧ decode 0x1300000000000000#64 = .error .reservedOpcode) ∧
    decode 0x1F00000000000000#64 = .error .reservedOpcode ∧ decode 0x2200000000000000#64 = .error .reservedOpcode ∧
      decode 0xFF00000000000000#64 = .error .reservedOpcode := by decide

theorem test_decode_must_be_zero :
    decode 0x0101000000000000#64 = .error .mustBeZero ∧ decode 0x0500000000000040#64 = .error .mustBeZero ∧
    decode 0x0800000000640004#64 = .error .mustBeZero ∧ decode 0x2102000100000000#64 = .error .mustBeZero := by decide

theorem test_decodeTableWord : decodeTableWord 64 0x201B000000000000 = some (.busRead 27#8) := by decide

/-! ### One step of each operation, with the examples of its rule -/

/-- 41_driver.md R101, the second read of the example. -/
theorem test_identify_binds :
    field (fun t => (t.kind, t.result)) (exec .identify (midOp .identify 1 0x0141#16 [.ack 0xC20C#16] [])) =
      some (some .kModeled, some (.ok (.idKind 0x01410CC2#32 .kModeled))) := by decide

/-- R101: "an empty `DIRECTORY` always gives code 2". -/
theorem test_identify_no_match :
    field (fun t => t.result) (exec .identify
      { midOp .identify 1 0x0141#16 [.ack 0xC20C#16] [] with params := { defaultParams with directory := [] } }) =
      some (some (.err .phyNotFoundNoMatch)) := by decide

/-- R105. -/
theorem test_isSgmiiCapable :
    field (fun t => t.result) (exec .isSgmiiCapable (midOp .isSgmiiCapable 0 0#16 [] [])) =
      some (some (.ok (.flag true))) := by decide

/-- R99. -/
theorem test_isSgmiiCapable_unbound :
    field (fun t => t.result) (exec .isSgmiiCapable (unboundOp .isSgmiiCapable)) =
      some (some (.err .notBound)) := by decide

/-- R106, the example: `EXTSR = 0x848B` is written back as `0x8484`, bus word `0x8484`. -/
theorem test_enableSgmii_writes_extsr :
    field (fun t => t.log.head?) (exec .enableSgmii (midOp .enableSgmii 1 0x848B#16 [] [.ack])) =
      some (some (.write 0x56#7 27#8 0x8484#16 .ack)) := by decide

/-- R106, R25, R108: the label after the first soft reset, its one poll counted, `upc` one on. -/
theorem test_enableSgmii_probed :
    field (fun t => (t.fsm, t.upc, t.poll))
      (exec .enableSgmii { midOp .enableSgmii 5 0#16 [.ack 0x4011#16] [] with pollTimer := .waitEnded }) =
      some (.sgmiiProbed, 6, 1) := by decide

/-- R110, the example: `CTRL = 0x1140` is written as `0x9140`, bus word `0x4091`. -/
theorem test_softReset_sets_the_bit :
    field (fun t => t.log.head?) (exec .softReset (midOp .softReset 1 0x1140#16 [] [.ack])) =
      some (some (.write 0x56#7 0#8 0x4091#16 .ack)) := by decide

/-- R108: the seventh poll read still sees the bit; it is the sixteenth transaction or wait (R110, R118). -/
theorem test_softReset_times_out :
    field (fun t => (t.result, t.upc))
      (exec .softReset { midOp .softReset 15 0#16 [.ack 0x4091#16] [] with poll := 6 }) =
      some (some (.err .phyAccessResetTimeout), 16) := by decide

/-- R112, the example: `ANAR = 0x01E1` is written as `0x0D41`, bus word `0x410D`. -/
theorem test_setAutonegCaps_writes_anar :
    field (fun t => t.log.head?) (exec (.setAutonegCaps ⟨false, false, true, false, true, false⟩)
      (midOp (.setAutonegCaps ⟨false, false, true, false, true, false⟩) 1 0x01E1#16 [] [.ack])) =
      some (some (.write 0x56#7 4#8 0x410D#16 .ack)) := by decide

/-- R112, the example: `GCTRL = 0x0300` is written as `0x0000`. -/
theorem test_setAutonegCaps_writes_gctrl :
    field (fun t => t.log.head?) (exec (.setAutonegCaps ⟨false, false, true, false, true, false⟩)
      (midOp (.setAutonegCaps ⟨false, false, true, false, true, false⟩) 3 0x0300#16 [] [.ack])) =
      some (some (.write 0x56#7 9#8 0x0000#16 .ack)) := by decide

/-- R113, the example at the default layout. -/
theorem test_getLpCaps_inverse :
    field (fun t => t.result) (exec .getLpCaps (midOp .getLpCaps 1 0xC5E1#16 [.ack 0x003C#16] [])) =
      some (some (.ok (.caps ⟨false, false, true, true, true, true⟩))) := by decide

/-- R113, the example at the IEEE layout. -/
theorem test_getLpCaps_ieee :
    field (fun t => t.result) (exec .getLpCaps
      { midOp .getLpCaps 1 0xC5E1#16 [.ack 0x003C#16] [] with
        params := { defaultParams with gstatLayout := .ieee } }) =
      some (some (.ok (.caps ⟨true, true, true, true, true, true⟩))) := by decide

/-- R114, the example. -/
theorem test_getLinkStatus_up :
    field (fun t => (t.result, t.fsm))
      (exec .getLinkStatus { midOp .getLinkStatus 0 0#16 [.ack 0x00AC#16] [] with fsm := .autonegConfigured }) =
      some (some (.ok (.link ⟨.up, .s1000, .full⟩)), .linkUp) := by decide

/-- 70_reset_and_hazards.md R152: the example read with the wrong byte order. -/
theorem test_getLinkStatus_wrong_order :
    field (fun t => t.result) (exec .getLinkStatus (midOp .getLinkStatus 0 0#16 [.ack 0xAC00#16] [])) =
      some (some (.ok (.link ⟨.down, .s0, .unknown⟩))) := by decide

/-- R116, the example: `CTRL <- 0x2100`, bus word `0x0021`. -/
theorem test_setSpeedDuplex_100_full :
    field (fun t => (t.log, t.fsm))
      (exec (.setSpeedDuplex 100#16 .full) (midOp (.setSpeedDuplex 100#16 .full) 0 0#16 [] [.ack])) =
      some ([.done (.ok .unit), .write 0x56#7 0#8 0x0021#16 .ack], .forcedConfigured) := by decide

/-- R116: "`speed = 0` and `speed = 2500` fault with no bus transaction". -/
theorem test_setSpeedDuplex_2500 :
    field (fun t => t.log)
      (exec (.setSpeedDuplex 2500#16 .half) (midOp (.setSpeedDuplex 2500#16 .half) 0 0#16 [] [.ack])) =
      some [.done (.err .unsupportedSpeed)] := by decide

/-- 40_codec.md R88, the example. -/
theorem test_encAdv :
    field (fun t => t.result)
      (exec (.encAdv ⟨true, false, true, false, false, false⟩)
        (unboundOp (.encAdv ⟨true, false, true, false, false, false⟩))) =
      some (some (.ok (.advBits 0x0D00#16 0x0200#16))) := by decide

/-- R88: all six. -/
theorem test_encAdv_all :
    field (fun t => t.result) (exec (.encAdv allCaps) (unboundOp (.encAdv allCaps))) =
      some (some (.ok (.advBits 0x0DE0#16 0x0300#16))) := by decide

/-- R91, the example. -/
theorem test_decLpCaps :
    field (fun t => t.result)
      (exec (.decLpCaps 0x0DE0#16 0x0300#16) (unboundOp (.decLpCaps 0x0DE0#16 0x0300#16))) =
      some (some (.ok (.caps ⟨true, true, true, true, true, true⟩))) := by decide

/-- R91: at the IEEE layout `0x0300` gives no 1000 key. -/
theorem test_decLpCaps_ieee :
    field (fun t => t.result)
      (exec (.decLpCaps 0x0DE0#16 0x0300#16)
        { unboundOp (.decLpCaps 0x0DE0#16 0x0300#16) with params := { defaultParams with gstatLayout := .ieee } }) =
      some (some (.ok (.caps ⟨false, false, true, true, true, true⟩))) := by decide

/-- R96: link up but unresolved. -/
theorem test_decLinkStatus_unresolved :
    field (fun t => t.result) (exec (.decLinkStatus 0x0400#16) (unboundOp (.decLinkStatus 0x0400#16))) =
      some (some (.ok (.link ⟨.up, .s0, .unknown⟩))) := by decide

/-- R96: `0xFFFF` faults. -/
theorem test_decLinkStatus_fault :
    field (fun t => t.result) (exec (.decLinkStatus 0xFFFF#16) (unboundOp (.decLinkStatus 0xFFFF#16))) =
      some (some (.err .decodeFault)) := by decide

/-- 42_bus.md R120, the example. -/
theorem test_busRead :
    field (fun t => t.result) (exec (.busRead 2#8) (midOp (.busRead 2#8) 0 0#16 [.ack 0x4101#16] [])) =
      some (some (.ok (.word 0x0141#16))) := by decide

/-- 20_memory.md R54: `NoDevice` is code 1. -/
theorem test_busRead_noDevice :
    field (fun t => t.result) (exec (.busRead 2#8) (midOp (.busRead 2#8) 0 0#16 [.noDevice] [])) =
      some (some (.err .phyNotFoundNoDevice)) := by decide

/-- R121, the example: bus word `0x0080`. -/
theorem test_busWrite :
    field (fun t => t.log.drop 1)
      (exec (.busWrite 0#8 0x8000#16) (midOp (.busWrite 0#8 0x8000#16) 0 0#16 [] [.ack])) =
      some [.write 0x56#7 0#8 0x0080#16 .ack] := by decide

/-- 20_memory.md R55: `BusError` is code 3. -/
theorem test_busWrite_busError :
    field (fun t => t.result)
      (exec (.busWrite 0#8 0x8000#16) (midOp (.busWrite 0#8 0x8000#16) 0 0#16 [] [.busError])) =
      some (some (.err .phyAccessBus)) := by decide

/-! ### The step, the host and the fault codes -/

/-- 60_exceptions.md R122 and R123: numbers and classes. -/
theorem test_errCode_numbers :
    ErrCode.number .phyNotFoundNoDevice = 1 ∧ ErrCode.number .phyAccessResetTimeout = 4 ∧
    ErrCode.number .illegalOp = 8 ∧ ErrCode.errClass .decodeFault = .protocolFault ∧
    ErrCode.errClass .unsupportedSpeed = .usageFault := by decide

/-- The step runs the placed operation first. -/
theorem test_step_runs_placed_operation :
    field (fun t => t.result) (step (State.reset.withFetchWord 64 0x120000000000AC00)) =
      some (some (.ok (.link ⟨.up, .s1000, .full⟩))) := by decide

/-- 30_encoding.md R77. -/
theorem test_step_illegal :
    field (fun t => (t.result, t.log.length)) (step (State.reset.withFetchWord 64 0xFF00000000000000)) =
      some (some (.err .illegalOp), 2) := by decide

/-! ### Witnesses: states and operands that meet the hypotheses of each statement, clause by clause -/

theorem witness_EncodeOfDecodeIsTheDescriptor : ∃ i, decode 0x2002000000000000#64 = .ok i := ⟨.busRead 2#8, by decide⟩

theorem witness_ReservedOpValuesAreIllegal :
    (Descriptor.op 0x0000000000000000#64).toNat = 0x00 ∧ (Descriptor.op 0x0900000000000000#64).toNat = 0x09 ∧
    (Descriptor.op 0x0F00000000000000#64).toNat = 0x0F ∧ (Descriptor.op 0x1300000000000000#64).toNat = 0x13 ∧
    (Descriptor.op 0x1F00000000000000#64).toNat = 0x1F ∧ (Descriptor.op 0x2200000000000000#64).toNat = 0x22 ∧
    (Descriptor.op 0xFF00000000000000#64).toNat = 0xFF ∧ (0x08#8).toNat = 0x08 ∧ (0x12#8).toNat = 0x12 ∧
    (0x21#8).toNat = 0x21 := by
  decide

/-- The three kinds of the controller's turn. -/
theorem witness_StepRunsTheDecodedOperation :
    (ControllerTurn (midOp .getLpCaps 1 0#16 [] []) (midOp .getLpCaps 1 0#16 [] []) ∧
      (midOp .getLpCaps 1 0#16 [] []).busy = true ∧
      (midOp .getLpCaps 1 0#16 [] []).cur = some (encode .getLpCaps) ∧ decode (encode .getLpCaps) = .ok .getLpCaps) ∧
    ControllerTurn { midOp .getLpCaps 1 0#16 [] [] with host := [.issue 0#64] }
      { midOp .getLpCaps 1 0#16 [] [] with host := [.issue 0#64] } ∧
    ControllerTurn { midOp .getLpCaps 1 0#16 [] [] with host := [.wait] } (midOp .getLpCaps 1 0#16 [] []) :=
  ⟨⟨⟨by decide, .inl ⟨rfl, rfl⟩⟩, by decide⟩, ⟨by decide, .inr (.inl ⟨rfl, rfl, _, _, rfl⟩)⟩,
    by decide, .inr (.inr ⟨_, rfl, rfl⟩)⟩

theorem witness_IllegalDescriptorEndsAtOnce :
    ControllerTurn { State.reset with busy := true, cur := some 0#64 }
      { State.reset with busy := true, cur := some 0#64 } ∧
    decode 0#64 = .error .reservedOpcode :=
  ⟨⟨by decide, .inl ⟨rfl, rfl⟩⟩, by decide⟩

theorem witness_ResetBlockWaitsForTheHost :
    (ControllerTurn State.reset State.reset ∧ State.reset.busy = false) ∧
    ControllerTurn (hostDoes [.wait]) State.reset :=
  ⟨⟨⟨by decide, .inl ⟨rfl, rfl⟩⟩, rfl⟩, by decide, .inr (.inr ⟨_, rfl, rfl⟩)⟩

theorem witness_OfferedDescriptorsAreHeldThenAccepted :
    (∃ t, ({ midOp .softReset 2 0#16 [] [] with host := [.issue 0#64] } : State).busy = true ∧
      step { midOp .softReset 2 0#16 [] [] with host := [.issue 0#64] } = .next t) ∧
    ((hostDoes [.issue 0#64]).params.WellFormed ∧ (hostDoes [.issue 0#64]).busy = false) ∧
    LogBalanced State.reset ∧ ∃ t, step State.reset = .next t :=
  ⟨⟨_, rfl, rfl⟩, by decide, by unfold LogBalanced; decide, _, rfl⟩

theorem witness_ResetAbandonsTheOperation :
    ({ midOp .softReset 2 0#16 [] [] with host := [.reset] } : State).params.WellFormed ∧
    ({ midOp .softReset 2 0#16 [] [] with host := [.reset] } : State).host = [.reset] := by decide

theorem witness_HostReadsTheResult :
    ({ hostDoes [.readResult] with result := some (.ok .unit) } : State).params.WellFormed ∧
    ({ hostDoes [.readResult] with result := some (.ok .unit) } : State).host = [.readResult] ∧
    ({ hostDoes [.readResult] with result := some (.ok .unit) } : State).result = some (.ok .unit) := by decide

theorem witness_ModelFaultsOfTheHost :
    Params.problem { defaultParams with nPoll := 0 } = some .nPollZero ∧
    (hostDoes [.readResult]).params.WellFormed ∧ (hostDoes [.readResult]).result = none := by decide

theorem witness_OnlyIllFormedParametersAreRefused :
    step { State.reset with params := { defaultParams with nPoll := 0 } } =
      .refused (.illFormedParams .nPollZero) := rfl

theorem witness_ParameterChecks :
    ¬ Params.WellFormed { defaultParams with linkBit := 14 } ∧ ¬ Params.WellFormed { defaultParams with nPoll := 0 } ∧
    Params.WellFormed { defaultParams with nPoll := 1, linkBit := 0 } := by decide

theorem witness_ParametersNeverChange : ∃ t, step State.reset = .next t := ⟨_, rfl⟩

theorem witness_WireConversionSwapsBytes :
    defaultParams.wireSwap = true ∧ ({ defaultParams with wireSwap := false } : Params).wireSwap = false := by decide

theorem witness_AnswersComeInOrder :
    (midOp .identify 0 0#16 [.busError] [.noDevice]).phy.readScript = .busError :: [] ∧
    (midOp .identify 0 0#16 [.busError] [.noDevice]).phy.writeScript = .noDevice :: [] ∧
    (Phy.mk [] [] 0 0 (some (responder true .inf))).readScript = [] ∧
    (Phy.mk [] [] 0 0 (some (responder true .inf))).reference = some (responder true .inf) ∧
    Phy.oracle.readScript = [] ∧ Phy.oracle.writeScript = [] ∧ Phy.oracle.reference = none := by decide

theorem witness_ReferenceResponderRegisters :
    regsWf (responder true (.fin 0)).regs = true ∧ (responder false .inf).present = false ∧
    (responder true (.fin 1)).rstCount = .fin (0 + 1) ∧ (4#8 : RegNum) ≠ defaultParams.regCtrl ∧
    (17#8 : RegNum) ∈ [defaultParams.regId1, defaultParams.regId2, defaultParams.regAnlpar, defaultParams.regGstat,
      defaultParams.regPssr] ∧
    (0#8 : RegNum) ∉ [defaultParams.regId1, defaultParams.regId2, defaultParams.regAnlpar, defaultParams.regGstat,
      defaultParams.regPssr] := by decide

theorem witness_FailedReadEndsWithItsCode :
    (midOp .softReset 3 0#16 [.noDevice] []).kind = some .kModeled ∧
    microStep .kModeled .softReset (midOp .softReset 3 0#16 [.noDevice] []) = .read 0#8 ∧
    readAnswer 0#8 (midOp .softReset 3 0#16 [.noDevice] []) = .noDevice ∧
    readAnswer 0#8 (midOp .softReset 3 0#16 [.busError] []) = .busError ∧
    isDriverOp (.busRead 5#8) = false ∧
    microStep .kModeled (.busRead 5#8) (midOp (.busRead 5#8) 0 0#16 [.noDevice] []) = .read 5#8 := by decide

theorem witness_FailedWriteEndsWithItsCode :
    (midOp .softReset 1 0x1140#16 [] [.noDevice]).kind = some .kModeled ∧
    microStep .kModeled .softReset (midOp .softReset 1 0x1140#16 [] [.noDevice]) = .write 0#8 0x9140#16 ∧
    writeAnswer 0#8 0x9140#16 (midOp .softReset 1 0x1140#16 [] [.noDevice]) = .noDevice ∧
    writeAnswer 0#8 0x9140#16 (midOp .softReset 1 0x1140#16 [] [.busError]) = .busError := by decide

theorem witness_UnansweredTransactionIsNotEnabled :
    microStep .kModeled .identify (midOp .identify 0 0#16 [.silent] []) = .read 2#8 ∧
    readAnswer 2#8 (midOp .identify 0 0#16 [.silent] []) = .silent ∧
    microStep .kModeled .softReset (midOp .softReset 1 0x1140#16 [] [.silent]) = .write 0#8 0x9140#16 ∧
    writeAnswer 0#8 0x9140#16 (midOp .softReset 1 0x1140#16 [] [.silent]) = .silent := by decide

theorem witness_MicroStepsFollowTheirListing :
    microStep .kModeled .getLpCaps (midOp .getLpCaps 2 0#16 [] []) = .off ∧
    (microStep .kModeled .getLpCaps (midOp .getLpCaps 1 0#16 [.ack 7#16] []) = .read 10#8 ∧
      readAnswer 10#8 (midOp .getLpCaps 1 0#16 [.ack 7#16] []) = .ack 7#16) ∧
    (microStep .kModeled .enableSgmii (midOp .enableSgmii 1 0#16 [] [.ack]) = .write 27#8 0x8004#16 ∧
      writeAnswer 27#8 0x8004#16 (midOp .enableSgmii 1 0#16 [] [.ack]) = .ack) ∧
    microStep .kModeled .enableSgmii (midOp .enableSgmii 14 0#16 [] []) = .wait ∧
    microStep .kModeled .isSgmiiCapable (midOp .isSgmiiCapable 0 0#16 [] []) = .internal := by decide

theorem witness_TransactionsStayInTheRegisterMap :
    ∃ t, exec (.busRead 5#8) (midOp (.busRead 5#8) 0 0#16 [.ack 7#16] []) = .next t := ⟨_, rfl⟩

theorem witness_UnboundDriverOperationsFault :
    isDriverOp .softReset = true ∧ (unboundOp .softReset).kind = none := by decide

theorem witness_IdentifyBindsByDirectoryMatch :
    ((midOp .identify 0 0#16 [.ack 0x4101#16] []).upc = 0 ∧
      readAnswer 2#8 (midOp .identify 0 0#16 [.ack 0x4101#16] []) = .ack 0x4101#16) ∧
    (readAnswer 3#8 (midOp .identify 1 0x0141#16 [.ack 0xC20C#16] []) = .ack 0xC20C#16 ∧
      dirMatch defaultDirectory (0x0141#16 ++ fromWire defaultParams 0xC20C#16) =
        some ⟨0x01410CC0#32, 0xFFFFFFF0#32, .kModeled⟩) ∧
    dirMatch defaultDirectory (0x0141#16 ++ fromWire defaultParams 0xD20C#16) = none := by decide

theorem witness_IdIsAssembledFromRegisterBytes :
    (defaultParams.wireSwap = true ∧
      assembleId (fromWire defaultParams 0x4101#16) (fromWire defaultParams 0xC20C#16) = 0x01410CC2#32) ∧
    ({ defaultParams with wireSwap := false } : Params).wireSwap = false := by decide

theorem witness_OnlyIdentifyWritesTheBinding :
    (∃ t, exec .softReset (midOp .softReset 2 0#16 [] []) = .next t) ∧
    (∃ t, exec .identify (midOp .identify 0 0#16 [.busError] []) = .next t) ∧
    field (fun t => t.log.head?) (exec .identify (midOp .identify 1 0x0141#16 [.ack 0xC20C#16] [])) =
      some (some (.done (.ok (.idKind 0x01410CC2#32 .kModeled)))) :=
  ⟨⟨_, rfl⟩, ⟨_, rfl⟩, by decide⟩

theorem witness_SgmiiCapabilityOfTheKind : (midOp .isSgmiiCapable 0 0#16 [] []).kind = some .kModeled := by decide

theorem witness_EnableSgmiiMicroSteps :
    (midOp .enableSgmii 0 0#16 [.ack 0#16] []).kind = some .kModeled ∧
    readAnswer 27#8 (midOp .enableSgmii 0 0#16 [.ack 0x8B84#16] []) = .ack 0x8B84#16 ∧
    writeAnswer 27#8 0x8484#16 (midOp .enableSgmii 1 0x848B#16 [] [.ack]) = .ack ∧
    (line .enableSgmii (sgmiiAt 5 .waitEnded 0 0#16 [.ack 0x4011#16]) = 5 ∧
      readAnswer 0#8 (sgmiiAt 5 .waitEnded 0 0#16 [.ack 0x4011#16]) = .ack 0x4011#16 ∧
      resetBit defaultParams 0x4011#16 = false) ∧
    line .enableSgmii (midOp .enableSgmii 27 0#16 [.ack 0x4011#16] []) = 15 ∧
    readAnswer 0#8 (midOp .enableSgmii 27 0#16 [.ack 0x4011#16] []) = .ack 0x4011#16 ∧
    (readAnswer 0#8 (midOp .enableSgmii 27 0#16 [.ack 0x4091#16] []) = .ack 0x4091#16 ∧
      resetBit defaultParams 0x4091#16 = true ∧ 5 + 1 < defaultParams.nPoll ∧ defaultParams.nPoll ≤ 6 + 1) := by decide

theorem witness_SoftResetMicroSteps :
    readAnswer 0#8 (midOp .softReset 0 0#16 [.ack 0x4011#16] []) = .ack 0x4011#16 ∧
    (0 < defaultParams.nPoll ∧ writeAnswer 0#8 0x9140#16 (midOp .softReset 1 0x1140#16 [] [.ack]) = .ack) ∧
    line .softReset (midOp .softReset 2 0#16 [] []) = 2 ∧
    line .softReset (midOp .softReset 15 0#16 [] []) = 3 ∧
    (readAnswer 0#8 (midOp .softReset 3 0#16 [.ack 0x4011#16] []) = .ack 0x4011#16 ∧
      resetBit defaultParams 0x4011#16 = false) ∧
    (resetBit defaultParams 0x4091#16 = true ∧ 5 + 1 < defaultParams.nPoll ∧ defaultParams.nPoll ≤ 6 + 1) := by decide

/-- Where the lines of ENABLE_SGMII meet (R106, R108): before and in the first poll loop; after its first poll read, the
bit set and clear; one on, after a wait and after a read; and where the last poll read and the second loop are. -/
theorem witness_MicroSteps_lines :
    [sgmiiAt 3 .idle 5 0#16 [], sgmiiAt 4 .idle 0 0#16 [], sgmiiAt 5 .waitEnded 0 0#16 []].map (line .enableSgmii) =
      [3, 4, 5] ∧
    [sgmiiAt 6 .idle 1 0x9140#16 [], sgmiiAt 6 .idle 1 0x1140#16 [], sgmiiAt 7 .waitEnded 1 0x9140#16 [],
      sgmiiAt 7 .idle 1 0x9140#16 []].map (line .enableSgmii) = [4, 6, 5, 7] ∧
    [sgmiiAt 13 .idle 1 0#16 [], sgmiiAt 14 .idle 0 0#16 [], sgmiiAt 17 .waitEnded 6 0x9140#16 [],
      sgmiiAt 18 .idle 7 0x1140#16 [], sgmiiAt 39 .waitEnded 6 0x9140#16 []].map (line .enableSgmii) =
      [13, 14, 5, 6, 15] := by decide

/-- The ten elements of R23 alone: every other field as at reset. -/
def elements (s : State) : State :=
  { s with
    params := defaultParams, busHeld := false, host := [], replies := [], phy := Phy.oracle, pollTimer := .idle
    log := [] }

/-- Log entry 2: the wait before a second poll, and the read of `ANAR` past the first soft reset, leave all ten elements
of R23 the same, where the label was left by an earlier run. The poll timer tells the poll read from the write of `ANAR`
(R16, R108, R111). -/
theorem test_elements_cannot_tell :
    field elements (exec .enableSgmii (sgmiiAt 6 .idle 1 0x9140#16 [])) =
      field elements (exec .enableSgmii (sgmiiAt 6 .idle 1 0x1140#16 [.ack 0x4091#16])) ∧
    field (line .enableSgmii) (exec .enableSgmii (sgmiiAt 6 .idle 1 0x9140#16 [])) = some 5 ∧
    field (line .enableSgmii) (exec .enableSgmii (sgmiiAt 6 .idle 1 0x1140#16 [.ack 0x4091#16])) = some 7 := by decide

/-- A poll read that is not answered leaves the wait before it done (R108, R154, R155). -/
theorem test_wait_stands_alone :
    exec .enableSgmii (sgmiiAt 7 .waitEnded 1 0x9140#16 [.silent]) = .next (sgmiiAt 7 .waitEnded 1 0x9140#16 []) := rfl

/-- Where R23's range has no room for more polls (log entry 22). -/
theorem witness_MicroSteps_topOfRange :
    [sgmiiAt 54 .idle 40 0x9140#16 [], sgmiiAt 55 .waitEnded 40 0x9140#16 [],
      sgmiiAt 55 .idle 40 0x9140#16 []].map (line .enableSgmii) = [4, 5, 7] ∧
    [62, 63].map (fun u => line .softReset (midOp .softReset u 0x9140#16 [] [])) = [2, 3] ∧
    polledUpc .enableSgmii 2 55 = 54 ∧ polledUpc .enableSgmii 12 63 = 62 ∧ polledUpc .softReset 0 63 = 62 ∧
    polledUpc .softReset 0 61 = 62 := by decide

theorem witness_SetAutonegCapsMicroSteps :
    writeAnswer 4#8 0x0DE1#16 (midOp (.setAutonegCaps allCaps) 1 0x01E1#16 [] [.ack]) = .ack ∧
    writeAnswer 9#8 0x0300#16 (midOp (.setAutonegCaps allCaps) 3 0#16 [] [.ack]) = .ack ∧
    writeAnswer 0#8 0x1140#16 (midOp (.setAutonegCaps allCaps) 5 0x0140#16 [] [.ack]) = .ack ∧
    (readAnswer 0#8 (midOp (.setAutonegCaps allCaps) 9 0#16 [.ack 0x4011#16] []) = .ack 0x4011#16 ∧
      resetBit defaultParams 0x4011#16 = false) ∧
    (readAnswer 0#8 (midOp (.setAutonegCaps allCaps) 9 0#16 [.ack 0x4091#16] []) = .ack 0x4091#16 ∧
      resetBit defaultParams 0x4091#16 = true ∧ 5 + 1 < defaultParams.nPoll ∧ defaultParams.nPoll ≤ 6 + 1) := by decide

theorem witness_PartnerCapabilitiesAreReadAndDecoded :
    readAnswer 5#8 (midOp .getLpCaps 0 0#16 [.ack 0xE1C5#16] []) = .ack 0xE1C5#16 ∧
    readAnswer 10#8 (midOp .getLpCaps 1 0xC5E1#16 [.ack 0x003C#16] []) = .ack 0x003C#16 := by decide

theorem witness_LinkStatusIsReadAndDecoded :
    (readAnswer 17#8 (midOp .getLinkStatus 0 0#16 [.ack 0x00AC#16] []) = .ack 0x00AC#16 ∧
      decodeLinkStatus defaultParams (fromWire defaultParams 0x00AC#16) = .ok ⟨.up, .s1000, .full⟩) ∧
    decodeLinkStatus defaultParams (fromWire defaultParams 0x00EC#16) = .error .decodeFault := by decide

theorem witness_ForcedModeWritesTheTableValue :
    (midOp (.setSpeedDuplex 10#16 .half) 0 0#16 [] [.ack]).kind = some .kModeled ∧
    writeAnswer 0#8 0x0000#16 (midOp (.setSpeedDuplex 10#16 .half) 0 0#16 [] [.ack]) = .ack ∧
    writeAnswer 0#8 0x0140#16 (midOp (.setSpeedDuplex 1000#16 .other) 0 0#16 [] [.ack]) = .ack ∧
    (0#16 ≠ 1000#16 ∧ 0#16 ≠ 100#16 ∧ 0#16 ≠ 10#16) := by decide

/-- One status word for each clause of the table: up and resolved at each speed, the fault pattern, and both ways of not
being meaningful. -/
theorem witness_LinkStatusDecodeTable :
    decodeLinkStatus defaultParams 0x0C00#16 = .ok ⟨.up, .s10, .half⟩ ∧
    decodeLinkStatus defaultParams 0x6C00#16 = .ok ⟨.up, .s100, .full⟩ ∧
    decodeLinkStatus defaultParams 0x8C00#16 = .ok ⟨.up, .s1000, .half⟩ ∧
    decodeLinkStatus defaultParams 0xCC00#16 = .error .decodeFault ∧
    decodeLinkStatus defaultParams 0x8400#16 = .ok ⟨.up, .s0, .unknown⟩ ∧
    decodeLinkStatus defaultParams 0xC800#16 = .ok ⟨.down, .s0, .unknown⟩ ∧
    decodeLinkStatus { defaultParams with decodeFaultScope := .always } 0xC000#16 = .error .decodeFault := by decide

theorem witness_ProducedStatusObeysTheInvariant :
    field (fun t => t.log.head?) (exec (.decLinkStatus 0x0800#16) (unboundOp (.decLinkStatus 0x0800#16))) =
      some (some (.done (.ok (.link ⟨.down, .s0, .unknown⟩)))) ∧
    ¬ (LinkState.down = .up ∧ (0x0800#16).getLsbD 11 = true) := by decide

theorem witness_StatusBitsAreDecoded :
    decodeLinkStatus defaultParams 0x0400#16 = .ok ⟨.up, .s0, .unknown⟩ ∧
    decodeLinkStatus defaultParams 0xFFFF#16 = .error .decodeFault := by decide

theorem witness_EncodeThenDecodeReturnsTheSet :
    defaultParams.gstatLayout = .inverse ∧
    ({ defaultParams with gstatLayout := .ieee } : Params).gstatLayout = .ieee := by decide

theorem witness_ReadModifyWritePreservesOtherBits :
    0x8004#16 &&& ~~~0x800F#16 = 0#16 ∧ 15 < 16 ∧ (0x800F#16).getLsbD 15 = true ∧ (0x800F#16).getLsbD 4 = false := by
  decide

theorem witness_BusReadReturnsTheRegister :
    readAnswer 255#8 (midOp (.busRead 255#8) 0 0#16 [.ack 7#16] []) = .ack 7#16 := by decide

theorem witness_BusWriteSendsTheValue :
    writeAnswer 0#8 0x8000#16 (unboundOp (.busWrite 0#8 0x8000#16)) = Config.freeWrite 0 0 ∧
    writeAnswer 0#8 0x8000#16 (midOp (.busWrite 0#8 0x8000#16) 0 0#16 [] [.ack]) = .ack := ⟨rfl, by decide⟩

theorem witness_LabelTransitions :
    (field (fun t => t.log.head?)
      (exec .getLinkStatus { midOp .getLinkStatus 0 0#16 [.ack 0x00AC#16] [] with fsm := .linkDown }) =
      some (some (.done (.ok (.link ⟨.up, .s1000, .full⟩))))) ∧
    field (fun t => t.log.head?) (exec .identify (midOp .identify 0 0#16 [.noDevice] [])) =
      some (some (.done (.err .phyNotFoundNoDevice))) ∧
    (readAnswer 2#8 (midOp .identify 0 0#16 [.noDevice] []) ≠ .silent ∧
      (∃ t, exec .identify (midOp .identify 1 0#16 [.noDevice] []) = .next t)) ∧
    line .enableSgmii (sgmiiAt 5 .waitEnded 0 0#16 [.ack 0x4011#16]) = 5 ∧
    readAnswer 0#8 (sgmiiAt 5 .waitEnded 0 0#16 [.ack 0x4011#16]) = .ack 0x4011#16 ∧
    resetBit defaultParams 0x4011#16 = false ∧
    field (·.log) (exec (.setAutonegCaps allCaps) (midOp (.setAutonegCaps allCaps) 6 0#16 [.ack 0x4011#16] [])) =
      some [.read 0x56#7 0#8 (.ack 0x4011#16)] :=
  ⟨by decide, by decide, ⟨by decide, _, rfl⟩, by decide⟩

/-- What makes a busy state one of the invariant, for the operation in `cur`. -/
theorem inv_running (i : Instr) {s : State} (hd : decode (encode i) = .ok i) (hc : s.cur = some (encode i))
    (hr : s.result = none ∨ s.result = some (.ok .unit)) (hf : ∀ f, s.phy.reference = some f → regsWf f.regs = true)
    (h : s.params.WellFormed ∧ s.busy = true ∧ line i s < seqLength i ∧
      s.upc.val = doneSinceAccept s.log ∧
      doneSinceAccept s.log ≤ doneMost i s.params.nPoll (line i s) s.poll ∧
      doneSinceAccept s.log < 12 + 4 * s.params.nPoll ∧
      ((i = .identify → s.upc = 1 → s.fsm = .uninitialized ∧ s.kind = none) ∧
        (i = .enableSgmii → 6 ≤ line i s → s.fsm = .sgmiiProbed)) ∧
      s.poll ≤ s.params.nPoll ∧ (polling i (line i s) = true → s.poll < s.params.nPoll) ∧
      (s.pollTimer = .waitEnded ↔ pollRead i (line i s) = true) ∧
      s.phyId.bind (fun id => (dirMatch s.params.directory id).map (·.kind)) = s.kind ∧
      s.kind.isSome = s.phyId.isSome) : Inv s := by
  obtain ⟨hp, hb, hl, hn, hu, hw, hwr, hpo, hps, hpt, hbi, hbo⟩ := h
  have cur : ∀ d, s.cur = some d → d = encode i := fun d h => Option.some.inj (h.symm.trans hc)
  refine ⟨hp, by rw [hb, hc]; rfl, fun _ => hb, ?_, fun _ _ => hn, ?_, fun _ => hw, ?_, hpo, ?_, ?_,
    fun h => absurd (hb.symm.trans h) (by decide), hbi, hbo, ?_, hf⟩
  · intro d h
    simpa [cur d h, lineAt, listingLength, hd] using hl
  · intro d h
    simpa [cur d h, lineAt, doneMostAt, hd] using hu
  · intro d j h hj
    rw [cur d h] at hj ⊢
    cases hd.symm.trans hj
    simpa [lineAt, hd] using hwr
  · intro d h
    simpa [cur d h, lineAt, pollingAt, hd] using hps
  · intro d h
    simpa [cur d h, lineAt, pollReadAt, hd] using hpt
  · intro r h ls hls
    subst hls
    rcases hr with hr | hr <;> rw [hr] at h <;> cases h

/-- States of the invariant in which the last clauses of the label statement begin: IDENTIFY at its first micro-step,
and ENABLE_SGMII past its first soft reset, with an answer that ends it. -/
theorem witness_LabelTransitions_running :
    (Inv (midOp .identify 0 0#16 [.noDevice] []) ∧
      ∃ t, exec .identify (midOp .identify 0 0#16 [.noDevice] []) = .next t ∧
        Ended (.err .phyNotFoundNoDevice) t) ∧
    Inv (sgmiiAt 18 .idle 7 0x1140#16 [.noDevice]) ∧
      ∃ t, exec .enableSgmii (sgmiiAt 18 .idle 7 0x1140#16 [.noDevice]) = .next t ∧
        Ended (.err .phyNotFoundNoDevice) t :=
  ⟨⟨inv_running .identify (by decide) rfl (.inl rfl) (by intro f h; cases h) (by decide),
      _, rfl, by unfold Ended; decide⟩,
    inv_running .enableSgmii (by decide) rfl (.inl rfl) (by intro f h; cases h) (by decide),
    _, rfl, by unfold Ended; decide⟩

/-- Two blocks that differ in the label alone, at the place where the ten elements do not tell the next micro-step. -/
theorem witness_LabelTransitions_label :
    SameButLabel (sgmiiAt 7 .waitEnded 1 0x9140#16 []) { sgmiiAt 7 .waitEnded 1 0x9140#16 [] with fsm := .linkUp } :=
  rfl

theorem witness_FaultCodesAreTheTables :
    field (fun t => t.log.head?) (exec .softReset (unboundOp .softReset)) = some (some (.done (.err .notBound))) ∧
    ErrCode.notBound ∈ mayRaise .softReset ∧
    ControllerTurn { State.reset with busy := true, cur := some 0#64 }
      { State.reset with busy := true, cur := some 0#64 } ∧
    decode 0#64 = .error .reservedOpcode :=
  ⟨by decide, by decide, ⟨by decide, .inl ⟨rfl, rfl⟩⟩, by decide⟩

/-- A bound block at the seventh wait of a soft reset, a result in place. -/
def atLastWait : State :=
  { midOp .softReset 14 0x9140#16 [] [] with
    poll := 6, result := some (.ok .unit), busHeld := true, log := counts 14 }

theorem inv_atLastWait : Inv atLastWait :=
  inv_running .softReset (by decide) rfl (.inr rfl) (by intro f h; cases h) (by decide)

theorem witness_EveryStepKeepsTheInvariant : Inv atLastWait ∧ ∃ t, step atLastWait = .next t :=
  ⟨inv_atLastWait, _, rfl⟩

theorem witness_NoStopUnderTheInvariant : Inv atLastWait := inv_atLastWait

/-- With a reference responder attached every transaction is answered. -/
theorem witness_EveryOperationEnds :
    Inv { atLastWait with phy := ⟨[], [], 0, 0, some (responder true (.fin 0))⟩ } ∧
    Phy.Answers ⟨[], [], 0, 0, some (responder true (.fin 0))⟩ ∧
    HostQuiet atLastWait ∧ atLastWait.busy = true :=
  ⟨inv_running .softReset (by decide) rfl (.inr rfl) (by intro f h; cases h; decide) (by decide),
    ⟨(by intro a h; cases h), (by intro a h; cases h), .inl rfl⟩, rfl, rfl⟩

/-- Two polls: the reset bit set, then clear. -/
theorem pollsToClear_two : PollsToClear defaultParams [0x4091#16, 0x4011#16] :=
  by
  refine ⟨[0x4091#16], 0x4011#16, rfl, ?_, by decide, by decide⟩
  intro w h
  rw [List.mem_singleton.mp h]
  decide

theorem witness_SoftResetReturnsAtTheFirstClearPoll :
    Accepted .softReset (midOp .softReset 0 0#16 [.ack 0x4011#16, .ack 0x4091#16, .ack 0x4011#16] [.ack]) ∧
    HostQuiet (midOp .softReset 0 0#16 [.ack 0x4011#16, .ack 0x4091#16, .ack 0x4011#16] [.ack]) ∧
    PollsToClear defaultParams [0x4091#16, 0x4011#16] :=
  ⟨⟨by decide, rfl, rfl, rfl⟩, rfl, pollsToClear_two⟩

theorem witness_SoftResetTimesOutAfterTheBudget :
    Accepted .softReset (midOp .softReset 0 0#16 (.ack 0x4011#16 :: List.replicate 7 (.ack 0x4091#16)) [.ack]) ∧
    (List.replicate 7 0x4091#16).length = defaultParams.nPoll ∧
    ∀ v ∈ List.replicate 7 0x4091#16, resetBit defaultParams v = true :=
  ⟨⟨by decide, rfl, rfl, rfl⟩, rfl, fun v h => by rw [(List.mem_replicate.mp h).2]; decide⟩

/-- The loop clauses of the same statement, for each soft reset of the two other operations that do one: a poll read,
and the first wait. -/
theorem witness_EverySoftResetTimesOut :
    (2 ∈ resetBases .enableSgmii ∧ 12 ∈ resetBases .enableSgmii ∧ 6 ∈ resetBases (.setAutonegCaps allCaps)) ∧
    (line .enableSgmii (sgmiiAt 17 .waitEnded 6 0x9140#16 []) = 2 + 3 ∧
      line .enableSgmii (sgmiiAt 39 .waitEnded 6 0x9140#16 []) = 12 + 3 ∧
      line (.setAutonegCaps allCaps) (midOp (.setAutonegCaps allCaps) 21 0#16 [] []) = 6 + 3) ∧
    (line .enableSgmii (sgmiiAt 4 .idle 0 0#16 []) = 2 + 2 ∧
      line .enableSgmii (sgmiiAt 26 .idle 0 0#16 []) = 12 + 2 ∧
      line (.setAutonegCaps allCaps) (midOp (.setAutonegCaps allCaps) 8 0#16 [] []) = 6 + 2) ∧
    (midOp .enableSgmii 4 0#16 [] []).poll = 0 ∧ (midOp .enableSgmii 4 0#16 [] []).params.WellFormed ∧
    (midOp .enableSgmii 4 0#16 [] []).cur = some (encode .enableSgmii) := by decide

theorem witness_SetAutonegCapsWholeRun :
    Accepted (.setAutonegCaps allCaps)
      (midOp (.setAutonegCaps allCaps) 0 0#16
        ([.ack 0xE101#16, .ack 0#16, .ack 0x4011#16, .ack 0x4011#16] ++
          ([0x4091#16, 0x4011#16].map ReadAnswer.ack ++ [])) [.ack, .ack, .ack, .ack]) ∧
    PollsToClear defaultParams [0x4091#16, 0x4011#16] :=
  ⟨⟨by decide, rfl, rfl, rfl⟩, pollsToClear_two⟩

theorem witness_EnableSgmiiWholeRun :
    Accepted .enableSgmii
      (midOp .enableSgmii 0 0#16
        ([.ack 0x8B84#16, .ack 0x4011#16] ++ ([0x4091#16, 0x4011#16].map ReadAnswer.ack ++
          ([.ack 0xE101#16, .ack 0#16, .ack 0x4011#16, .ack 0x4011#16] ++
            ([0x4091#16, 0x4011#16].map ReadAnswer.ack ++ [])))) [.ack, .ack, .ack, .ack, .ack, .ack]) ∧
    PollsToClear defaultParams [0x4091#16, 0x4011#16] :=
  ⟨⟨by decide, rfl, rfl, rfl⟩, pollsToClear_two⟩

theorem witness_ScratchNeverCarriesOver :
    (SameButScratch State.reset { State.reset with tmp := 7#16, tmp2 := 8#16, poll := 5 } ∧
      State.reset.busy = false) ∧
    SameButScratch (midOp .softReset 0 0#16 [] []) (midOp .softReset 0 7#16 [] []) ∧
    (midOp .softReset 0 0#16 [] []).upc = 0 :=
  ⟨⟨rfl, rfl⟩, rfl, rfl⟩

/-- PHYLINKSTATUS reaches the blocks of the present ports 0 and 2 alone (30_encoding.md R83); the status words are those
of 40_codec.md R93, in wire order (20_memory.md R52): 0xAC00, and nothing set. -/
theorem test_phyLinkStatus_every_present_port :
    (match serveCommand 2 [0, 2] .phyLinkStatus [idleBound 0x00AC#16, idleBound 0x00AC#16, idleBound 0#16] with
      | .next after => some (commandReplies [0, 2] .phyLinkStatus after, after[1]? == some (idleBound 0x00AC#16))
      | _ => none) =
    some ([(0, some (.status ⟨.up, .s1000, .full⟩)), (2, some (.status ⟨.down, .s0, .unknown⟩))], true) := by decide

theorem witness_InstancesShareNothing :
    (∃ after, systemStep 0 (systemReset [defaultParams, defaultParams]) = .next after) ∧
    (∃ t, step (blockAtReset 1 defaultParams) = .next t) ∧
    (systemReset [defaultParams, defaultParams])[1]? = some (blockAtReset 1 defaultParams) ∧
    (1 ∈ commandPorts [1] .phyLinkStatus ∧ 0 ∉ commandPorts [1] .phyLinkStatus) ∧
    commandPorts [1] (.phyAutonegSet 0 allCaps) = [0] ∧
    commandPorts [1] (.phySpeedDuplexSet 0 100#16 .full) = [0] :=
  ⟨⟨_, rfl⟩, ⟨_, rfl⟩, rfl, by decide, rfl, rfl⟩

theorem witness_PseudoOperationsExpand :
    Value.unit ≠ .flag true ∧ Value.flag false ≠ .flag true ∧ 1 ≠ 0 ∧ 3 ≤ 3 := by decide

end Sys2Proof.Tests
end

section
/-! PROOFS. The invariant (O51), first part: its clauses apart, those an idle block meets too and those of the operation
in progress; and what a decoded link status can be (00_scope.md R15). -/

namespace Sys2Proof.Machine

/-! ### The invariant in two parts -/

/-- The clauses of the invariant that speak of no operation in progress. -/
structure Settled (s : State) : Prop where
  params : s.params.WellFormed
  poll : s.poll ≤ s.params.nPoll
  binding : s.phyId.bind (fun id => (dirMatch s.params.directory id).map (·.kind)) = s.kind
  bound : s.kind.isSome = s.phyId.isSome
  result : ∀ r, s.result = some r → r.Valid
  regs : s.phy.RegsWf

/-- The clauses of the invariant that speak of the operation `i` in progress. -/
structure Running (i : Instr) (s : State) : Prop where
  line : line i s < seqLength i
  counted : s.params.nPoll ≤ 13 → Counted s
  done : doneSinceAccept s.log ≤ doneMost i s.params.nPoll (Machine.line i s) s.poll
  cleared : i = .identify → s.upc = 1 → s.fsm = .uninitialized ∧ s.kind = none
  probed : i = .enableSgmii → 6 ≤ Machine.line i s → s.fsm = .sgmiiProbed
  polls : polling i (Machine.line i s) = true → s.poll < s.params.nPoll
  waited : s.pollTimer = .waitEnded ↔ pollRead i (Machine.line i s) = true

/-- No line of an operation, with polls left where it polls, allows as many transactions and waits as R118's bound. -/
theorem doneMost_lt {i : Instr} {n l poll : Nat} (hn : 0 < n) (hl : l < seqLength i)
    (hp : polling i l = true → poll < n) : doneMost i n l poll < 12 + 4 * n := by
  have hlen : seqLength i ≤ 16 := by cases i <;> simp [seqLength]
  unfold doneMost
  by_cases h : polling i l = true
  · have := hp h
    rw [if_pos h]
    split_ifs <;> omega
  · rw [if_neg h]
    split_ifs <;> omega

theorem Running.below {i : Instr} {s : State} (h : Running i s) (hw : s.params.WellFormed) :
    doneSinceAccept s.log < 12 + 4 * s.params.nPoll :=
  Nat.lt_of_le_of_lt h.done (doneMost_lt (Params.WellFormed.nPoll_pos hw) h.line h.polls)

theorem Inv.settled {s : State} (h : Inv s) : Settled s :=
  ⟨h.params, h.poll, h.binding, h.bound, h.result, h.regs⟩

theorem Inv.running {s : State} {d : Descriptor} {i : Instr} (h : Inv s) (hc : s.cur = some d)
    (hd : decode d = .ok i) : Running i s where
  line := by simpa [lineAt, listingLength, hd] using h.line d hc
  counted := h.counted (by rw [h.cur, hc]; rfl)
  done := by simpa [lineAt, doneMostAt, hd] using h.done d hc
  cleared := (h.written d i hc hd).1
  probed := by simpa [lineAt, hd] using (h.written d i hc hd).2
  polls := by simpa [lineAt, pollingAt, hd] using h.polls d hc
  waited := by simpa [lineAt, pollReadAt, hd] using h.waited d hc

/-- A busy state in which both parts hold. -/
theorem Running.inv {s : State} {d : Descriptor} {i : Instr} (h : Running i s) (hs : Settled s)
    (hb : s.busy = true) (hc : s.cur = some d) (hd : decode d = .ok i) : Inv s := by
  have only : ∀ e, s.cur = some e → e = d := fun e he => Option.some.inj (he.symm.trans hc)
  refine ⟨hs.params, by rw [hb, hc]; rfl, fun _ => hb, ?line, fun _ => h.counted, ?done,
    fun _ => h.below hs.params, ?written, hs.poll, ?polls, ?waited, fun h' => absurd (hb.symm.trans h') (by decide),
    hs.binding, hs.bound, hs.result, hs.regs⟩
  case written =>
    intro e j he hj
    rw [only e he] at hj ⊢
    cases hd.symm.trans hj
    exact ⟨h.cleared, by simpa [lineAt, hd] using h.probed⟩
  all_goals
    intro e he
    rw [only e he]
  case line => simpa [lineAt, listingLength, hd] using h.line
  case done => simpa [lineAt, doneMostAt, hd] using h.done
  case polls => simpa [lineAt, pollingAt, hd] using h.polls
  case waited => simpa [lineAt, pollReadAt, hd] using h.waited

/-- An idle state in which the first part holds. -/
theorem Settled.inv {s : State} (h : Settled s) (hb : s.busy = false) (hc : s.cur = none) (hh : s.busHeld = false)
    (ht : s.pollTimer = .idle) : Inv s := by
  refine ⟨h.params, by simp [hb, hc], ?_, ?_, ?_, ?_, ?_, ?_, h.poll, ?_, ?_, fun _ => ht, h.binding, h.bound,
    h.result, h.regs⟩ <;> simp [hb, hc, hh]

/-- The first part is about six fields. -/
theorem Settled.of_fields {s u : State} (h : Settled s) (hp : u.params = s.params) (hn : u.poll ≤ s.params.nPoll)
    (hk : u.kind = s.kind) (hi : u.phyId = s.phyId) (hr : u.result = s.result) (hy : u.phy.RegsWf) : Settled u := by
  obtain ⟨h1, -, h3, h4, h5, -⟩ := h
  exact ⟨hp ▸ h1, hp ▸ hn, by rw [hi, hk, hp, h3], by rw [hk, hi, h4], hr ▸ h5, hy⟩

/-- The end of an operation leaves an idle state of the invariant. -/
theorem Settled.finish {s : State} {r : Result} (h : Settled s) (hr : r.Valid) : Inv (finish r s) := by
  obtain ⟨h1, h2, h3, h4, -, h6⟩ := h
  refine Settled.inv ⟨h1, h2, h3, h4, ?_, h6⟩ rfl rfl rfl rfl
  rintro _ ⟨⟩
  exact hr

/-! ### What a link status can be -/

/-- A decoded link status has its speed and duplex when the link is up and resolved, and else neither (40_codec.md
R93). -/
theorem decodeLinkStatus_cases {p : Params} {b : Word16} {ls : LinkStatus} (h : decodeLinkStatus p b = .ok ls) :
    (∃ speed, speedOf b = some speed ∧ resolvedBitOf p b = true ∧ ls = ⟨.up, speed, duplexBitOf p b⟩) ∨
      ls = unresolvedStatus (linkBitOf p b) := by
  unfold decodeLinkStatus at h
  split at h
  · split at h <;> cases h
    exact .inr rfl
  · next speed hs =>
    split at h <;> cases h
    · next hb => exact .inl ⟨speed, hs, hb.2, rfl⟩
    · exact .inr rfl

theorem speedOf_ne_s0 {b : Word16} {speed : LinkSpeed} (h : speedOf b = some speed) : speed ≠ .s0 := by
  unfold speedOf at h
  split at h <;> cases h <;> decide

theorem duplexBitOf_ne_unknown (p : Params) (b : Word16) : duplexBitOf p b ≠ .unknown := by
  unfold duplexBitOf
  split <;> decide

theorem decodeLinkStatus_valid {p : Params} {b : Word16} {ls : LinkStatus} (h : decodeLinkStatus p b = .ok ls) :
    ls.Valid := by
  rcases decodeLinkStatus_cases h with ⟨speed, hs, -, rfl⟩ | rfl
  · simp [LinkStatus.Valid, speedOf_ne_s0 hs, duplexBitOf_ne_unknown]
  · simp [LinkStatus.Valid, unresolvedStatus]

theorem Result.valid_of_ne_link {r : Result} (h : ∀ ls, r ≠ .ok (.link ls)) : r.Valid :=
  fun ls hr => absurd hr (h ls)

theorem InternalEnd.valid {p : Params} {i : Instr} {r : Result} (h : InternalEnd p i r) : r.Valid := by
  cases h with
  | link b ls hl =>
    rintro _ ⟨⟩
    exact decodeLinkStatus_valid hl
  | _ => exact Result.valid_of_ne_link (by simp)

end Sys2Proof.Machine
end

section
/-! PROOFS. The invariant (O51), second part: each kind of micro-step that goes on keeps the clauses of the operation in
progress. -/

namespace Sys2Proof.Machine

/-- `t` is `s` with one more transaction or wait `e` done, in the same operation. -/
structure GoesOn (e : Event) (s t : State) : Prop where
  counts : e.counts = true
  log : t.log = e :: s.log
  params : t.params = s.params
  busy : t.busy = s.busy
  cur : t.cur = s.cur
  kind : t.kind = s.kind
  phyId : t.phyId = s.phyId
  result : t.result = s.result
  regs : t.phy.RegsWf

/-- `u` is `s` after the answered transaction `e`, before what follows of it is done. -/
structure Recorded (e : Event) (s u : State) : Prop extends GoesOn e s u where
  fsm : u.fsm = s.fsm
  poll : u.poll = s.poll
  upc : u.upc = countUp s.upc
  timer : u.pollTimer = .idle

theorem readDone_recorded (i : Instr) (reg : RegNum) (w : Word16) {s : State} (h : s.phy.RegsWf) :
    Recorded (.read s.params.phyDevAddr reg (.ack w)) (cleared i s) (readDone i reg w s) := by
  constructor
  case toGoesOn =>
    constructor <;> simp [readDone, readPhy_regsWf reg h, Event.counts, Event.isTransaction]
  all_goals simp [readDone]

theorem writeDone_recorded (reg : RegNum) (x : Word16) {s : State} (h : s.phy.RegsWf) :
    Recorded (.write s.params.phyDevAddr reg (toWire s.params x) .ack) s (writeDone reg x s) := by
  constructor
  case toGoesOn =>
    constructor <;> simp [writeDone, writePhy_regsWf reg x h, Event.counts, Event.isTransaction]
  all_goals simp [writeDone]

theorem pollWait_goesOn {s : State} (h : s.phy.RegsWf) : GoesOn (.wait s.params.tPollMs) s (pollWait s) := by
  constructor <;> simp [Event.counts, Event.isWait, Event.isTransaction]
  exact h

/-- The invariant after a micro-step that goes on. -/
theorem GoesOn.inv {e : Event} {i : Instr} {d : Descriptor} {s t : State} (hf : GoesOn e s t) (h : Inv s)
    (hc : s.cur = some d) (hd : decode d = .ok i) (hn : t.poll ≤ s.params.nPoll) (hr : Running i t) : Inv t :=
  hr.inv (h.settled.of_fields hf.params hn hf.kind hf.phyId hf.result hf.regs)
    (by rw [hf.busy, h.cur, hc]; rfl) (hf.cur.trans hc) hd

/-- A micro-step that goes on at line `l`: `upc` has the count where it counted up, and the bound of line `l` allows
it. -/
theorem Running.next {e : Event} {i : Instr} {s t : State} {l : Nat} (h : Running i s) (hf : GoesOn e s t)
    (hw : s.params.WellFormed) (hline : Machine.line i t = l) (line : l < seqLength i)
    (upc : s.params.nPoll ≤ 13 → t.upc = countUp s.upc)
    (done : doneMost i s.params.nPoll (Machine.line i s) s.poll + 1 ≤ doneMost i s.params.nPoll l t.poll)
    (cleared : i = .identify → t.upc = 1 → t.fsm = .uninitialized ∧ t.kind = none)
    (probed : i = .enableSgmii → 6 ≤ l → t.fsm = .sgmiiProbed)
    (polls : polling i l = true → t.poll < s.params.nPoll)
    (waited : t.pollTimer = .waitEnded ↔ pollRead i l = true) : Running i t := by
  subst hline
  have hlog : doneSinceAccept t.log = doneSinceAccept s.log + 1 := by
    rw [hf.log, doneSinceAccept_counted hf.counts]
  have hdone := h.done
  refine ⟨line, ?_, by rw [hf.params]; omega, cleared, probed, by rwa [hf.params], waited⟩
  intro hn
  rw [hf.params] at hn
  have hlt := doneMost_lt (Params.WellFormed.nPoll_pos hw) line polls
  have hcs : s.upc.val = doneSinceAccept s.log := h.counted hn
  exact (h.counted hn).next (by omega) (upc hn) hf.log hf.counts

/-- A line outside the poll loops is no poll read. -/
theorem OutsidePoll.pollRead {i : Instr} {p : Nat} (h : OutsidePoll i p) : pollRead i p = false := by
  unfold Machine.pollRead
  rw [List.any_eq_false]
  intro b hb
  have := h b hb
  simp
  omega

/-- Within a poll loop the one poll read is its third line. -/
theorem pollRead_loop {i : Instr} {base : Nat} (h : base ∈ resetBases i) :
    pollRead i (base + 2) = false ∧ pollRead i (base + 3) = true := by
  rcases resetBases_cases h with ⟨rfl, rfl | rfl⟩ | ⟨rfl, rfl⟩ | ⟨caps, rfl, rfl⟩ <;> simp [pollRead, resetBases]

/-- Only the three operations with soft resets have a poll loop, so IDENTIFY has none. -/
theorem ne_identify_of_base {i : Instr} {base : Nat} (h : base ∈ resetBases i) : i ≠ .identify := by
  rintro rfl
  simp [resetBases] at h

/-- Of ENABLE_SGMII's two soft resets only the second's poll loop lies past the first. -/
theorem second_reset {base : Nat} (hb : base ∈ resetBases .enableSgmii) (h : 6 ≤ base + 3) : base = 12 := by
  have : base = 2 ∨ base = 12 := by simpa [resetBases] using hb
  omega

/-- One line on, outside the poll loops. -/
theorem Running.oneLine {e : Event} {i : Instr} {s u : State} (h : Running i s) (hu : Recorded e s u)
    (hw : s.params.WellFormed) (hz : i = .identify → s.upc = 0 → s.fsm = .uninitialized ∧ s.kind = none)
    (hl : Machine.line i s + 1 < seqLength i) (hp : OutsidePoll i (Machine.line i s + 1)) : Running i u := by
  have hline : Machine.line i u = Machine.line i s + 1 := line_next hl hp hu.upc hu.poll hu.timer
  apply h.next hu.toGoesOn hw hline
  case line => exact hl
  case upc => exact fun _ => hu.upc
  case done => rw [hu.poll]; exact doneMost_line hp
  case cleared =>
    rintro rfl -
    rw [hu.fsm, hu.kind]
    exact hz rfl (Fin.ext (by simp only [Machine.line, seqLength] at hl; omega))
  case probed =>
    rintro rfl h6
    have h2 := hp 2 (by simp [resetBases])
    rw [hu.fsm]
    exact h.probed rfl (by omega)
  case polls => simp [hp.polling]
  case waited => simp [hp.pollRead, hu.timer]

/-- Into a poll loop, at the write that sets the reset bit. -/
theorem Running.enterLoop {e : Event} {i : Instr} {s u : State} {base : Nat} (h : Running i s) (hu : Recorded e s u)
    (hw : s.params.WellFormed) (hb : base ∈ resetBases i) (hl : Machine.line i s = base + 1) :
    Running i (setPoll 0 u) := by
  have hline : Machine.line i (setPoll 0 u) = base + 2 := line_enter hb hl hu.upc
  obtain ⟨-, -, -, hlen⟩ := polling_loop hb
  apply h.next (t := setPoll 0 u) { hu.toGoesOn with } hw hline
  case line => omega
  case upc => exact fun _ => hu.upc
  case done =>
    obtain ⟨-, -, henter⟩ := doneMost_loop (n := s.params.nPoll) (poll := s.poll) hb
    rw [hl]
    exact henter.le
  case cleared => exact fun hi => absurd hi (ne_identify_of_base hb)
  case probed =>
    rintro rfl h6
    have := second_reset hb (by omega)
    exact hu.fsm.trans (h.probed rfl (by omega))
  case polls => exact fun _ => Params.WellFormed.nPoll_pos hw
  case waited => simp [hu.timer, pollRead_loop hb]

/-- From the wait to the poll read. -/
theorem Running.wait {i : Instr} {s : State} {base : Nat} (h : Running i s) (hy : s.phy.RegsWf)
    (hw : s.params.WellFormed) (hb : base ∈ resetBases i) (hl : Machine.line i s = base + 2) :
    Running i (pollWait s) := by
  have hline : Machine.line i (pollWait s) = base + 3 := line_wait hb hl
  obtain ⟨-, hpoll, -, hlen⟩ := polling_loop hb
  apply h.next (pollWait_goesOn hy) hw hline
  case line => exact hlen
  case upc => simp
  case done => rw [hl]; exact (doneMost_loop hb).1.ge
  case cleared => exact fun hi => absurd hi (ne_identify_of_base hb)
  case probed =>
    rintro rfl h6
    have := second_reset hb (by omega)
    exact h.probed rfl (by omega)
  case polls => exact fun _ => h.polls (by rw [hl, hpoll])
  case waited => simp [pollRead_loop hb]

/-- `upc` counts a poll read that is not the last, for every budget that R23's range can count. -/
theorem Running.polledUpc_eq {i : Instr} {s : State} {base : Nat} (h : Running i s) (hb : base ∈ resetBases i)
    (hl : Machine.line i s = base + 3) (hn : s.params.nPoll ≤ 13)
    (hmore : (i = .enableSgmii ∧ base = 2) ∨ s.poll + 1 < s.params.nPoll) :
    polledUpc i base s.upc = countUp s.upc := by
  have hcs : s.upc.val = doneSinceAccept s.log := h.counted hn
  have hp := h.polls (by simp [hl, polling_loop hb])
  have hdone := h.done
  rw [hl] at hdone
  unfold polledUpc
  apply Fin.ext
  rw [within_val, countUp_val]
  rcases resetBases_cases hb with ⟨rfl, rfl | rfl⟩ | ⟨rfl, rfl⟩ | ⟨caps, rfl, rfl⟩ <;>
    simp [doneMost, polling, resetBases, roomOf] at * <;> split_ifs <;> omega

/-- Back to the wait, while polls are left. -/
theorem Running.again {e : Event} {i : Instr} {v : Word16} {s u : State} {base : Nat} (h : Running i s)
    (hu : Recorded e s u) (hw : s.params.WellFormed) (hb : base ∈ resetBases i) (hl : Machine.line i s = base + 3)
    (hv : v &&& 0x8000#16 ≠ 0#16) (hn : s.poll + 1 < s.params.nPoll) : Running i (polled i base v u) := by
  have hupc : (polled i base v u).upc = polledUpc i base s.upc := by simp [polled, polledUpc, hu.upc]
  have hpoll : (polled i base v u).poll = s.poll + 1 := by simp [polled, hu.poll]
  have hline : Machine.line i (polled i base v u) = base + 2 := line_again hb hl hupc hpoll rfl hv
  obtain ⟨-, -, -, hlen⟩ := polling_loop hb
  obtain ⟨h3, h2, -⟩ := doneMost_loop (n := s.params.nPoll) (poll := s.poll) hb
  apply h.next (t := polled i base v u) { hu.toGoesOn with } hw hline
  case line => omega
  case upc => exact fun h13 => hupc.trans (h.polledUpc_eq hb hl h13 (.inr hn))
  case done => rw [hl, hpoll]; omega
  case cleared => exact fun hi => absurd hi (ne_identify_of_base hb)
  case probed =>
    rintro rfl h6
    exact hu.fsm.trans (h.probed rfl (by omega))
  case polls => rw [hpoll]; exact fun _ => hn
  case waited => simp [polled, hu.timer, pollRead_loop hb]

/-- Out of ENABLE_SGMII's first soft reset. -/
theorem Running.probe {e : Event} {v : Word16} {s u : State} (h : Running .enableSgmii s) (hu : Recorded e s u)
    (hw : s.params.WellFormed) (hl : Machine.line .enableSgmii s = 5) (hv : v &&& 0x8000#16 = 0#16) :
    Running .enableSgmii (setFsm .sgmiiProbed (polled .enableSgmii 2 v u)) := by
  have hb : 2 ∈ resetBases .enableSgmii := by simp [resetBases]
  have hp := h.polls (by rw [hl]; rfl)
  have hupc : (polled .enableSgmii 2 v u).upc = polledUpc .enableSgmii 2 s.upc := by
    simp [polled, polledUpc, hu.upc]
  have hpoll : (polled .enableSgmii 2 v u).poll = s.poll + 1 := by simp [polled, hu.poll]
  have hline : Machine.line .enableSgmii (setFsm .sgmiiProbed (polled .enableSgmii 2 v u)) = 6 :=
    (line_firstPoll (x := setFsm .sgmiiProbed (polled .enableSgmii 2 v u)) hl hupc hpoll rfl).trans (if_pos hv)
  apply h.next (t := setFsm .sgmiiProbed (polled .enableSgmii 2 v u)) { hu.toGoesOn with } hw hline
  case line => decide
  case upc => exact fun h13 => hupc.trans (h.polledUpc_eq hb hl h13 (.inl ⟨rfl, rfl⟩))
  case done => rw [hl]; simp [doneMost, polling, resetBases]; omega
  case cleared => simp
  case probed => simp
  case polls => simp [polling, resetBases]
  case waited => simp [polled, hu.timer, pollRead, resetBases]

end Sys2Proof.Machine
end

section
/-! PROOFS. The invariant (O51), third part: every micro-step and every step keeps it. -/

namespace Sys2Proof.Machine

/-- The first part of the invariant after an answered transaction, whatever is written to the other fields. -/
theorem Recorded.settled {e : Event} {s u : State} (hu : Recorded e s u) (h : Settled s) : Settled u :=
  h.of_fields hu.params (hu.poll.trans_le h.poll) hu.kind hu.phyId hu.result hu.regs

/-- IDENTIFY's clearing keeps the invariant. -/
theorem Inv.cleared {i : Instr} {d : Descriptor} {s : State} (h : Inv s) (hc : s.cur = some d)
    (hd : decode d = .ok i) : Inv (cleared i s) := by
  unfold Machine.cleared
  split
  · next hi =>
    obtain ⟨rfl, h0⟩ := hi
    have hs := h.settled
    have hr := h.running hc hd
    have hs' : Settled (unbind s) := ⟨hs.params, hs.poll, rfl, rfl, hs.result, hs.regs⟩
    have hr' : Running .identify (unbind s) :=
      ⟨hr.line, hr.counted, hr.done, fun _ _ => ⟨rfl, rfl⟩, by simp, hr.polls, hr.waited⟩
    exact hr'.inv hs' (by simp [h.cur, hc]) hc hd
  · exact h

/-- The host's list and what it has read are not in the invariant. -/
theorem Inv.setHost {s : State} (h : Inv s) (l : List HostEvent) (r : List Result) :
    Inv { s with host := l, replies := r } := { h with }

/-- A transaction that is not answered keeps the invariant. -/
theorem Inv.unanswered {s : State} (h : Inv s) {y : Phy} (hy : y.RegsWf) : Inv (unanswered y s) :=
  { h with regs := hy }

/-- IDENTIFY's end: the binding it makes is that of a directory match. -/
theorem Settled.identifyMatch {s : State} (h : Settled s) : Inv (identifyMatch s) := by
  unfold Machine.identifyMatch
  split
  · next e he =>
    refine Settled.finish ⟨h.params, h.poll, ?_, rfl, h.result, h.regs⟩ (Result.valid_of_ne_link (by simp))
    simp [he]
  · exact h.finish (Result.valid_of_ne_link (by simp))

/-- GET_LINK_STATUS's end: the status it gives is valid. -/
theorem Settled.linkResult {s : State} (h : Settled s) : Inv (linkResult s) := by
  unfold Machine.linkResult
  split
  · exact h.finish (Result.valid_of_ne_link (by simp))
  · next ls hls =>
    refine Settled.finish { h with } ?_
    rintro _ ⟨⟩
    exact decodeLinkStatus_valid hls

/-- After an acknowledged read. -/
theorem ReadEnd.inv {e : Event} {i : Instr} {d : Descriptor} {v : Word16} {s u t : State}
    (ht : ReadEnd i (line i s) v u t) (hu : Recorded e s u) (h : Inv s) (hc : s.cur = some d) (hd : decode d = .ok i)
    (hz : i = .identify → s.upc = 0 → s.fsm = .uninitialized ∧ s.kind = none) : Inv t := by
  have hr := h.running hc hd
  have hsu := hu.settled h.settled
  have hp := h.params
  -- A poll read leaves `poll` within the budget.
  have hpolled : ∀ base ∈ resetBases i, line i s = base + 3 → Settled (polled i base v u) := by
    intro base hb hl
    have := hr.polls (by simp [hl, polling_loop hb])
    exact { hsu with poll := by simp [polled, hu.poll, hu.params]; omega }
  cases ht with
  | kept hl ho =>
    exact GoesOn.inv { hu.toGoesOn with } h hc hd (hu.poll.trans_le h.poll)
      (hr.oneLine (u := setTmp v u) { hu with } hp hz hl ho)
  | again base hb hl hv hn =>
    rw [hu.poll, hu.params] at hn
    exact GoesOn.inv { hu.toGoesOn with } h hc hd (by simp [polled, hu.poll]; omega) (hr.again hu hp hb hl hv hn)
  | probed hi hl hv =>
    subst hi
    have := hr.polls (by rw [hl]; rfl)
    exact GoesOn.inv { hu.toGoesOn with } h hc hd (by simp [polled, hu.poll]; omega) (hr.probe hu hp hl hv)
  | timeout base hb hl => exact (hpolled base hb hl).finish (Result.valid_of_ne_link (by simp))
  | committed _ base hb hl =>
    exact Settled.finish { hpolled base hb hl with } (Result.valid_of_ne_link (by simp))
  | reset _ base hb hl => exact (hpolled base hb hl).finish (Result.valid_of_ne_link (by simp))
  | identified => exact Settled.identifyMatch { hsu with }
  | partner => exact Settled.finish { hsu with } (Result.valid_of_ne_link (by simp))
  | link => exact Settled.linkResult { hsu with }
  | word => exact Settled.finish { hsu with } (Result.valid_of_ne_link (by simp))

/-- After an acknowledged write. -/
theorem WriteEnd.inv {e : Event} {i : Instr} {d : Descriptor} {s u t : State} (ht : WriteEnd i (line i s) u t)
    (hu : Recorded e s u) (h : Inv s) (hc : s.cur = some d) (hd : decode d = .ok i) (hi : i ≠ .identify) : Inv t := by
  have hr := h.running hc hd
  have hsu := hu.settled h.settled
  have hunit : (Result.ok .unit).Valid := Result.valid_of_ne_link (by simp)
  cases ht with
  | more hl ho =>
    exact hu.toGoesOn.inv h hc hd (hu.poll.trans_le h.poll) (hr.oneLine hu h.params (fun h => absurd h hi) hl ho)
  | poll base hb hl => exact GoesOn.inv { hu.toGoesOn with } h hc hd (Nat.zero_le _) (hr.enterLoop hu h.params hb hl)
  | timeout => exact Settled.finish { hsu with poll := Nat.zero_le _ } (Result.valid_of_ne_link (by simp))
  | forced => exact Settled.finish { hsu with } hunit
  | written => exact hsu.finish hunit

/-- Every micro-step of the operation in `cur` keeps the invariant. -/
theorem exec_inv {i : Instr} {d : Descriptor} {s t : State} (h : Inv s) (hc : s.cur = some d) (hd : decode d = .ok i)
    (ht : exec i s = .next t) : Inv t := by
  have hs := h.settled
  have hcl := h.cleared hc hd
  have hcur : (Machine.cleared i s).cur = some d := by simp [cleared_fields, hc]
  -- An operation that a fault ends leaves the first part as its transaction left it.
  have hfault : ∀ (c : ErrCode) (e : Event) (y : Phy) (x : State), Inv x → y.RegsWf →
      Inv (finish (.err c) (transacted e y x)) := fun c e y x hx hy =>
    Settled.finish { hx.settled with regs := hy } (Result.valid_of_ne_link (by simp))
  have hread : ∀ reg, (readPhy reg s).RegsWf := fun reg => readPhy_regsWf reg hs.regs
  have hwrite : ∀ reg x, (writePhy reg x s).RegsWf := fun reg x => writePhy_regsWf reg x hs.regs
  apply exec_elim ht
  case unbound => exact fun _ _ => hs.finish (Result.valid_of_ne_link (by simp))
  case internal => exact fun r hr => hs.finish hr.valid
  case wait =>
    intro base hb hl
    exact (pollWait_goesOn hs.regs).inv h hc hd hs.poll ((h.running hc hd).wait hs.regs hs.params hb hl)
  case read =>
    intro reg w v _ _ _ hv
    rw [← line_cleared i s] at hv
    refine hv.inv (readDone_recorded i reg w hs.regs) hcl hcur hd ?_
    rintro rfl h0
    simp only [cleared_fields] at h0
    simp [Machine.cleared, h0]
  case write =>
    intro reg x v hr _ _ hv
    exact hv.inv (writeDone_recorded reg x hs.regs) h hc hd (by rintro rfl; simp [writesTo] at hr)
  case readNoDevice => exact fun reg _ _ => hfault _ _ _ _ hcl (hread reg)
  case readBusError => exact fun reg _ _ => hfault _ _ _ _ hcl (hread reg)
  case readSilent => exact fun reg _ _ => hcl.unanswered (hread reg)
  case writeNoDevice => exact fun reg x _ _ => hfault _ _ _ _ h (hwrite reg x)
  case writeBusError => exact fun reg x _ _ => hfault _ _ _ _ h (hwrite reg x)
  case writeSilent => exact fun reg x _ _ => h.unanswered (hwrite reg x)

/-! ### Every step -/

/-- Every operation begins at line 0 of its listing, and that is no poll. -/
theorem line_start (i : Instr) {s : State} (h : s.upc = 0) :
    line i s = 0 ∧ 0 < seqLength i ∧ polling i 0 = false ∧ pollRead i 0 = false := by
  cases i <;> simp [line, sgmiiLine, sgmiiLineOf, resetLine, seqLength, polling, pollRead, resetBases, h]

/-- The same of any descriptor, one that decodes to Illegal included. -/
theorem lineAt_start (d : Descriptor) {s : State} (h : s.upc = 0) :
    lineAt d s = 0 ∧ 0 < listingLength d ∧ pollingAt d 0 = false ∧ pollReadAt d 0 = false := by
  unfold lineAt listingLength pollingAt pollReadAt
  cases decode d with
  | ok i => exact line_start i h
  | error => simp

/-- Acceptance keeps the invariant: nothing is done yet, and no poll timer is left over. -/
theorem Inv.accept {s : State} (h : Inv s) (hb : s.busy = false) (d : Descriptor) : Inv (acceptOp d s) := by
  obtain ⟨hline, hlen, hpoll, hread⟩ := lineAt_start d (s := acceptOp d s) rfl
  have hdone : doneSinceAccept (acceptOp d s).log = 0 := by simp
  refine ⟨h.params, rfl, fun _ => rfl, ?line, fun _ _ => hdone.symm, ?done, ?below, ?written, h.poll, ?polls, ?waited,
    (by simp), h.binding, h.bound, h.result, h.regs⟩
  case below => rw [hdone]; omega
  case written =>
    rintro _ i ⟨⟩ -
    rw [hline]
    simp
  all_goals rintro _ ⟨⟩
  case line => rwa [hline]
  case done => rw [hdone]; exact Nat.zero_le _
  case polls => simp [hline, hpoll]
  case waited => simp [hline, hread, h.timer hb]

/-- A block reset leaves an idle block of the invariant. -/
theorem Inv.blockReset {s : State} (h : Inv s) : Inv (blockReset s) :=
  Settled.inv ⟨h.params, Nat.zero_le _, rfl, rfl, by simp [Machine.blockReset, State.reset], h.regs⟩ rfl rfl rfl rfl

/-- The controller's turn keeps the invariant. -/
theorem TurnCase.inv {s u t : State} (ht : TurnCase s u t) (hf : u = { s with host := u.host }) (h : Inv s) :
    Inv t := by
  have hu : Inv u := by
    rw [hf]
    exact h.setHost u.host s.replies
  cases ht with
  | idle _ ht => exact ht ▸ hu
  | illegal d e _ _ _ ht => exact ht ▸ hu.settled.finish (Result.valid_of_ne_link (by simp))
  | micro d i _ hc hd ht => exact exec_inv hu (by rw [hf, hc]) hd ht

/-- Settles O51: the invariant splits into what an idle block meets too (`Settled`) and what the operation in progress
adds (`Running`); each kind of micro-step that goes on keeps the second, and every end leaves the first. -/
theorem everyStepKeepsTheInvariant : Obligations.EveryStepKeepsTheInvariant := by
  intro s t h hstep
  obtain ⟨-, hcase⟩ := step_cases hstep
  cases hcase with
  | reset rest _ ht => exact ht ▸ (h.setHost rest s.replies).blockReset
  | reply r rest _ _ ht => exact ht ▸ h.setHost rest (r :: s.replies)
  | accept d rest _ hb ht => exact ht ▸ (h.setHost rest s.replies).accept hb d
  | turn u _ hf hc => exact hc.inv hf h

end Sys2Proof.Machine
end

section
/-! PROOFS. Every micro-step follows its listing (O24). -/

namespace Sys2Proof.Machine

/-- What `upc` is after an acknowledged read: one on, within its room at a poll read (log entry 22). -/
theorem ReadEnd.upc {i : Instr} {l : Nat} {v : Word16} {u t : State} {x : Upc} (h : ReadEnd i l v u t)
    (hu : u.upc = countUp x) :
    (polling i l = false → t.upc = countUp x) ∧ ∀ base ∈ resetBases i, l = base + 3 → t.upc = polledUpc i base x := by
  -- Where the poll read of the soft reset from `base` is counted, both clauses follow.
  have counted : ∀ base ∈ resetBases i, l = base + 3 → t.upc = polledUpc i base x →
      (polling i l = false → t.upc = countUp x) ∧
        ∀ b ∈ resetBases i, l = b + 3 → t.upc = polledUpc i b x := by
    intro base hb hl ht
    refine ⟨fun hp => ?_, fun b _ hb' => ?_⟩
    · simp [hl, polling_loop hb] at hp
    · obtain rfl : base = b := by omega
      exact ht
  -- An operation with no soft reset has no poll read.
  have plain : resetBases i = [] → t.upc = u.upc →
      (polling i l = false → t.upc = countUp x) ∧
        ∀ b ∈ resetBases i, l = b + 3 → t.upc = polledUpc i b x := fun hi ht =>
    ⟨fun _ => ht.trans hu, by simp [hi]⟩
  cases h with
  | kept _ hp =>
    refine ⟨fun _ => hu, fun b hb hl => ?_⟩
    have := hp b hb
    omega
  | again base hb hl => exact counted base hb hl (by simp [polled, polledUpc, hu])
  | timeout base hb hl => exact counted base hb hl (by simp [polled, polledUpc, hu])
  | probed hi hl =>
    subst hi
    exact counted 2 (by simp [resetBases]) hl (by simp [polled, polledUpc, hu])
  | committed _ base hb hl => exact counted base hb hl (by simp [polled, polledUpc, hu])
  | reset _ base hb hl => exact counted base hb hl (by simp [polled, polledUpc, hu])
  | identified hi =>
    refine plain (by simp [hi, resetBases]) ?_
    unfold identifyMatch
    split <;> simp
  | link hi =>
    refine plain (by simp [hi, resetBases]) ?_
    unfold linkResult
    split <;> simp
  | partner hi => exact plain (by simp [hi, resetBases]) (by simp)
  | word _ hi => exact plain (by simp [hi, resetBases]) (by simp)

/-- After an acknowledged write `upc` is one on. -/
theorem WriteEnd.upc {i : Instr} {l : Nat} {u t : State} (h : WriteEnd i l u t) : t.upc = u.upc := by
  cases h <;> simp

/-- From the end of a micro-step with the transaction `e`: the operation goes on, or it has its result. -/
theorem Tail.continues {tmp : Word16} {poll : Nat} {e : Event} {s u t : State} (h : Tail tmp poll u t)
    (hlog : u.log = e :: s.log) (hr : u.result = s.result) (hc : u.cur = s.cur) (hb : u.busy = s.busy)
    (h2 : u.tmp2 = s.tmp2) (hh : u.busHeld = true) (ht : u.pollTimer = .idle) :
    (Continues e s t ∧ t.tmp = tmp ∧ t.poll = poll) ∨ ∃ r, t.log = .done r :: e :: s.log ∧ Ended r t := by
  rcases h.life with ⟨l1, l2, l3, l4, l5, l6, l7, l8, l9⟩ | ⟨r, hl, he⟩
  · exact .inl ⟨⟨l1.trans hlog, l5.trans hr, l3.trans hc, l2.trans hb, l6.trans h2, l4.trans hh, l7.trans ht⟩, l8, l9⟩
  · exact .inr ⟨r, by rw [hl, hlog], he⟩

/-- A bus read leaves the parameters and the host's side alone, whatever follows it. -/
theorem busRead_frame {i : Instr} {l : Nat} {reg : RegNum} {k : Word16 → State → State} (s : State)
    (hk : ∀ v u, ReadEnd i l v u (k v u)) :
    (busRead reg k s).params = s.params ∧ (busRead reg k s).host = s.host ∧
      (busRead reg k s).replies = s.replies := by
  rcases busRead_cases reg k s with ⟨w, -, he⟩ | ⟨-, he⟩ | ⟨-, he⟩ | ⟨-, he⟩ <;> rw [he]
  · have ht := readEnd_tail (hk (fromWire s.params w) (advance (afterRead reg (.ack w) s)))
    exact ⟨ht.params, ht.host, ht.replies⟩
  all_goals simp

/-- The same of a bus write. -/
theorem busWrite_frame {i : Instr} {l : Nat} {reg : RegNum} {x : Word16} {k : State → State} (s : State)
    (hk : ∀ u, WriteEnd i l u (k u)) :
    (busWrite reg x k s).params = s.params ∧ (busWrite reg x k s).host = s.host ∧
      (busWrite reg x k s).replies = s.replies := by
  rcases busWrite_cases reg x k s with ⟨-, he⟩ | ⟨-, he⟩ | ⟨-, he⟩ | ⟨-, he⟩ <;> rw [he]
  · have ht := writeEnd_tail (hk (advance (afterWrite reg x .ack s)))
    exact ⟨ht.params, ht.host, ht.replies⟩
  all_goals simp

/-- The read that IDENTIFY's clearing goes before, acknowledged. -/
theorem busRead_cleared_ack {i : Instr} {reg : RegNum} {w : Word16} {s : State} (h : readAnswer reg s = .ack w)
    (k : Word16 → State → State) :
    busRead reg k (cleared i s) = k (fromWire s.params w) (readDone i reg w s) := by
  rw [busRead_ack ((cleared_readAnswer i s reg).trans h), afterRead_eq_transacted, cleared_readPhy,
    show (cleared i s).params = s.params by simp [cleared_fields]]
  rfl

/-- Settles O24, by the cases of `exec`: the case has the listing's micro-step, and `ReadEnd` or `WriteEnd` what
follows of it. -/
theorem microStepsFollowTheirListing : Obligations.MicroStepsFollowTheirListing := by
  intro i k s hbound
  obtain rfl : k = .kModeled := by cases k; rfl
  have hc := exec_cases i s
  generalize exec i s = out at hc
  cases hc with
  | unbound hd hk =>
    rw [hk] at hbound
    cases hbound hd
  | off hm => exact ⟨fun _ => rfl, fun h => absurd hm h⟩
  | wait base hb hl hm =>
    refine ⟨by simp [hm], fun _ => ⟨_, rfl, rfl, rfl, rfl, ?_⟩⟩
    simp only [hm]
    exact ⟨by simp, by simp, fun _ => rfl, by simp⟩
  | internal r hm hr =>
    refine ⟨by simp [hm], fun _ => ⟨_, rfl, rfl, rfl, rfl, ?_⟩⟩
    simp only [hm]
    exact ⟨by simp, by simp, by simp, fun _ => ⟨r, rfl⟩⟩
  | read reg k _ hm hr hk =>
    obtain ⟨hp, hh, hrep⟩ := busRead_frame (reg := reg) (cleared i s) hk
    obtain ⟨cp, cf⟩ := cleared_fields i s
    refine ⟨by simp [hm], fun _ => ⟨_, rfl, hp.trans cp, hh.trans (by simp [cf]), hrep.trans (by simp [cf]), ?_⟩⟩
    simp only [hm]
    refine ⟨?_, by simp, by simp, by simp⟩
    rintro _ w ⟨⟩ hw
    rw [busRead_cleared_ack hw]
    have he := hk (fromWire s.params w) (readDone i reg w s)
    obtain ⟨hupc, hpolled⟩ := he.upc (x := s.upc) (by simp [readDone, cf])
    refine ⟨(readEnd_tail he).phy, hupc, hpolled, ?_⟩
    simpa [readDone, cf] using (readEnd_tail he).continues (s := s)
      (e := .read s.params.phyDevAddr reg (.ack w)) (by simp [readDone, cf]) (by simp [readDone, cf])
      (by simp [readDone, cf]) (by simp [readDone, cf]) (by simp [readDone, cf]) rfl rfl
  | write reg x k _ hm hr hk =>
    obtain ⟨hp, hh, hrep⟩ := busWrite_frame (reg := reg) (x := x) s hk
    refine ⟨by simp [hm], fun _ => ⟨_, rfl, hp, hh, hrep, ?_⟩⟩
    simp only [hm]
    refine ⟨by simp, ?_, by simp, by simp⟩
    rintro _ _ ⟨⟩ hw
    rw [busWrite_ack hw]
    have he := hk (writeDone reg x s)
    exact ⟨(writeEnd_tail he).phy, he.upc, (writeEnd_tail he).continues (s := s) rfl rfl rfl rfl rfl rfl rfl⟩

end Sys2Proof.Machine
end

section
/-! PROOFS. The link status an operation ends with (O39), and the checks of the parameters (O15). -/

namespace Sys2Proof.Machine

/-! ### The link status an operation ends with (O39) -/

/-- A decoded link status has no speed and no duplex unless it is up and resolved (00_scope.md R15). -/
theorem decodeLinkStatus_unresolved {p : Params} {b : Word16} {ls : LinkStatus} (h : decodeLinkStatus p b = .ok ls)
    (hu : ¬ (ls.state = .up ∧ b.getLsbD p.resolvedBit.val = true)) : ls.speedMbps = .s0 ∧ ls.duplex = .unknown := by
  rcases decodeLinkStatus_cases h with ⟨speed, -, hr, rfl⟩ | rfl
  · exact absurd ⟨rfl, hr⟩ hu
  · exact ⟨rfl, rfl⟩

/-- The newest event of the log is the end of an operation with link status `ls`. -/
abbrev EndsWithLink (ls : LinkStatus) (t : State) : Prop := t.log.head? = some (.done (.ok (.link ls)))

theorem linkResult_endsWithLink {ls : LinkStatus} {s : State} (h : EndsWithLink ls (linkResult s)) :
    decodeLinkStatus s.params s.tmp = .ok ls := by
  unfold linkResult at h
  split at h
  · simp [EndsWithLink] at h
  · next hd => simp_all [EndsWithLink]

/-- Of the ends of a read only GET_LINK_STATUS's has a link status, the decoded register. -/
theorem ReadEnd.endsWithLink {i : Instr} {l : Nat} {v : Word16} {u t : State} {ls : LinkStatus}
    (h : ReadEnd i l v u t) (hu : ∀ r, u.log.head? ≠ some (.done r)) (ht : EndsWithLink ls t) :
    i = .getLinkStatus ∧ decodeLinkStatus u.params v = .ok ls := by
  cases h with
  | link hi => exact ⟨hi, by simpa using linkResult_endsWithLink ht⟩
  | identified =>
    unfold identifyMatch EndsWithLink at ht
    split at ht <;> simp at ht
  | kept | again | probed => exact absurd ht (hu _)
  | timeout | committed | reset | partner | word => simp [EndsWithLink] at ht

/-- No end of a write has one. -/
theorem WriteEnd.not_endsWithLink {i : Instr} {l : Nat} {u t : State} {ls : LinkStatus} (h : WriteEnd i l u t)
    (hu : ∀ r, u.log.head? ≠ some (.done r)) : ¬ EndsWithLink ls t := by
  cases h with
  | more | poll => exact hu _
  | timeout | forced | written => simp [EndsWithLink]

/-- An operation that ends with a link status decoded it from a status word: the register GET_LINK_STATUS read, or
DEC_LINK_STATUS's operand. -/
theorem exec_endsWithLink {i : Instr} {s t : State} {ls : LinkStatus} (ht : exec i s = .next t)
    (hlog : t.log ≠ s.log) (hls : EndsWithLink ls t) :
    ∃ b, ((∃ w, i = .getLinkStatus ∧ readAnswer s.params.regPssr s = .ack w ∧ b = fromWire s.params w) ∨
        i = .decLinkStatus b) ∧ decodeLinkStatus s.params b = .ok ls := by
  revert hls hlog
  apply exec_elim ht
  case internal =>
    intro r hr _ hls
    obtain rfl : r = .ok (.link ls) := by simpa [EndsWithLink] using hls
    cases hr with
    | link b _ h => exact ⟨b, .inr rfl, h⟩
  case read =>
    intro reg w v _ hw hm hv _ hls
    obtain ⟨rfl, hd⟩ := hv.endsWithLink (by simp [readDone]) hls
    obtain rfl : reg = s.params.regPssr := by
      simpa [microStep, listing, kindTable, eq_comm] using hm
    exact ⟨_, .inl ⟨w, rfl, hw, rfl⟩, by simpa [readDone, cleared_fields] using hd⟩
  case write => exact fun reg x v _ _ _ hv _ hls => absurd hls (hv.not_endsWithLink (by simp [writeDone]))
  case readSilent => exact fun reg _ _ hlog => absurd (by simp [cleared_fields]) hlog
  case writeSilent => exact fun reg x _ _ hlog => absurd (by simp) hlog
  all_goals simp [EndsWithLink]

/-- Settles O39: the status is a decoded one, and the decoder obeys the rule. -/
theorem producedStatusObeysTheInvariant : Obligations.ProducedStatusObeysTheInvariant := by
  intro i s t ls ht hlog hls
  obtain ⟨b, hb, hd⟩ := exec_endsWithLink ht hlog hls
  exact ⟨b, hb, decodeLinkStatus_unresolved hd⟩

/-! ### The parameters (O15) -/

/-- The five status-bit positions differ when the three parameters differ from each other and from 14 and 15. -/
theorem statusBits_nodup (p : Params) :
    p.statusBits.Nodup ↔
      p.linkBit ≠ p.resolvedBit ∧ p.linkBit ≠ p.duplexStatusBit ∧ p.resolvedBit ≠ p.duplexStatusBit ∧
        (p.linkBit ≠ 14 ∧ p.linkBit ≠ 15) ∧ (p.resolvedBit ≠ 14 ∧ p.resolvedBit ≠ 15) ∧
        (p.duplexStatusBit ≠ 14 ∧ p.duplexStatusBit ≠ 15) := by
  simp only [Params.statusBits, List.nodup_cons, List.mem_cons, List.not_mem_nil, or_false, not_or]
  simp
  tauto

/-- A set is well-formed when it passes the three checks. -/
theorem wellFormed_iff (p : Params) :
    p.WellFormed ↔ p.statusBits.Nodup ∧ 1 ≤ p.nPoll ∧ ∀ e ∈ p.directory, e.idPattern &&& e.mask = e.idPattern := by
  unfold Params.WellFormed Params.problem
  split_ifs with h1 h2 h3
  · simp [h2]
  · simpa [h1, Nat.one_le_iff_ne_zero, h2, DirEntry.premasked] using h3
  · simpa [h1, Nat.one_le_iff_ne_zero, h2, DirEntry.premasked] using h3
  · simp [h1]

/-- Settles O15: the refusal is the step's first test, and the checks are R10's one by one. -/
theorem parameterChecks : Obligations.ParameterChecks := by
  refine ⟨fun p => by rw [wellFormed_iff, statusBits_nodup], fun s hw => ?_⟩
  obtain ⟨e, he⟩ := Option.ne_none_iff_exists'.mp hw
  exact ⟨e, by simp [step, stepOnce, he]⟩

end Sys2Proof.Machine
end

section
/-! PROOFS. Which elements a step writes: the parameters by none (O16), the binding by IDENTIFY alone (O30); and what
the controller's turn and the reset state are (O7, O9, O50). -/

namespace Sys2Proof.Machine

/-! ### The parameters (O16) -/

/-- No micro-step writes the parameters. -/
theorem exec_params {i : Instr} {s t : State} (ht : exec i s = .next t) : t.params = s.params := by
  apply exec_elim ht
  case read =>
    exact fun reg w v _ _ _ hv => (readEnd_tail hv).params.trans (by simp [readDone, cleared_fields])
  case write => exact fun reg x v _ _ _ hv => (writeEnd_tail hv).params
  all_goals simp [cleared_fields]

/-- Settles O16: the host's events leave the parameters alone, and so does every micro-step. -/
theorem parametersNeverChange : Obligations.ParametersNeverChange := by
  intro s t hstep
  obtain ⟨-, hcase⟩ := step_cases hstep
  cases hcase with
  | reset rest _ ht => rw [ht]; rfl
  | reply r rest _ _ ht => rw [ht]
  | accept d rest _ _ ht => simp [ht]
  | turn u _ hf hc =>
    have hu : u.params = s.params := by rw [hf]
    cases hc with
    | idle _ ht => rw [ht, hu]
    | illegal d e _ _ _ ht => simp [ht, hu]
    | micro d i _ _ _ ht => rw [exec_params ht, hu]

/-! ### The binding (O30) -/

/-- IDENTIFY's first micro-step. -/
theorem exec_identify_first {s : State} (h : s.upc = 0) :
    exec .identify s = .next (busRead s.params.regId1 setTmp (unbind s)) := by
  show execIdentify s = _
  simp [execIdentify, h]

/-- IDENTIFY's second micro-step. -/
theorem exec_identify_second {s : State} (h : s.upc = 1) :
    exec .identify s = .next (busRead s.params.regId2 (fun v u => identifyMatch (setTmp2 v u)) s) := by
  show execIdentify s = _
  simp [execIdentify, h]

/-- IDENTIFY has no third. -/
theorem upc_of_exec_identify {s t : State} (h : exec .identify s = .next t) : s.upc = 0 ∨ s.upc = 1 := by
  have h' : execIdentify s = .next t := h
  unfold execIdentify at h'
  split at h'
  · next h0 => exact .inl (Fin.ext h0)
  · next h1 => exact .inr (Fin.ext h1)
  · cases h'

/-- After a read only IDENTIFY writes the binding. -/
theorem ReadEnd.binding {i : Instr} {l : Nat} {v : Word16} {u t : State} (h : ReadEnd i l v u t)
    (hi : i ≠ .identify) : t.kind = u.kind ∧ t.phyId = u.phyId := by
  cases h with
  | identified h => exact absurd h hi
  | link => unfold linkResult; split <;> simp
  | kept | again | timeout | probed | committed | reset | partner | word => simp [polled]

/-- No end of a write does. -/
theorem WriteEnd.binding {i : Instr} {l : Nat} {u t : State} (h : WriteEnd i l u t) :
    t.kind = u.kind ∧ t.phyId = u.phyId := by
  cases h <;> simp

/-- No operation but IDENTIFY writes the binding. -/
theorem exec_binding {i : Instr} {s t : State} (hi : i ≠ .identify) (ht : exec i s = .next t) :
    t.kind = s.kind ∧ t.phyId = s.phyId := by
  apply exec_elim ht
  case read =>
    intro reg w v _ _ _ hv
    simpa [readDone, cleared_of_ne hi] using hv.binding hi
  case write =>
    intro reg x v _ _ _ hv
    simpa [writeDone] using hv.binding
  all_goals simp [cleared_of_ne hi]

/-- A directory match binds what it answers. -/
theorem identifyMatch_binds {u : State} {id : Id32} {k : DriverKind}
    (h : (identifyMatch u).log.head? = some (.done (.ok (.idKind id k)))) :
    (identifyMatch u).kind = some k ∧ (identifyMatch u).phyId = some id := by
  unfold identifyMatch at h ⊢
  split at h
  · cases h
    exact ⟨rfl, rfl⟩
  · simp at h

/-- Settles O30: the first micro-step reads after the clearing, and only the second ends with a binding. -/
theorem onlyIdentifyWritesTheBinding : Obligations.OnlyIdentifyWritesTheBinding := by
  refine ⟨fun i s t ht hi => exec_binding hi ht, fun s t h0 ht => ?first, fun s t id k ht hlog hend => ?last⟩
  case first =>
    rw [exec_identify_first h0] at ht
    cases ht
    rcases busRead_cases s.params.regId1 setTmp (unbind s) with ⟨w, -, h⟩ | ⟨-, h⟩ | ⟨-, h⟩ | ⟨-, h⟩ <;> simp [h]
  case last =>
    rcases upc_of_exec_identify ht with h | h
    · rw [exec_identify_first h] at ht
      cases ht
      rcases busRead_cases s.params.regId1 setTmp (unbind s) with ⟨w, -, h⟩ | ⟨-, h⟩ | ⟨-, h⟩ | ⟨-, h⟩ <;>
        simp [h] at hend hlog
    · rw [exec_identify_second h] at ht
      cases ht
      rcases busRead_cases s.params.regId2 (fun v u => identifyMatch (setTmp2 v u)) s with
        ⟨w, -, h⟩ | ⟨-, h⟩ | ⟨-, h⟩ | ⟨-, h⟩ <;> rw [h] at hend hlog ⊢
      · exact identifyMatch_binds hend
      all_goals simp at hend hlog

/-! ### The controller's turn and the reset state (O7, O9, O50) -/

/-- A turn leaves what the controller holds. -/
theorem turn_controller {s u : State} (h : ControllerTurn s u) : u.busy = s.busy ∧ u.cur = s.cur := by
  rw [turn_fields h]
  exact ⟨rfl, rfl⟩

/-- A busy controller whose descriptor decodes runs a micro-step. -/
theorem controllerStep_busy {u : State} {d : Descriptor} {i : Instr} (hb : u.busy = true) (hc : u.cur = some d)
    (hd : decode d = .ok i) : controllerStep u = exec i u := by
  simp [controllerStep, hb, hc, hd]

/-- Settles O7: the step is `controllerStep`, which decodes `cur`. -/
theorem stepRunsTheDecodedOperation : Obligations.StepRunsTheDecodedOperation := by
  intro s u d i hu hb hc hd
  obtain ⟨eb, ec⟩ := turn_controller hu
  rw [turn_step hu, controllerStep_busy (eb.trans hb) (ec.trans hc) hd]

/-- Settles O9: an idle controller's turn does nothing. -/
theorem resetBlockWaitsForTheHost : Obligations.ResetBlockWaitsForTheHost := by
  refine ⟨⟨rfl, rfl, rfl, rfl, rfl, rfl, rfl, rfl⟩, fun s u hu hb => ?_⟩
  obtain ⟨eb, -⟩ := turn_controller hu
  rw [turn_step hu]
  simp [controllerStep, eb.trans hb]

/-- Settles O50: an idle state, unbound and with the default parameters. -/
theorem invariantHoldsAtReset : Obligations.InvariantHoldsAtReset :=
  Settled.inv ⟨by decide, Nat.zero_le _, rfl, rfl, by simp [State.reset], reset_regsWf⟩ rfl rfl rfl rfl

end Sys2Proof.Machine
end

section
/-! PROOFS. The micro-steps of the operations with soft resets (O32, O33, O34): each shared micro-step as an equation,
then each operation's lines as the shared ones. -/

namespace Sys2Proof.Machine

/-! ### The shared micro-steps -/

/-- `s` after an acknowledged poll read that returned the bus word `w`, before the reset bit is tested. -/
def pollReadDone (room : Upc) (w : Word16) (s : State) : State :=
  { stepped (.read s.params.phyDevAddr s.params.regCtrl (.ack w)) (readPhy s.params.regCtrl s) s with
    tmp := fromWire s.params w, poll := s.poll + 1, upc := within room (countUp s.upc) }

/-- An acknowledged read whose value is kept. -/
theorem rmwRead_ack {reg : RegNum} {s : State} {w : Word16} (h : readAnswer reg s = .ack w) :
    rmwRead reg s =
      { stepped (.read s.params.phyDevAddr reg (.ack w)) (readPhy reg s) s with tmp := fromWire s.params w } :=
  busRead_ack h setTmp

/-- An acknowledged write of the merged value. -/
theorem rmwWrite_ack {reg : RegNum} {mask value : Word16} {s : State}
    (h : writeAnswer reg (mergeBits s.tmp mask value) s = .ack) :
    rmwWrite reg mask value s =
      stepped (.write s.params.phyDevAddr reg (toWire s.params (mergeBits s.tmp mask value)) .ack)
        (writePhy reg (mergeBits s.tmp mask value) s) s :=
  busWrite_ack h id

section PollRead
variable {s : State} {k : DriverKind} {w : Word16} (hk : s.kind = some k)
  (hw : readAnswer s.params.regCtrl s = .ack w) (room : Upc) (done : State → State)

include hw

/-- A poll read is counted, then tested. -/
theorem softResetSeq_pollRead : softResetSeq (kindTable s.params k) room 3 done s =
    .next (pollCheck (kindTable s.params k) done (pollReadDone room w s)) := by
  cases k
  exact congrArg Host.Outcome.next (busRead_ack hw _)

/-- The reset bit is clear: the soft reset returns. -/
theorem softResetSeq_clear (hb : resetBit s.params w = false) :
    softResetSeq (kindTable s.params k) room 3 done s = .next (done (pollReadDone room w s)) := by
  rw [softResetSeq_pollRead hw, pollCheck_clear]
  cases k
  exact (and_reset_eq_zero _).mpr hb

/-- It is set: the head of the poll loop decides. -/
theorem softResetSeq_set (hb : resetBit s.params w = true) :
    softResetSeq (kindTable s.params k) room 3 done s = .next (pollHead (pollReadDone room w s)) := by
  rw [softResetSeq_pollRead hw, pollCheck_set]
  cases k
  intro h
  have hclear : resetBit s.params w = false := (and_reset_eq_zero _).mp h
  simp [hclear] at hb

/-- It is set and polls are left: back to the wait. -/
theorem softResetSeq_again (hb : resetBit s.params w = true) (hn : s.poll + 1 < s.params.nPoll) :
    softResetSeq (kindTable s.params k) room 3 done s = .next (pollReadDone room w s) := by
  rw [softResetSeq_set hw room done hb, pollHead_again (by simpa [pollReadDone, stepped] using hn)]

/-- It is set after the last poll. -/
theorem softResetSeq_timeout (hb : resetBit s.params w = true) (hn : s.params.nPoll ≤ s.poll + 1) :
    softResetSeq (kindTable s.params k) room 3 done s =
      .next (finish (.err .phyAccessResetTimeout) (pollReadDone room w s)) := by
  rw [softResetSeq_set hw room done hb, pollHead_timeout (by simpa [pollReadDone, stepped] using hn), raise_eq_finish]

end PollRead

/-! ### The operations' lines -/

/-- SOFT_RESET is its soft reset. -/
theorem exec_softReset {s : State} {k : DriverKind} (hk : s.kind = some k) :
    exec .softReset s = softResetSeq (kindTable s.params k) 62 (line .softReset s) (succeed .unit) s := by
  show execSoftReset s = _
  unfold execSoftReset
  rw [driver_bound hk]
  rfl

/-- SET_AUTONEG_CAPS is its setup. -/
theorem exec_setAutonegCaps {caps : CapSet} {s : State} {k : DriverKind} (hk : s.kind = some k) :
    exec (.setAutonegCaps caps) s =
      setAutonegSeq (kindTable s.params k) (line (.setAutonegCaps caps) s) caps (succeed .unit) s := by
  show execSetAutonegCaps caps s = _
  unfold execSetAutonegCaps
  rw [driver_bound hk]
  rfl

/-- The setup's soft reset. -/
theorem exec_setAutonegCaps_reset {caps : CapSet} {s : State} {k : DriverKind} {o : Nat} (hk : s.kind = some k)
    (h : line (.setAutonegCaps caps) s = o + 6) :
    exec (.setAutonegCaps caps) s =
      softResetSeq (kindTable s.params k) 62 o (fun u => succeed .unit (setFsm .autonegConfigured u)) s := by
  rw [exec_setAutonegCaps hk, h]
  rfl

/-- ENABLE_SGMII at each line: `EXTSR`, the first soft reset, and the setup with every capability, which ends with the
second. -/
theorem exec_enableSgmii {s : State} {k : DriverKind} (hk : s.kind = some k) :
    (line .enableSgmii s = 0 → exec .enableSgmii s = .next (rmwRead s.params.regExtsr s)) ∧
    (line .enableSgmii s = 1 → exec .enableSgmii s = .next (rmwWrite s.params.regExtsr 0x800F#16 0x8004#16 s)) ∧
    (∀ o < 4, line .enableSgmii s = o + 2 →
      exec .enableSgmii s = softResetSeq (kindTable s.params k) 54 o (setFsm .sgmiiProbed) s) ∧
    ∀ o, line .enableSgmii s = o + 6 →
      exec .enableSgmii s = setAutonegSeq (kindTable s.params k) o allCaps (succeed .unit) s := by
  cases k
  show (sgmiiLine (kindTable s.params .kModeled) s = 0 → execEnableSgmii s = _) ∧
    (sgmiiLine (kindTable s.params .kModeled) s = 1 → execEnableSgmii s = _) ∧
    (∀ o < 4, sgmiiLine (kindTable s.params .kModeled) s = o + 2 → execEnableSgmii s = _) ∧
    ∀ o, sgmiiLine (kindTable s.params .kModeled) s = o + 6 → execEnableSgmii s = _
  unfold execEnableSgmii
  rw [driver_bound hk]
  refine ⟨fun h => ?_, fun h => ?_, fun o ho h => ?_, fun o h => ?_⟩ <;> simp only [h]
  · rfl
  · rfl
  · match o, ho with
    | 0, _ | 1, _ | 2, _ | 3, _ => rfl

/-- The setup's soft reset is ENABLE_SGMII's second. -/
theorem exec_enableSgmii_second {s : State} {k : DriverKind} {o : Nat} (hk : s.kind = some k)
    (h : line .enableSgmii s = o + 12) :
    exec .enableSgmii s =
      softResetSeq (kindTable s.params k) 62 o (fun u => succeed .unit (setFsm .autonegConfigured u)) s := by
  obtain ⟨-, -, -, hsetup⟩ := exec_enableSgmii hk
  exact hsetup (o + 6) h

/-- Before its first soft reset polls, the line of an operation is `upc`. -/
theorem line_of_upc {i : Instr} {s : State} {n : Nat} (h : s.upc.val = n) (hn : ∀ b ∈ resetBases i, n < b + 2) :
    line i s = n := by
  cases i with
  | enableSgmii =>
    have := hn 2 (by simp [resetBases])
    simp [line, sgmiiLine, sgmiiLineOf, h, this]
  | softReset =>
    have := hn 0 (by simp [resetBases])
    simp [line, resetLine, h, this]
  | setAutonegCaps =>
    have := hn 6 (by simp [resetBases])
    simp [line, resetLine, h, this]
  | _ => exact h

/-- Settles O33: SOFT_RESET's lines are its soft reset's. -/
theorem softResetMicroSteps : Obligations.SoftResetMicroSteps := by
  intro s k w hk
  rw [exec_softReset hk]
  refine ⟨fun h hw => ?read, fun h hn hw => ?write, fun h => ?wait, fun h hw hb => ?clear, fun h hw hb hn => ?again,
    fun h hw hb hn => ?timeout⟩
  case read =>
    rw [line_of_upc (n := 0) (by simp [h]) (by simp [resetBases])]
    cases k
    exact congrArg Host.Outcome.next (rmwRead_ack hw)
  case write =>
    rw [line_of_upc (n := 1) (by simp [h]) (by simp [resetBases])]
    cases k
    exact congrArg Host.Outcome.next ((busWrite_ack hw _).trans (pollHead_again hn))
  case wait => rw [h]; rfl
  case clear => rw [h, softResetSeq_clear hw _ _ hb]; rfl
  case again => rw [h, softResetSeq_again hw _ _ hb hn]; rfl
  case timeout => rw [h, softResetSeq_timeout hw _ _ hb hn]; rfl

/-- Settles O34: the three writes are the setup's merges, and the poll reads its soft reset's. -/
theorem setAutonegCapsMicroSteps : Obligations.SetAutonegCapsMicroSteps := by
  intro s k caps w v hk
  refine ⟨fun h hv hw => ?anar, fun h hv hw => ?gctrl, fun h hv hw => ?ctrl, fun h hw hb => ?clear,
    fun h hw hb hn => ?again, fun h hw hb hn => ?timeout⟩
  case anar =>
    rw [exec_setAutonegCaps hk, line_of_upc (n := 1) (by simp [h]) (by simp [resetBases])]
    subst hv
    cases k
    exact congrArg Host.Outcome.next (rmwWrite_ack hw)
  case gctrl =>
    rw [exec_setAutonegCaps hk, line_of_upc (n := 3) (by simp [h]) (by simp [resetBases])]
    subst hv
    cases k
    exact congrArg Host.Outcome.next (rmwWrite_ack hw)
  case ctrl =>
    rw [exec_setAutonegCaps hk, line_of_upc (n := 5) (by simp [h]) (by simp [resetBases])]
    subst hv
    cases k
    exact congrArg Host.Outcome.next (rmwWrite_ack hw)
  case clear => rw [exec_setAutonegCaps_reset hk h, softResetSeq_clear hw _ _ hb]; rfl
  case again => rw [exec_setAutonegCaps_reset hk h, softResetSeq_again hw _ _ hb hn]; rfl
  case timeout => rw [exec_setAutonegCaps_reset hk h, softResetSeq_timeout hw _ _ hb hn]; rfl

/-- Settles O32: the read-modify-write of `EXTSR`, then the poll reads of the two soft resets. -/
theorem enableSgmiiMicroSteps : Obligations.EnableSgmiiMicroSteps := by
  intro s k w hk
  obtain ⟨hread, hwrite, hfirst, -⟩ := exec_enableSgmii hk
  refine ⟨fun h hw => ?read, fun v hv h hw => ?write, fun h hw hb => ?clear1, fun h hw hb hn => ?again1,
    fun h hw hb hn => ?timeout1, fun h hw hb => ?clear2, fun h hw hb hn => ?again2, fun h hw hb hn => ?timeout2⟩
  case read =>
    rw [hread (line_of_upc (n := 0) (by simp [h]) (by simp [resetBases])), rmwRead_ack hw]
  case write =>
    subst hv
    rw [hwrite (line_of_upc (n := 1) (by simp [h]) (by simp [resetBases]))]
    exact congrArg Host.Outcome.next (rmwWrite_ack hw)
  case clear1 => rw [hfirst 3 (by decide) h, softResetSeq_clear hw _ _ hb]; rfl
  case again1 => rw [hfirst 3 (by decide) h, softResetSeq_again hw _ _ hb hn]; rfl
  case timeout1 => rw [hfirst 3 (by decide) h, softResetSeq_timeout hw _ _ hb hn]; rfl
  case clear2 => rw [exec_enableSgmii_second hk h, softResetSeq_clear hw _ _ hb]; rfl
  case again2 => rw [exec_enableSgmii_second hk h, softResetSeq_again hw _ _ hb hn]; rfl
  case timeout2 => rw [exec_enableSgmii_second hk h, softResetSeq_timeout hw _ _ hb hn]; rfl

end Sys2Proof.Machine
end

section
/-! PROOFS. Two blocks that differ only in elements nothing reads stay so (O58, and the last clause of O48): one
relation for the label and for the scratch elements, kept by every micro-step and every step. -/

namespace Sys2Proof.Machine

/-! ### Blocks that are alike -/

/-- `s` with other values of the label and the scratch elements. -/
def overlay (f : FsmState) (a b : Word16) (n : Nat) (s : State) : State :=
  { s with fsm := f, tmp := a, tmp2 := b, poll := n }

/-- `t` is `s` but for the label and the scratch elements, and these are the same where they have to be: the label if
`F`, every scratch element if `K`, `tmp` also if `T` and `poll` also if `P`. -/
inductive Alike (F K T P : Prop) (s : State) : State → Prop
  | mk (f : FsmState) (a b : Word16) (n : Nat) (hf : F → f = s.fsm) (hb : K → b = s.tmp2) (ha : K ∨ T → a = s.tmp)
      (hn : K ∨ P → n = s.poll) : Alike F K T P s (overlay f a b n s)

section Alike
variable {F K T P : Prop} {s t : State}

theorem Alike.refl : Alike F K T P s s :=
  .mk s.fsm s.tmp s.tmp2 s.poll (fun _ => rfl) (fun _ => rfl) (fun _ => rfl) (fun _ => rfl)

theorem Alike.mono {T' P' : Prop} (h : Alike F K T P s t) (hT : T' → T) (hP : P' → P) : Alike F K T' P' s t := by
  obtain ⟨f, a, b, n, hf, hb, ha, hn⟩ := h
  exact ⟨f, a, b, n, hf, hb, fun h => ha (h.imp_right hT), fun h => hn (h.imp_right hP)⟩

theorem Alike.fields (h : Alike F K T P s t) :
    t.params = s.params ∧ t.kind = s.kind ∧ t.busy = s.busy ∧ t.cur = s.cur ∧ t.upc = s.upc ∧ t.host = s.host ∧
      t.phy = s.phy ∧ t.pollTimer = s.pollTimer := by
  cases h
  simp [overlay]

theorem Alike.tmp (h : Alike F K T P s t) (hT : T) : t.tmp = s.tmp := by
  obtain ⟨f, a, b, n, hf, hb, ha, hn⟩ := h
  exact ha (.inr hT)

theorem Alike.poll (h : Alike F K T P s t) (hP : P) : t.poll = s.poll := by
  obtain ⟨f, a, b, n, hf, hb, ha, hn⟩ := h
  exact hn (.inr hP)

/-! What each update of the state makes of it. -/

theorem Alike.setTmp (h : Alike F K T P s t) (v : Word16) :
    Alike F K True P (Machine.setTmp v s) (Machine.setTmp v t) := by
  obtain ⟨f, a, b, n, hf, hb, ha, hn⟩ := h
  exact ⟨f, v, b, n, hf, hb, fun _ => rfl, hn⟩

theorem Alike.setTmp2 (h : Alike F K T P s t) (v : Word16) :
    Alike F K T P (Machine.setTmp2 v s) (Machine.setTmp2 v t) := by
  obtain ⟨f, a, b, n, hf, hb, ha, hn⟩ := h
  exact ⟨f, a, v, n, hf, fun _ => rfl, ha, hn⟩

theorem Alike.setPoll (h : Alike F K T P s t) (m : Nat) :
    Alike F K T True (Machine.setPoll m s) (Machine.setPoll m t) := by
  obtain ⟨f, a, b, n, hf, hb, ha, hn⟩ := h
  exact ⟨f, a, b, m, hf, hb, ha, fun _ => rfl⟩

theorem Alike.countPoll (h : Alike F K T P s t) (room : Upc) :
    Alike F K T P (Machine.countPoll room s) (Machine.countPoll room t) := by
  obtain ⟨f, a, b, n, hf, hb, ha, hn⟩ := h
  exact ⟨f, a, b, n + 1, hf, hb, ha, fun h => congrArg (· + 1) (hn h)⟩

theorem Alike.setFsm {l l' : FsmState} (h : Alike F K T P s t) (hl : F → l' = l) :
    Alike F K T P (Machine.setFsm l s) (Machine.setFsm l' t) := by
  obtain ⟨f, a, b, n, hf, hb, ha, hn⟩ := h
  exact ⟨l', a, b, n, hl, hb, ha, hn⟩

theorem Alike.unbind (h : Alike F K T P s t) : Alike F K T P (Machine.unbind s) (Machine.unbind t) := by
  obtain ⟨f, a, b, n, hf, hb, ha, hn⟩ := h
  exact ⟨.uninitialized, a, b, n, fun _ => rfl, hb, ha, hn⟩

/-- An update that neither reads nor writes these elements. -/
theorem Alike.carry (h : Alike F K T P s t) (g : State → State)
    (hg : ∀ f a b n x, g (overlay f a b n x) = overlay f a b n (g x) ∧ (g x).fsm = x.fsm ∧ (g x).tmp = x.tmp ∧
      (g x).tmp2 = x.tmp2 ∧ (g x).poll = x.poll := by intros; exact ⟨rfl, rfl, rfl, rfl, rfl⟩) :
    Alike F K T P (g s) (g t) := by
  obtain ⟨f, a, b, n, hf, hb, ha, hn⟩ := h
  obtain ⟨he, h1, h2, h3, h4⟩ := hg f a b n s
  rw [he]
  exact ⟨f, a, b, n, by rwa [h1], by rwa [h3], by rwa [h2], by rwa [h4]⟩

end Alike

/-! ### What an operation still reads -/

/-- Index `u` of operation `i` is past the write that sets `poll` to 0 for its first soft reset. -/
def PollSet (i : Instr) (u : Upc) : Prop := ∃ base ∈ resetBases i, base + 2 ≤ u.val

/-- Before that the line is `upc`. -/
theorem line_of_not_pollSet {i : Instr} {s : State} (h : ¬ PollSet i s.upc) : line i s = s.upc.val := by
  refine line_of_upc rfl fun b hb => ?_
  by_contra hc
  exact h ⟨b, hb, by omega⟩

/-- At a wait or a poll read `poll` is set. -/
theorem pollSet_of_line {i : Instr} {s : State} {base : Nat} (hb : base ∈ resetBases i) (h : base + 2 ≤ line i s) :
    PollSet i s.upc := by
  by_contra hc
  rw [line_of_not_pollSet hc] at h
  exact hc ⟨base, hb, h⟩

/-- Only the write that sets the reset bit goes to where `poll` is set. -/
theorem pollSet_of_countUp {i : Instr} {s : State} (h : ∀ base ∈ resetBases i, line i s ≠ base + 1)
    (hc : PollSet i (countUp s.upc)) : PollSet i s.upc := by
  by_contra hn
  obtain ⟨base, hb, hle⟩ := hc
  have hlt : ¬ base + 2 ≤ s.upc.val := fun hle => hn ⟨base, hb, hle⟩
  have := h base hb
  rw [line_of_not_pollSet hn] at this
  rw [countUp_val] at hle
  split at hle <;> omega

/-- Past its first index an operation is past its first line. -/
theorem upc_ne_of_line {i : Instr} {s : State} (h : line i s ≠ 0) : s.upc ≠ 0 := fun h0 => h (line_start i h0).1

/-- Two states alike in what operation `i` still reads, if it is in progress: `tmp` once its first transaction is done,
and `poll` once it is set. -/
def LiveAlike (F K : Prop) (i : Instr) (s t : State) : Prop :=
  Alike F K (s.busy = true ∧ s.upc ≠ 0) (s.busy = true ∧ PollSet i s.upc) s t

section LiveAlike
variable {F K T P : Prop} {i : Instr} {s t : State}

theorem Alike.live (h : Alike F K T P s t) (hT : s.upc ≠ 0 → T) (hP : PollSet i s.upc → P) : LiveAlike F K i s t :=
  h.mono (fun hu => hT hu.2) (fun hu => hP hu.2)

/-- An operation that has ended reads nothing. -/
theorem Alike.live_finish (h : Alike F K T P s t) (r : Result) : LiveAlike F K i (finish r s) (finish r t) :=
  (h.carry (finish r)).mono (by simp) (by simp)

/-- Two such states are at the same line. -/
theorem LiveAlike.line (h : LiveAlike F K i s t) (hb : s.busy = true) : line i t = line i s := by
  obtain ⟨hp, -, -, -, hu, -, -, ht⟩ := h.fields
  by_cases hs : PollSet i s.upc
  · have htmp : t.tmp = s.tmp := h.tmp ⟨hb, by
      rintro h0
      obtain ⟨base, -, hle⟩ := hs
      rw [h0] at hle
      exact absurd hle (by simp)⟩
    have hpoll : t.poll = s.poll := h.poll ⟨hb, hs⟩
    cases i <;> simp only [Machine.line, sgmiiLine, resetLine, hp, hu, ht, htmp, hpoll]
  · rw [line_of_not_pollSet hs, line_of_not_pollSet (by rwa [hu]), hu]

/-- A bus read of the same register, whatever follows it. -/
theorem LiveAlike.busRead {reg : RegNum} {k k' : Word16 → State → State} (h : LiveAlike F K i s t)
    (hk : ∀ v u u', u.upc = countUp s.upc →
      Alike F K (s.busy = true ∧ s.upc ≠ 0) (s.busy = true ∧ PollSet i s.upc) u u' →
        LiveAlike F K i (k v u) (k' v u')) :
    LiveAlike F K i (busRead reg k s) (busRead reg k' t) := by
  have hp : t.params = s.params := h.fields.1
  have ha : readAnswer reg t = readAnswer reg s := by cases h; rfl
  have hy : readPhy reg t = readPhy reg s := by cases h; rfl
  have hd : ∀ a, Alike F K _ _ (afterRead reg a s) (afterRead reg a t) := fun a => by
    simpa [hp, hy] using Alike.carry h (transacted (.read s.params.phyDevAddr reg a) (readPhy reg s))
  rcases busRead_cases reg k s with ⟨w, hw, he⟩ | ⟨hw, he⟩ | ⟨hw, he⟩ | ⟨hw, he⟩ <;> rw [he]
  · rw [busRead_ack (ha.trans hw), hp]
    exact hk _ _ _ rfl ((hd _).carry advance)
  · rw [busRead_noDevice (ha.trans hw)]
    exact (hd _).live_finish _
  · rw [busRead_busError (ha.trans hw)]
    exact (hd _).live_finish _
  · rw [busRead_silent (ha.trans hw), hy]
    exact Alike.carry h (unanswered _)

/-- A bus write of the same value. -/
theorem LiveAlike.busWrite {reg : RegNum} {x : Word16} {k : State → State} (h : LiveAlike F K i s t)
    (hk : ∀ u u', u.upc = countUp s.upc →
      Alike F K (s.busy = true ∧ s.upc ≠ 0) (s.busy = true ∧ PollSet i s.upc) u u' → LiveAlike F K i (k u) (k u')) :
    LiveAlike F K i (busWrite reg x k s) (busWrite reg x k t) := by
  have hp : t.params = s.params := h.fields.1
  have ha : writeAnswer reg x t = writeAnswer reg x s := by cases h; rfl
  have hy : writePhy reg x t = writePhy reg x s := by cases h; rfl
  have hd : ∀ a, Alike F K _ _ (afterWrite reg x a s) (afterWrite reg x a t) := fun a => by
    simpa [hp, hy] using
      Alike.carry h (transacted (.write s.params.phyDevAddr reg (toWire s.params x) a) (writePhy reg x s))
  rcases busWrite_cases reg x k s with ⟨hw, he⟩ | ⟨hw, he⟩ | ⟨hw, he⟩ | ⟨hw, he⟩ <;> rw [he]
  · rw [busWrite_ack (ha.trans hw)]
    exact hk _ _ rfl ((hd _).carry advance)
  · rw [busWrite_noDevice (ha.trans hw)]
    exact (hd _).live_finish _
  · rw [busWrite_busError (ha.trans hw)]
    exact (hd _).live_finish _
  · rw [busWrite_silent (ha.trans hw), hy]
    exact Alike.carry h (unanswered _)

/-- A read whose value is kept in `tmp`. -/
theorem LiveAlike.busRead_setTmp {reg : RegNum} (h : LiveAlike F K i s t) (hb : s.busy = true)
    (hl : ∀ base ∈ resetBases i, Machine.line i s ≠ base + 1) :
    LiveAlike F K i (Machine.busRead reg Machine.setTmp s) (Machine.busRead reg Machine.setTmp t) :=
  h.busRead fun v u u' hu hd => (hd.setTmp v).live (fun _ => trivial) fun hs =>
    ⟨hb, pollSet_of_countUp hl (by simpa [hu] using hs)⟩

/-- The write of a read-modify-write. -/
theorem LiveAlike.rmwWrite {reg : RegNum} {mask value : Word16} (h : LiveAlike F K i s t) (hb : s.busy = true)
    (h0 : Machine.line i s ≠ 0) (hl : ∀ base ∈ resetBases i, Machine.line i s ≠ base + 1) :
    LiveAlike F K i (Machine.rmwWrite reg mask value s) (Machine.rmwWrite reg mask value t) := by
  have hu := upc_ne_of_line h0
  have ht : t.tmp = s.tmp := h.tmp ⟨hb, hu⟩
  unfold Machine.rmwWrite
  rw [ht]
  exact h.busWrite fun u u' hc hd => hd.live (fun _ => ⟨hb, hu⟩) fun hs =>
    ⟨hb, pollSet_of_countUp hl (by simpa [hc] using hs)⟩

/-- The head of the poll loop. -/
theorem LiveAlike.pollHead (h : LiveAlike F K i s t) (hp : t.poll = s.poll) :
    LiveAlike F K i (Machine.pollHead s) (Machine.pollHead t) := by
  unfold Machine.pollHead
  rw [hp, h.fields.1]
  split
  · exact h
  · exact Alike.live_finish h _

end LiveAlike

/-! ### The sequences -/

/-- The same answer, of next states alike in what operation `i` still reads. -/
abbrev LiveOutcome (F K : Prop) (i : Instr) : Out → Out → Prop := SameOutcome (LiveAlike F K i)

section Sequences
variable {F K : Prop} {i : Instr} {s t : State} {base o : Nat}

/-- A soft reset, if what follows it keeps states alike. -/
theorem softResetSeq_alike (h : LiveAlike F K i s t) (hb : s.busy = true) (hbase : base ∈ resetBases i)
    (hl : line i s = base + o) (ho : ∀ b ∈ resetBases i, base ≠ b + 1) (tbl : KindTable) (room : Upc)
    {done : State → State}
    (hd : ∀ u u', Alike F K True True u u' → LiveAlike F K i (done u) (done u')) :
    LiveOutcome F K i (softResetSeq tbl room o done s) (softResetSeq tbl room o done t) := by
  match o, hl with
  | 0, hl => exact h.busRead_setTmp hb (by simpa [hl] using ho)
  | 1, hl =>
    have hu : s.upc ≠ 0 := upc_ne_of_line (i := i) (by omega)
    have ht : t.tmp = s.tmp := h.tmp ⟨hb, hu⟩
    show LiveAlike F K i (busWrite _ (s.tmp ||| _) _ s) (busWrite _ (t.tmp ||| _) _ t)
    rw [ht]
    exact h.busWrite fun u u' _ hd =>
      LiveAlike.pollHead ((hd.setPoll 0).live (fun _ => ⟨hb, hu⟩) fun _ => trivial) (by simp)
  | 2, hl =>
    exact (Alike.carry h pollWait).live (fun _ => ⟨hb, upc_ne_of_line (i := i) (by omega)⟩)
      fun _ => ⟨hb, pollSet_of_line hbase (by omega)⟩
  | 3, hl =>
    refine h.busRead fun v u u' _ hd' => ?_
    have hc : Alike F K True True (countPoll room (setTmp v u)) (countPoll room (setTmp v u')) :=
      ((hd'.setTmp v).countPoll room).mono id fun _ => ⟨hb, pollSet_of_line hbase (by omega)⟩
    show LiveAlike F K i (pollCheck tbl done _) (pollCheck tbl done _)
    unfold pollCheck
    rw [hc.tmp trivial]
    split
    · exact hd _ _ hc
    · exact LiveAlike.pollHead (hc.live (fun _ => trivial) fun _ => trivial) (hc.poll trivial)
  | n + 4, hl => exact rfl

/-- The auto-negotiation setup. -/
theorem setAutonegSeq_alike (h : LiveAlike F K i s t) (hb : s.busy = true) (hbase : base + 6 ∈ resetBases i)
    (hl : line i s = base + o) (ho : ∀ n < 7, ∀ b ∈ resetBases i, base + n ≠ b + 1) (tbl : KindTable)
    (caps : CapSet) (v : Value) :
    LiveOutcome F K i (setAutonegSeq tbl o caps (succeed v) s) (setAutonegSeq tbl o caps (succeed v) t) := by
  have outside : o < 7 → ∀ b ∈ resetBases i, line i s ≠ b + 1 := fun h7 => by simpa [hl] using ho o h7
  have later : o ≠ 0 → line i s ≠ 0 := fun h0 => by omega
  match o, hl, outside, later with
  | 0, _, outside, _ | 2, _, outside, _ | 4, _, outside, _ => exact h.busRead_setTmp hb (outside (by decide))
  | 1, _, outside, later | 3, _, outside, later | 5, _, outside, later =>
    exact h.rmwWrite hb (later (by decide)) (outside (by decide))
  | n + 6, hl, _, _ =>
    exact softResetSeq_alike h hb hbase (by omega) (ho 6 (by decide)) tbl 62 fun u u' hu =>
      (hu.setFsm fun _ => rfl).live_finish _

/-- A driver operation: the binding is the same. -/
theorem driver_alike {f g : KindTable → Out} (h : LiveAlike F K i s t)
    (hf : ∀ tbl, tbl = kindTable s.params .kModeled → LiveOutcome F K i (f tbl) (g tbl)) :
    LiveOutcome F K i (driver s f) (driver t g) := by
  obtain ⟨hp, hk, -⟩ := h.fields
  cases hs : s.kind with
  | none =>
    rw [driver_unbound hs, driver_unbound (hk.trans hs)]
    exact Alike.live_finish h _
  | some k =>
    cases k
    rw [driver_bound hs, driver_bound (hk.trans hs), hp]
    exact hf _ rfl

/-- IDENTIFY's directory match reads both scratch elements. -/
theorem identifyMatch_alike {T P : Prop} {u u' : State} (h : Alike F K T P u u') (hT : T) (v : Word16) :
    LiveAlike F K i (identifyMatch (setTmp2 v u)) (identifyMatch (setTmp2 v u')) := by
  unfold identifyMatch
  simp only [setTmp2_fields, h.tmp hT, h.fields.1]
  split
  · exact ((h.setTmp2 v).carry (bindKind _ _)).live_finish _
  · exact (h.setTmp2 v).live_finish _

/-- A link status moves the label from the one found. -/
theorem linkResult_alike {T P : Prop} {u u' : State} (h : Alike F K T P u u') (v : Word16) :
    LiveAlike F K i (linkResult (setTmp v u)) (linkResult (setTmp v u')) := by
  have hf : F → u'.fsm = u.fsm := by
    cases h
    assumption
  unfold linkResult
  simp only [setTmp_fields, h.fields.1]
  split
  · exact (h.setTmp v).live_finish _
  · exact ((h.setTmp v).setFsm fun hF => congrArg (labelAfterLink · _) (hf hF)).live_finish _

end Sequences

/-! ### Every micro-step -/

/-- A micro-step of operation `i` keeps two states alike in what it still reads. -/
theorem exec_alike {F K : Prop} (i : Instr) {s t : State} (h : LiveAlike F K i s t) (hb : s.busy = true) :
    LiveOutcome F K i (exec i s) (exec i t) := by
  obtain ⟨hp, hk, -, -, hu, -⟩ := h.fields
  cases i with
  | identify =>
    show LiveOutcome F K _ (execIdentify s) (execIdentify t)
    unfold execIdentify
    rw [hu, hp]
    split
    · exact (show LiveAlike F K .identify (unbind s) (unbind t) from Alike.unbind h).busRead_setTmp hb
        (by simp [resetBases])
    · next h1 =>
      exact h.busRead fun v u u' _ hd =>
        identifyMatch_alike hd ⟨hb, fun h0 => by simp [h0] at h1⟩ v
    · exact rfl
  | isSgmiiCapable =>
    show LiveOutcome F K _ (execIsSgmiiCapable s) (execIsSgmiiCapable t)
    unfold execIsSgmiiCapable
    exact driver_alike h fun tbl _ => Alike.live_finish h _
  | enableSgmii =>
    show LiveOutcome F K _ (execEnableSgmii s) (execEnableSgmii t)
    unfold execEnableSgmii
    refine driver_alike h fun tbl ht => ?_
    subst ht
    have hl : ∀ l, sgmiiLine (kindTable s.params .kModeled) s = l → line .enableSgmii s = l := fun _ => id
    have hlt : sgmiiLine (kindTable s.params .kModeled) t = sgmiiLine (kindTable s.params .kModeled) s := by
      simpa [line, hp] using h.line hb
    have first : ∀ o, line .enableSgmii s = 2 + o → LiveOutcome F K .enableSgmii
        (softResetSeq (kindTable s.params .kModeled) 54 o (setFsm .sgmiiProbed) s)
        (softResetSeq (kindTable s.params .kModeled) 54 o (setFsm .sgmiiProbed) t) := fun o ho =>
      softResetSeq_alike h hb (by simp [resetBases]) ho (by simp [resetBases]) _ 54 fun u u' hu =>
        (hu.setFsm fun _ => rfl).live (fun _ => trivial) fun _ => trivial
    simp only [hlt]
    split
    · next h0 => exact h.busRead_setTmp hb (by simp [hl _ h0, resetBases])
    · next h1 => exact h.rmwWrite hb (by simp [hl _ h1]) (by simp [hl _ h1, resetBases])
    · next ho => exact first 0 (hl _ ho)
    · next ho => exact first 1 (hl _ ho)
    · next ho => exact first 2 (hl _ ho)
    · next ho => exact first 3 (hl _ ho)
    · next n hn =>
      exact setAutonegSeq_alike (base := 6) h hb (by simp [resetBases]) (by rw [hl _ hn, Nat.add_comm])
        (by simp [resetBases]; omega) _ allCaps .unit
  | softReset =>
    show LiveOutcome F K _ (execSoftReset s) (execSoftReset t)
    unfold execSoftReset
    refine driver_alike h fun tbl _ => ?_
    rw [show resetLine 0 t = resetLine 0 s from h.line hb]
    exact softResetSeq_alike (base := 0) h hb (by simp [resetBases]) (Nat.zero_add _).symm (by simp [resetBases])
      tbl 62 fun u u' hu => hu.live_finish _
  | setAutonegCaps caps =>
    show LiveOutcome F K _ (execSetAutonegCaps caps s) (execSetAutonegCaps caps t)
    unfold execSetAutonegCaps
    refine driver_alike h fun tbl _ => ?_
    rw [show resetLine 6 t = resetLine 6 s from h.line hb]
    exact setAutonegSeq_alike (base := 0) h hb (by simp [resetBases]) (Nat.zero_add _).symm
      (by simp [resetBases]; omega) tbl caps .unit
  | getLpCaps =>
    show LiveOutcome F K _ (execGetLpCaps s) (execGetLpCaps t)
    unfold execGetLpCaps
    refine driver_alike h fun tbl _ => ?_
    rw [hu]
    split
    · exact h.busRead_setTmp hb (by simp [resetBases])
    · next h1 =>
      refine h.busRead fun v u u' _ hd => ?_
      rw [hd.tmp ⟨hb, fun h0 => by simp [h0] at h1⟩]
      exact (hd.setTmp2 v).live_finish _
    · exact rfl
  | getLinkStatus =>
    show LiveOutcome F K _ (execGetLinkStatus s) (execGetLinkStatus t)
    unfold execGetLinkStatus
    exact driver_alike h fun tbl _ => h.busRead fun v u u' _ hd => linkResult_alike hd v
  | setSpeedDuplex speed duplex =>
    show LiveOutcome F K _ (execSetSpeedDuplex speed duplex s) (execSetSpeedDuplex speed duplex t)
    unfold execSetSpeedDuplex
    refine driver_alike h fun tbl _ => ?_
    split
    · exact Alike.live_finish h _
    · exact h.busWrite fun u u' _ hd => (hd.setFsm fun _ => rfl).live_finish _
  | encAdv caps =>
    show LiveOutcome F K _ (execEncAdv caps s) (execEncAdv caps t)
    unfold execEncAdv
    rw [hp]
    exact Alike.live_finish h _
  | decLpCaps a g =>
    show LiveOutcome F K _ (execDecLpCaps a g s) (execDecLpCaps a g t)
    unfold execDecLpCaps
    rw [hp]
    exact Alike.live_finish h _
  | decLinkStatus b =>
    show LiveOutcome F K _ (execDecLinkStatus b s) (execDecLinkStatus b t)
    unfold execDecLinkStatus
    rw [hp]
    split
    · exact Alike.live_finish h _
    · exact Alike.live_finish h _
  | busRead reg => exact h.busRead fun v u u' _ hd => (hd.setTmp v).live_finish _
  | busWrite reg value => exact h.busWrite fun u u' _ hd => hd.live_finish _

end Sys2Proof.Machine
end

section
/-! PROOFS. Every step and every run keeps blocks alike, whatever the host does and the PHY answers (O58). -/

namespace Sys2Proof.Machine

/-- What an answer says of the operation in progress: it goes on, or it has ended with the result logged. -/
inductive Life (s t : State) : Prop
  | goesOn (hl : t.log = s.log ∨ ∃ e, Event.counts e = true ∧ t.log = e :: s.log) (hc : t.cur = s.cur)
  | ends (r : Result) (es : List Event) (hl : t.log = .done r :: (es ++ s.log)) (he : Ended r t)

/-- The end of an acknowledged transaction `e`. -/
theorem Tail.life_cases {tmp : Word16} {poll : Nat} {e : Event} {s u t : State} (h : Tail tmp poll u t)
    (he : e.counts = true) (hlog : u.log = e :: s.log) (hc : u.cur = s.cur) : Life s t := by
  rcases h.life with ⟨hl, -, hcur, -⟩ | ⟨r, hl, hr⟩
  · exact .goesOn (.inr ⟨e, he, hl.trans hlog⟩) (hcur.trans hc)
  · exact .ends r [e] (by rw [hl, hlog]; rfl) hr

/-- Every micro-step is of one kind or the other. -/
theorem exec_life {i : Instr} {s t : State} (ht : exec i s = .next t) : Life s t := by
  apply exec_elim ht
  case unbound => exact fun _ _ => .ends _ [] rfl ⟨rfl, rfl, rfl, rfl⟩
  case internal => exact fun r _ => .ends r [] rfl ⟨rfl, rfl, rfl, rfl⟩
  case wait => exact fun _ _ _ => .goesOn (.inr ⟨_, rfl, rfl⟩) rfl
  case read =>
    intro reg w v _ _ _ hv
    exact (readEnd_tail hv).life_cases (e := .read s.params.phyDevAddr reg (.ack w)) rfl
      (by simp [readDone, cleared_fields]) (by simp [readDone, cleared_fields])
  case write =>
    intro reg x v _ _ _ hv
    exact (writeEnd_tail hv).life_cases (e := .write s.params.phyDevAddr reg (toWire s.params x) .ack) rfl rfl rfl
  case readNoDevice => exact fun reg _ _ => .ends _ [_] (by simp [cleared_fields]; rfl) ⟨rfl, rfl, rfl, rfl⟩
  case readBusError => exact fun reg _ _ => .ends _ [_] (by simp [cleared_fields]; rfl) ⟨rfl, rfl, rfl, rfl⟩
  case readSilent => exact fun reg _ _ => .goesOn (.inl (by simp [cleared_fields])) (by simp [cleared_fields])
  case writeNoDevice => exact fun reg x _ _ => .ends _ [_] rfl ⟨rfl, rfl, rfl, rfl⟩
  case writeBusError => exact fun reg x _ _ => .ends _ [_] rfl ⟨rfl, rfl, rfl, rfl⟩
  case writeSilent => exact fun reg x _ _ => .goesOn (.inl rfl) rfl

/-- An operation that goes on stays in `cur`. -/
theorem exec_cur {i : Instr} {s t : State} (ht : exec i s = .next t) (hb : t.busy = true) : t.cur = s.cur := by
  cases exec_life ht with
  | goesOn _ hc => exact hc
  | ends r es _ he =>
    obtain ⟨-, -, hbusy, -⟩ := he
    simp [hb] at hbusy

/-- Two states alike in what the operation in progress still reads. -/
def BlockAlike (F K : Prop) (s t : State) : Prop :=
  Alike F K (s.busy = true ∧ s.upc ≠ 0)
    (s.busy = true ∧ ∃ d i, s.cur = some d ∧ decode d = .ok i ∧ PollSet i s.upc) s t

theorem Alike.block {F K T P : Prop} {s t : State} (h : Alike F K T P s t) (hu : s.busy = false ∨ s.upc = 0) :
    BlockAlike F K s t := by
  have hidle : ¬ (s.busy = true ∧ s.upc ≠ 0) := by
    rcases hu with hu | hu <;> simp [hu]
  refine h.mono (fun hc => absurd hc hidle) ?_
  rintro ⟨hb, d, i, -, -, base, -, hle⟩
  refine absurd ⟨hb, fun h0 => ?_⟩ hidle
  simp [h0] at hle

theorem SameOutcome.mono {R Q : State → State → Prop} {a b : Out} (h : SameOutcome R a b)
    (hRQ : ∀ s t, a = .next s → b = .next t → R s t → Q s t) : SameOutcome Q a b := by
  cases a <;> cases b
  case next.next => exact hRQ _ _ rfl rfl h
  all_goals exact h

/-- The host's read, as rewritings. -/
theorem hostRead_some {s : State} {r : Result} (h : s.result = some r) :
    hostRead s = .next { s with replies := r :: s.replies } := by
  simp only [hostRead, h]

theorem hostRead_none {s : State} (h : s.result = none) : hostRead s = .fault .resultUnread := by
  simp only [hostRead, h]

section BlockAlike
variable {F K : Prop} {s t : State}

/-- The host's list is no concern of the operation in progress. -/
theorem BlockAlike.setHost (h : BlockAlike F K s t) (l : List HostEvent) :
    BlockAlike F K (Machine.setHost l s) (Machine.setHost l t) :=
  Alike.carry h (Machine.setHost l)

/-- The controller's turn. -/
theorem controllerStep_alike (h : BlockAlike F K s t) :
    SameOutcome (BlockAlike F K) (controllerStep s) (controllerStep t) := by
  obtain ⟨-, -, hb, hc, -⟩ := h.fields
  unfold controllerStep
  rw [hb, hc]
  split
  · next busy =>
    split
    · next d hd =>
      split
      · next i hi =>
        refine (exec_alike i (h.mono id fun ⟨hb, hp⟩ => ⟨hb, d, i, hd, hi, hp⟩) busy).mono
          fun s' t' hs _ hst => hst.mono id fun ⟨hb, e, j, he, hj, hp⟩ => ⟨hb, ?_⟩
        rw [exec_cur hs hb, hd] at he
        cases he
        cases hi.symm.trans hj
        exact hp
      · exact (Alike.carry h (finish _)).block (.inl rfl)
    · exact rfl
  · exact h

/-- Every step: the parameters and the host's list are the same. -/
theorem step_alike (h : BlockAlike F K s t) : SameOutcome (BlockAlike F K) (step s) (step t) := by
  obtain ⟨hp, -, hb, -, -, hh, -⟩ := h.fields
  have hres : t.result = s.result := by cases h; rfl
  unfold step stepOnce
  rw [hp]
  split
  · exact rfl
  · unfold hostStep
    rw [hh]
    split
    · exact controllerStep_alike h
    · cases h
      exact Alike.refl
    · next rest _ =>
      cases hr : s.result with
      | none =>
        rw [hostRead_none (s := setHost rest s) hr, hostRead_none (s := setHost rest t) (hres.trans hr)]
        exact rfl
      | some r =>
        rw [hostRead_some (s := setHost rest s) hr, hostRead_some (s := setHost rest t) (hres.trans hr)]
        exact (h.setHost rest).carry fun x => { x with replies := r :: x.replies }
    · exact controllerStep_alike (h.setHost _)
    · rw [hb]
      split
      · exact controllerStep_alike h
      · exact ((h.setHost _).carry (acceptOp _)).block (.inr rfl)

end BlockAlike

/-- A run of one step more: the step, then the rest of the run or the stop. -/
theorem run_succ_next {n : Nat} {s u : State} (h : step s = .next u) : run (n + 1) s = run n u := by
  have h' : core.step s = .next u := h
  simp only [run, Host.Core.run, h'] <;> rfl

theorem run_succ_fault {n : Nat} {s : State} {r : Fault} (h : step s = .fault r) : run (n + 1) s = .fault r := by
  have h' : core.step s = .fault r := h
  simp only [run, Host.Core.run, h'] <;> rfl

theorem run_succ_refused {n : Nat} {s : State} {r : Refusal} (h : step s = .refused r) :
    run (n + 1) s = .refused r := by
  have h' : core.step s = .refused r := h
  simp only [run, Host.Core.run, h'] <;> rfl

/-- A relation that every step keeps, every run keeps. -/
theorem run_same {R : State → State → Prop} (hstep : ∀ s t, R s t → SameOutcome R (step s) (step t)) :
    ∀ (n : Nat) {s t : State}, R s t → SameOutcome R (run n s) (run n t)
  | 0, _, _, h => h
  | n + 1, s, t, h => by
    have h1 := hstep s t h
    cases hs : step s <;> cases ht : step t <;> rw [hs, ht] at h1
    case next.next =>
      rw [run_succ_next hs, run_succ_next ht]
      exact run_same hstep n h1
    case fault.fault => rwa [run_succ_fault hs, run_succ_fault ht]
    case refused.refused => rwa [run_succ_refused hs, run_succ_refused ht]
    all_goals exact h1.elim

/-- Settles O58: what differs is read by no operation, idle or at its start. -/
theorem scratchNeverCarriesOver : Obligations.ScratchNeverCarriesOver := by
  intro n s t h hidle
  have halike : Alike True False False False s t := by
    rw [← h]
    exact ⟨s.fsm, t.tmp, t.tmp2, t.poll, fun _ => rfl, by simp, by simp, by simp⟩
  refine (run_same (fun _ _ => step_alike) n (halike.block hidle)).mono fun s' t' _ _ h' => ?_
  obtain ⟨f, a, b, m, hf, -⟩ := h'
  obtain rfl := hf trivial
  rfl

/-- Two blocks that differ only in the label differ in nothing else after any number of steps. -/
theorem run_sameButLabel (n : Nat) {s t : State} (h : SameButLabel s t) :
    SameOutcome SameButLabel (run n s) (run n t) := by
  have halike : BlockAlike False True s t := by
    rw [← h]
    exact ⟨t.fsm, s.tmp, s.tmp2, s.poll, by simp, fun _ => rfl, fun _ => rfl, fun _ => rfl⟩
  refine (run_same (fun _ _ => step_alike) n halike).mono fun s' t' _ _ h' => ?_
  obtain ⟨f, a, b, m, -, hb, ha, hm⟩ := h'
  obtain rfl := hb trivial
  obtain rfl := ha (.inl trivial)
  obtain rfl := hm (.inl trivial)
  rfl

end Sys2Proof.Machine
end

section
/-! PROOFS. The transitions of the label (O48): what each micro-step makes of it, and that nothing else depends on
it. -/

namespace Sys2Proof.Machine

/-- What a micro-step makes of the label, and of the log with it. -/
inductive LabelMove (i : Instr) (s t : State) : Prop
  /-- The operation goes on; IDENTIFY's clearing stands. -/
  | kept (hl : t.log = s.log ∨ ∃ e, Event.counts e = true ∧ t.log = e :: s.log) (hf : t.fsm = (cleared i s).fsm)
  /-- ENABLE_SGMII's first soft reset has returned. -/
  | probed (hi : i = .enableSgmii) (hl5 : line i s = 5) (w : Word16) (hw : readAnswer s.params.regCtrl s = .ack w)
      (hb : resetBit s.params w = false) (e : Event) (he : e.counts = true) (hl : t.log = e :: s.log)
      (hf : t.fsm = .sgmiiProbed)
  /-- The operation ends with `Ok`. -/
  | succeeded (v : Value) (es : List Event) (hl : t.log = .done (.ok v) :: (es ++ s.log))
      (hf : t.fsm = labelOnSuccess i s.fsm v)
  /-- It ends with `Err`. -/
  | failed (c : ErrCode) (es : List Event) (hl : t.log = .done (.err c) :: (es ++ s.log))
      (hf : t.fsm = (cleared i s).fsm)

/-- The label after GET_LINK_STATUS is that of R100's table. -/
theorem labelAfterLink_eq (l : FsmState) (ls : LinkStatus) :
    labelAfterLink l ls.state = labelOnSuccess .getLinkStatus l (.link ls) := by
  obtain ⟨state, speed, duplex⟩ := ls
  cases l <;> cases state <;> rfl

/-- The label after an acknowledged read of an operation other than IDENTIFY. -/
theorem ReadEnd.label {i : Instr} {reg : RegNum} {w : Word16} {e : Event} {s u t : State}
    (h : ReadEnd i (line i s) (fromWire s.params w) u t) (hi : i ≠ .identify) (he : e.counts = true)
    (hlog : u.log = e :: s.log) (hf : u.fsm = s.fsm) (hw : readAnswer reg s = .ack w)
    (hm : microStep .kModeled i s = .read reg) : LabelMove i s t := by
  have hc : cleared i s = s := cleared_of_ne hi
  cases h with
  | kept => exact .kept (.inr ⟨e, he, hlog⟩) (by rw [hc]; exact hf)
  | again base => exact .kept (.inr ⟨e, he, hlog⟩) (by rw [hc]; exact hf)
  | timeout base => exact .failed _ [e] (congrArg (_ :: ·) hlog) (by rw [hc]; exact hf)
  | probed hi' hl hv =>
    subst hi'
    obtain rfl : s.params.regCtrl = reg := by
      simpa [microStep, listing, resetListing, hl, kindTable] using hm
    exact .probed rfl hl w hw ((and_reset_eq_zero _).mp hv) e he hlog rfl
  | committed hi' base =>
    refine .succeeded .unit [e] (congrArg (_ :: ·) hlog) ?_
    rcases hi' with rfl | ⟨caps, rfl⟩ <;> rfl
  | reset hi' base => subst hi'; exact .succeeded .unit [e] (congrArg (_ :: ·) hlog) hf
  | identified hi' => exact absurd hi' hi
  | partner hi' c => subst hi'; exact .succeeded _ [e] (congrArg (_ :: ·) hlog) hf
  | word r hi' => subst hi'; exact .succeeded _ [e] (congrArg (_ :: ·) hlog) hf
  | link hi' =>
    subst hi'
    unfold linkResult
    split
    · exact .failed _ [e] (congrArg (_ :: ·) hlog) (by rw [hc]; exact hf)
    · next ls _ => exact .succeeded (.link ls) [e] (congrArg (_ :: ·) hlog) (by simp [hf, labelAfterLink_eq])

/-- The label after an acknowledged write. -/
theorem WriteEnd.label {i : Instr} {l : Nat} {e : Event} {s u t : State} (h : WriteEnd i l u t) (hi : i ≠ .identify)
    (he : e.counts = true) (hlog : u.log = e :: s.log) (hf : u.fsm = s.fsm) : LabelMove i s t := by
  have hc : cleared i s = s := cleared_of_ne hi
  cases h with
  | more => exact .kept (.inr ⟨e, he, hlog⟩) (by rw [hc, hf])
  | poll base => exact .kept (.inr ⟨e, he, hlog⟩) (by rw [hc]; exact hf)
  | timeout => exact .failed _ [e] (congrArg (_ :: ·) hlog) (by rw [hc]; exact hf)
  | forced speed duplex hi' => subst hi'; exact .succeeded .unit [e] (congrArg (_ :: ·) hlog) rfl
  | written reg value hi' => subst hi'; exact .succeeded .unit [e] (congrArg (_ :: ·) hlog) hf

/-- The label after an internal step. -/
theorem InternalEnd.label {i : Instr} {r : Result} {s : State} (h : InternalEnd s.params i r) :
    LabelMove i s (finish r s) := by
  cases h with
  | speed | decodeFault => exact .failed _ [] rfl rfl
  | capable | advBits | caps | link => exact .succeeded _ [] rfl rfl

/-- IDENTIFY's first micro-step clears the label, whatever its answer, and does not succeed. -/
theorem exec_identify_first_label {s t : State} (h0 : s.upc = 0) (ht : exec .identify s = .next t) :
    LabelMove .identify s t ∧ t.fsm = .uninitialized := by
  have hc : (cleared .identify s).fsm = .uninitialized := by simp [cleared, h0]
  rw [exec_identify_first h0] at ht
  cases ht
  rcases busRead_cases s.params.regId1 setTmp (unbind s) with ⟨w, -, h⟩ | ⟨-, h⟩ | ⟨-, h⟩ | ⟨-, h⟩ <;> rw [h]
  · exact ⟨.kept (.inr ⟨_, rfl, rfl⟩) hc.symm, rfl⟩
  · exact ⟨.failed _ [_] rfl hc.symm, rfl⟩
  · exact ⟨.failed _ [_] rfl hc.symm, rfl⟩
  · exact ⟨.kept (.inl rfl) hc.symm, rfl⟩

/-- Its second keeps the label. -/
theorem exec_identify_second_label {s t : State} (h1 : s.upc = 1) (ht : exec .identify s = .next t) :
    LabelMove .identify s t ∧ t.fsm = s.fsm := by
  have hc : (cleared .identify s).fsm = s.fsm := by simp [cleared, h1]
  rw [exec_identify_second h1] at ht
  cases ht
  rcases busRead_cases s.params.regId2 (fun v u => identifyMatch (setTmp2 v u)) s with
    ⟨w, -, h⟩ | ⟨-, h⟩ | ⟨-, h⟩ | ⟨-, h⟩ <;> rw [h]
  · simp only [identifyMatch]
    split
    · exact ⟨.succeeded _ [_] rfl rfl, rfl⟩
    · exact ⟨.failed _ [_] rfl hc.symm, rfl⟩
  · exact ⟨.failed _ [_] rfl hc.symm, rfl⟩
  · exact ⟨.failed _ [_] rfl hc.symm, rfl⟩
  · exact ⟨.kept (.inl rfl) hc.symm, rfl⟩

/-- Every micro-step makes one of these of the label. -/
theorem exec_label {i : Instr} {s t : State} (ht : exec i s = .next t) : LabelMove i s t := by
  by_cases hi : i = .identify
  · subst hi
    rcases upc_of_exec_identify ht with h | h
    · exact (exec_identify_first_label h ht).1
    · exact (exec_identify_second_label h ht).1
  have hc : cleared i s = s := cleared_of_ne hi
  apply exec_elim ht
  case unbound => exact fun _ _ => .failed _ [] rfl (by rw [hc]; rfl)
  case internal => exact fun r hr => hr.label
  case wait => exact fun _ _ _ => .kept (.inr ⟨_, rfl, rfl⟩) (by rw [hc]; rfl)
  case read =>
    intro reg w v _ hw hm hv
    exact hv.label (e := .read s.params.phyDevAddr reg (.ack w)) hi rfl (by simp [readDone, hc])
      (by simp [readDone, hc]) hw hm
  case write =>
    intro reg x v _ _ _ hv
    exact hv.label (e := .write s.params.phyDevAddr reg (toWire s.params x) .ack) hi rfl rfl rfl
  case readNoDevice => exact fun reg _ _ => .failed _ [_] (by rw [hc]; rfl) rfl
  case readBusError => exact fun reg _ _ => .failed _ [_] (by rw [hc]; rfl) rfl
  case readSilent => exact fun reg _ _ => .kept (.inl (by simp [hc])) rfl
  case writeNoDevice => exact fun reg x _ _ => .failed _ [_] rfl (by rw [hc]; rfl)
  case writeBusError => exact fun reg x _ _ => .failed _ [_] rfl (by rw [hc]; rfl)
  case writeSilent => exact fun reg x _ _ => .kept (.inl rfl) (by rw [hc]; rfl)

/-! ### What follows -/

/-- The label IDENTIFY's clearing leaves. -/
theorem cleared_fsm (i : Instr) (s : State) :
    (cleared i s).fsm = if i = .identify ∧ s.upc = 0 then .uninitialized else s.fsm := by
  unfold cleared
  split <;> rfl

/-- R100's table gives the label found or one of the operation's row. -/
theorem labelOnSuccess_mem (i : Instr) (l : FsmState) (v : Value) :
    labelOnSuccess i l v = l ∨ labelOnSuccess i l v ∈ labelsSet i := by
  cases i with
  | getLinkStatus =>
    cases v with
    | link ls =>
      simp only [labelOnSuccess, labelsSet]
      split_ifs <;> simp
    | _ => exact .inl rfl
  | enableSgmii | setAutonegCaps | setSpeedDuplex => exact .inr (by simp [labelOnSuccess, labelsSet])
  | _ => exact .inl rfl

/-- The end of an operation is no transaction and no wait. -/
theorem not_goesOn_of_done {r : Result} {es l l' : List Event} (h : l' = .done r :: (es ++ l)) :
    ¬ (l' = l ∨ ∃ e, Event.counts e = true ∧ l' = e :: l) := by
  rintro (h' | ⟨e, he, h'⟩)
  · have := congrArg List.length (h'.symm.trans h)
    simp at this
    omega
  · obtain ⟨rfl, -⟩ := List.cons.inj (h'.symm.trans h)
    cases he

/-- A transaction or a wait is no end of an operation. -/
theorem head_ne_done {r : Result} {l l' : List Event}
    (h : l' = l ∨ ∃ e, Event.counts e = true ∧ l' = e :: l) (hne : l' ≠ l) : l'.head? ≠ some (.done r) := by
  obtain ⟨e, he, rfl⟩ := h.resolve_left hne
  rintro ⟨⟩
  cases he

/-- A label kept or cleared, or one of the operation's row. -/
theorem LabelMove.mem {i : Instr} {s t : State} (h : LabelMove i s t) : t.fsm = s.fsm ∨ t.fsm ∈ labelsSet i := by
  have hcl : (cleared i s).fsm = s.fsm ∨ (cleared i s).fsm ∈ labelsSet i := by
    rw [cleared_fsm]
    split
    · next h => exact .inr (by simp [h.1, labelsSet])
    · exact .inl rfl
  cases h with
  | kept _ hf => rwa [hf]
  | failed _ _ _ hf => rwa [hf]
  | probed hi _ _ _ _ _ _ _ hf => exact .inr (by simp [hi, hf, labelsSet])
  | succeeded v _ _ hf => rw [hf]; exact labelOnSuccess_mem i s.fsm v

/-- A micro-step that does not end the operation. -/
theorem LabelMove.goesOn {i : Instr} {s t : State} (h : LabelMove i s t)
    (hl : t.log = s.log ∨ ∃ e, Event.counts e = true ∧ t.log = e :: s.log) :
    t.fsm = s.fsm ∨ (i = .identify ∧ s.upc = 0 ∧ t.fsm = .uninitialized) ∨
      (i = .enableSgmii ∧ line i s = 5 ∧ t.fsm = .sgmiiProbed ∧
        ∃ w, readAnswer s.params.regCtrl s = .ack w ∧ resetBit s.params w = false) := by
  cases h with
  | kept _ hf =>
    rw [cleared_fsm] at hf
    split at hf
    · next h => exact .inr (.inl ⟨h.1, h.2, hf⟩)
    · exact .inl hf
  | probed hi hl5 w hw hb _ _ _ hf => exact .inr (.inr ⟨hi, hl5, hf, w, hw, hb⟩)
  | succeeded _ _ hd => exact absurd hl (not_goesOn_of_done hd)
  | failed _ _ hd => exact absurd hl (not_goesOn_of_done hd)

/-- One that ends it with `Ok`. -/
theorem LabelMove.ok {i : Instr} {s t : State} {v : Value} (h : LabelMove i s t) (hne : t.log ≠ s.log)
    (hv : t.log.head? = some (.done (.ok v))) : t.fsm = labelOnSuccess i s.fsm v := by
  cases h with
  | kept hl _ => exact absurd hv (head_ne_done hl hne)
  | probed _ _ _ _ _ e he hl _ => exact absurd hv (head_ne_done (.inr ⟨e, he, hl⟩) hne)
  | succeeded v' es hl hf =>
    rw [hl] at hv
    cases hv
    exact hf
  | failed c es hl _ => simp [hl] at hv

/-- One that ends it with `Err`. -/
theorem LabelMove.err {i : Instr} {s t : State} {c : ErrCode} (h : LabelMove i s t) (hne : t.log ≠ s.log)
    (hc : t.log.head? = some (.done (.err c))) : t.fsm = (cleared i s).fsm := by
  cases h with
  | kept hl _ => exact absurd hc (head_ne_done hl hne)
  | probed _ _ _ _ _ e he hl _ => exact absurd hc (head_ne_done (.inr ⟨e, he, hl⟩) hne)
  | succeeded v es hl _ => simp [hl] at hc
  | failed _ _ _ hf => exact hf

/-- A running operation that has ended has logged its result. -/
theorem log_of_ended {i : Instr} {d : Descriptor} {s t : State} {r : Result} (hc : s.cur = some d)
    (ht : exec i s = .next t) (hr : Ended r t) : t.log ≠ s.log ∧ t.log.head? = some (.done r) := by
  obtain ⟨hres, hcur, -, -⟩ := hr
  cases exec_life ht with
  | goesOn _ h => simp [h, hc] at hcur
  | ends r' es hl he =>
    obtain ⟨hres', -, -, -⟩ := he
    cases hres.symm.trans hres'
    exact ⟨fun h => not_goesOn_of_done hl (.inl h), by simp [hl]⟩

/-- Settles O48: `LabelMove` says what a micro-step makes of the label, the invariant what the label was. -/
theorem labelTransitions : Obligations.LabelTransitions := by
  refine ⟨fun i s t ht => ?moves, fun s t ht => ⟨?first, ?second⟩, ?clear,
    fun i s t r hinv hc ht hr => ⟨?identify, ?sgmii⟩, fun l => by cases l <;> simp, fun n s t => run_sameButLabel n⟩
  case moves =>
    have h := exec_label ht
    exact ⟨h.mem, h.goesOn, fun v => h.ok, fun c hne hc => (h.err hne hc).trans (cleared_fsm i s)⟩
  case first => exact fun h0 _ => (exec_identify_first_label h0 ht).2
  case second => exact fun h1 => (exec_identify_second_label h1 ht).2
  case clear =>
    intro s k w hk hl hw hb
    obtain ⟨-, -, hclear, -⟩ := enableSgmiiMicroSteps s k w hk
    exact ⟨_, hclear hl hw hb, rfl⟩
  case identify =>
    rintro rfl
    rcases upc_of_exec_identify ht with h | h
    · exact (exec_identify_first_label h ht).2
    · exact (exec_identify_second_label h ht).2.trans ((hinv.running hc (by decide)).cleared rfl h).1
  case sgmii =>
    rintro c rfl rfl
    obtain ⟨hne, hhead⟩ := log_of_ended hc ht hr
    rw [(exec_label ht).err hne hhead, cleared_of_ne (by simp)]
    split
    · next h6 => exact (hinv.running hc (by decide)).probed rfl h6
    · rfl

end Sys2Proof.Machine
end

section
/-! PROOFS. Runs of an operation with soft resets, and ENABLE_SGMII's from acceptance to result (O57). -/

namespace Sys2Proof.Machine

/-! ### Runs in parts -/

/-- `n` steps from `s` end in a state with `P`. -/
def Reaches (n : Nat) (s : State) (P : State → Prop) : Prop := ∃ t, run n s = .next t ∧ P t

/-- A run in two parts. -/
theorem run_add {n : Nat} (m : Nat) {s t : State} (h : run n s = .next t) : run (n + m) s = run m t := by
  induction n generalizing s with
  | zero =>
    cases h
    rw [Nat.zero_add]
  | succ n ih =>
    rw [Nat.succ_add]
    cases hs : step s with
    | next u =>
      rw [run_succ_next hs] at h ⊢
      exact ih h
    | fault r => rw [run_succ_fault hs] at h; cases h
    | refused r => rw [run_succ_refused hs] at h; cases h

theorem Reaches.trans {n m : Nat} {s : State} {P Q : State → Prop} (h : Reaches n s P)
    (hPQ : ∀ t, P t → Reaches m t Q) : Reaches (n + m) s Q := by
  obtain ⟨t, ht, hp⟩ := h
  obtain ⟨u, hu, hq⟩ := hPQ t hp
  exact ⟨u, (run_add m ht).trans hu, hq⟩

theorem Reaches.of_step {s t : State} {P : State → Prop} (h : step s = .next t) (hp : P t) : Reaches 1 s P :=
  ⟨t, run_succ_next h, hp⟩

theorem Reaches.zero {s : State} {P : State → Prop} (h : P s) : Reaches 0 s P := ⟨s, rfl, h⟩

/-! ### Micro-steps by their listing -/

section Listing
variable {i : Instr} {s : State}

/-- An acknowledged read. -/
theorem exec_read_ack {reg : RegNum} {w : Word16} (hk : s.kind = some .kModeled)
    (hm : microStep .kModeled i s = .read reg) (hw : readAnswer reg s = .ack w) :
    ∃ t, exec i s = .next t ∧ ReadEnd i (line i s) (fromWire s.params w) (readDone i reg w s) t := by
  have hc := exec_cases i s
  generalize exec i s = out at hc ⊢
  cases hc with
  | unbound _ h => simp [hk] at h
  | read reg' k _ hm' _ hend =>
    obtain rfl : reg = reg' := by simpa [hm] using hm'
    exact ⟨_, rfl, by rw [busRead_cleared_ack hw]; exact hend _ _⟩
  | write _ _ _ _ hm' | wait _ _ _ hm' | internal _ hm' | off hm' => simp [hm] at hm'

/-- An acknowledged write. -/
theorem exec_write_ack {reg : RegNum} {x : Word16} (hk : s.kind = some .kModeled)
    (hm : microStep .kModeled i s = .write reg x) (hw : writeAnswer reg x s = .ack) :
    ∃ t, exec i s = .next t ∧ WriteEnd i (line i s) (writeDone reg x s) t := by
  have hc := exec_cases i s
  generalize exec i s = out at hc ⊢
  cases hc with
  | unbound _ h => simp [hk] at h
  | write reg' x' k _ hm' _ hend =>
    obtain ⟨rfl, rfl⟩ : reg = reg' ∧ x = x' := by simpa [hm] using hm'
    exact ⟨_, rfl, by rw [busWrite_ack hw]; exact hend _⟩
  | read _ _ _ hm' | wait _ _ _ hm' | internal _ hm' | off hm' => simp [hm] at hm'

/-- A wait. -/
theorem exec_wait (hk : s.kind = some .kModeled) (hm : microStep .kModeled i s = .wait) :
    exec i s = .next (pollWait s) := by
  have hc := exec_cases i s
  generalize exec i s = out at hc ⊢
  cases hc with
  | unbound _ h => simp [hk] at h
  | wait => rfl
  | read _ _ _ hm' | write _ _ _ _ hm' | internal _ hm' | off hm' => simp [hm] at hm'

/-- A read of an operation with soft resets, other than a poll read, is kept. -/
theorem ReadEnd.kept_eq {l : Nat} {v : Word16} {u t : State} (h : ReadEnd i l v u t) (hi : resetBases i ≠ [])
    (hl : ∀ b ∈ resetBases i, l ≠ b + 3) : t = setTmp v u ∧ l + 1 < seqLength i ∧ OutsidePoll i (l + 1) := by
  cases h with
  | kept h1 h2 => exact ⟨rfl, h1, h2⟩
  | again b hb h => exact absurd h (hl b hb)
  | timeout b hb h => exact absurd h (hl b hb)
  | committed _ b hb h => exact absurd h (hl b hb)
  | reset _ b hb h => exact absurd h (hl b hb)
  | probed hi' h => exact absurd h (hl 2 (by simp [hi', resetBases]))
  | identified hi' | partner hi' | link hi' | word _ hi' => simp [hi', resetBases] at hi

/-- A poll read that sees the reset bit set goes back to the wait while polls are left. -/
theorem ReadEnd.again_eq {base : Nat} {v : Word16} {u t : State} (h : ReadEnd i (base + 3) v u t)
    (hb : base ∈ resetBases i) (hv : v &&& 0x8000#16 ≠ 0#16) (hn : u.poll + 1 < u.params.nPoll) :
    t = polled i base v u := by
  have hi : resetBases i ≠ [] := List.ne_nil_of_mem hb
  cases h with
  | kept _ ho =>
    have := ho base hb
    omega
  | again b _ h =>
    obtain rfl : base = b := by omega
    rfl
  | timeout _ _ _ _ h => omega
  | probed _ _ h | committed _ _ _ _ h | reset _ _ _ _ h => exact absurd h hv
  | identified hi' | partner hi' | link hi' | word _ hi' => simp [hi', resetBases] at hi

/-- A write of an operation with soft resets, other than the one that sets the reset bit, writes nothing more. -/
theorem WriteEnd.more_eq {l : Nat} {u t : State} (h : WriteEnd i l u t) (hi : resetBases i ≠ [])
    (hl : ∀ b ∈ resetBases i, l ≠ b + 1) (hn : 0 < u.params.nPoll) :
    t = u ∧ l + 1 < seqLength i ∧ OutsidePoll i (l + 1) := by
  cases h with
  | more h1 h2 => exact ⟨rfl, h1, h2⟩
  | poll b hb h => exact absurd h (hl b hb)
  | timeout _ h => omega
  | forced _ _ hi' | written _ _ hi' => simp [hi', resetBases] at hi

/-- The write that sets the reset bit sets `poll` to 0. -/
theorem WriteEnd.poll_eq {base : Nat} {u t : State} (h : WriteEnd i (base + 1) u t) (hb : base ∈ resetBases i)
    (hn : 0 < u.params.nPoll) : t = setPoll 0 u := by
  have hi : resetBases i ≠ [] := List.ne_nil_of_mem hb
  cases h with
  | more _ ho =>
    have := ho base hb
    omega
  | poll => rfl
  | timeout _ h => omega
  | forced _ _ hi' | written _ _ hi' => simp [hi', resetBases] at hi

/-- The soft resets of a listing (41_driver.md R108). -/
theorem listing_reset {p : Params} {t : KindTable} {tmp : Word16} {base o : Nat} (hb : base ∈ resetBases i)
    (ho : o < 4) : listing p t tmp i (base + o) = resetListing t tmp o := by
  rcases resetBases_cases hb with ⟨rfl, rfl | rfl⟩ | ⟨rfl, rfl⟩ | ⟨caps, rfl, rfl⟩ <;>
    match o, ho with
    | 0, _ | 1, _ | 2, _ | 3, _ => rfl

end Listing

/-! ### In the middle of an operation -/

/-- What a whole run starts from: a well-formed bound block, and an operation with soft resets. -/
structure RunStart (i : Instr) (s : State) : Prop where
  wellFormed : s.params.WellFormed
  bound : s.kind = some .kModeled
  decodes : decode (encode i) = .ok i
  resets : resetBases i ≠ []

/-- `s` is in the middle of operation `i` that was at its start in `s₀`: at line `l` with `n` polls counted, the events
`es` logged since, and these answers to come. -/
structure Mid (i : Instr) (s₀ : State) (es : List Event) (reads : List ReadAnswer) (writes : List WriteAnswer)
    (l n : Nat) (s : State) : Prop where
  start : RunStart i s₀
  params : s.params = s₀.params
  host : s.host = []
  busy : s.busy = true
  cur : s.cur = some (encode i)
  kind : s.kind = s₀.kind
  phyId : s.phyId = s₀.phyId
  phy : s.phy = { s₀.phy with readScript := reads, writeScript := writes }
  log : s.log = es ++ s₀.log
  line : line i s = l
  poll : s.poll = n

/-- The next read is answered from the script. -/
theorem readAnswer_script {s : State} {a : ReadAnswer} {rest : List ReadAnswer} (h : s.phy.readScript = a :: rest)
    (reg : RegNum) : readAnswer reg s = a ∧ readPhy reg s = { s.phy with readScript := rest } := by
  unfold readAnswer readPhy phyRead
  rw [h]
  exact ⟨rfl, rfl⟩

theorem writeAnswer_script {s : State} {a : WriteAnswer} {rest : List WriteAnswer} (h : s.phy.writeScript = a :: rest)
    (reg : RegNum) (v : Word16) : writeAnswer reg v s = a ∧ writePhy reg v s = { s.phy with writeScript := rest } := by
  unfold writeAnswer writePhy phyWrite
  rw [h]
  exact ⟨rfl, rfl⟩

section Mid
variable {i : Instr} {s₀ s : State} {es : List Event} {reads : List ReadAnswer} {writes : List WriteAnswer}
  {l n base : Nat} {w : Word16}

/-- Every step is a micro-step of the operation. -/
theorem Mid.step (h : Mid i s₀ es reads writes l n s) : step s = exec i s :=
  stepRunsTheDecodedOperation s s _ i ⟨by rw [h.params]; exact h.start.wellFormed, .inl ⟨h.host, rfl⟩⟩ h.busy h.cur
    h.start.decodes

theorem Mid.bound (h : Mid i s₀ es reads writes l n s) : s.kind = some .kModeled := h.kind.trans h.start.bound

theorem Mid.ne_identify (h : Mid i s₀ es reads writes l n s) : i ≠ .identify := by
  rintro rfl
  exact h.start.resets rfl

theorem Mid.nPoll_pos (h : Mid i s₀ es reads writes l n s) : 0 < s.params.nPoll := by
  rw [h.params]
  exact Params.WellFormed.nPoll_pos h.start.wellFormed

/-- The micro-step is the listing's at line `l`. -/
theorem Mid.microStep (h : Mid i s₀ es reads writes l n s) :
    microStep .kModeled i s = listing s₀.params (kindTable s₀.params .kModeled) s.tmp i l := by
  rw [Machine.microStep, h.params, h.line]

/-- An acknowledged read, other than a poll read. -/
theorem Mid.read {reg : RegNum} (h : Mid i s₀ es (.ack w :: reads) writes l n s)
    (hm : listing s₀.params (kindTable s₀.params .kModeled) s.tmp i l = .read reg)
    (hl : ∀ b ∈ resetBases i, l ≠ b + 3) :
    Reaches 1 s fun t => Mid i s₀ (.read s₀.params.phyDevAddr reg (.ack w) :: es) reads writes (l + 1) n t ∧
      t.tmp = fromWire s₀.params w ∧ t.upc = countUp s.upc := by
  obtain ⟨ha, hy⟩ := readAnswer_script (by rw [h.phy]) reg
  obtain ⟨t, ht, hend⟩ := exec_read_ack h.bound (h.microStep.trans hm) ha
  rw [h.line] at hend
  obtain ⟨rfl, hlen, ho⟩ := hend.kept_eq h.start.resets hl
  refine Reaches.of_step (h.step.trans ht) ?_
  simp only [readDone, cleared_of_ne h.ne_identify, hy, h.params]
  refine ⟨{ h with phy := by simp [h.phy], log := by simp [h.log], line := ?_ }, rfl, rfl⟩
  exact Eq.trans (line_next (s := s) (by rwa [h.line]) (by rwa [h.line]) rfl rfl rfl) (congrArg (· + 1) h.line)

/-- An acknowledged write, other than the one that sets the reset bit. -/
theorem Mid.write {reg : RegNum} {x : Word16} (h : Mid i s₀ es reads (.ack :: writes) l n s)
    (hm : listing s₀.params (kindTable s₀.params .kModeled) s.tmp i l = .write reg x)
    (hl : ∀ b ∈ resetBases i, l ≠ b + 1) :
    Reaches 1 s fun t =>
      Mid i s₀ (.write s₀.params.phyDevAddr reg (toWire s₀.params x) .ack :: es) reads writes (l + 1) n t := by
  obtain ⟨ha, hy⟩ := writeAnswer_script (by rw [h.phy]) reg x
  obtain ⟨t, ht, hend⟩ := exec_write_ack h.bound (h.microStep.trans hm) ha
  rw [h.line] at hend
  obtain ⟨rfl, hlen, ho⟩ := hend.more_eq h.start.resets hl h.nPoll_pos
  refine Reaches.of_step (h.step.trans ht) ?_
  simp only [writeDone, hy, h.params]
  refine { h with phy := by simp [h.phy], log := by simp [h.log], line := ?_ }
  exact Eq.trans (line_next (s := s) (by rwa [h.line]) (by rwa [h.line]) rfl rfl rfl) (congrArg (· + 1) h.line)

/-- A read-modify-write (20_memory.md R56). -/
theorem Mid.rmw {reg : RegNum} {mask value : Word16} (h : Mid i s₀ es (.ack w :: reads) (.ack :: writes) l n s)
    (hr : listing s₀.params (kindTable s₀.params .kModeled) s.tmp i l = .read reg)
    (hw : ∀ tmp, listing s₀.params (kindTable s₀.params .kModeled) tmp i (l + 1) =
      .write reg ((tmp &&& ~~~mask) ||| value))
    (hl : ∀ b ∈ resetBases i, l ≠ b + 3 ∧ l ≠ b) :
    Reaches 2 s (Mid i s₀ (rmwLog s₀.params reg mask value w ++ es) reads writes (l + 2) n) := by
  refine (h.read hr fun b hb => (hl b hb).1).trans (m := 1) fun t ⟨ht, htmp, _⟩ => ?_
  rw [rmwLog, ← htmp]
  exact ht.write (hw t.tmp) fun b hb => by
    have := (hl b hb).2
    omega

/-- A soft reset up to its first wait (41_driver.md R108). -/
theorem Mid.enterReset (h : Mid i s₀ es (.ack w :: reads) (.ack :: writes) base n s) (hb : base ∈ resetBases i)
    (hl : ∀ b ∈ resetBases i, base ≠ b + 3) :
    Reaches 2 s fun t => Mid i s₀ (resetLog s₀.params w [] ++ es) reads writes (base + 2) 0 t ∧
      t.upc = countUp (countUp s.upc) := by
  have hread := h.read (reg := s₀.params.regCtrl) (listing_reset (o := 0) hb (by decide)) hl
  refine hread.trans (m := 1) fun t ⟨ht, htmp, hupc⟩ => ?_
  have hm : Machine.microStep .kModeled i t = .write s₀.params.regCtrl (t.tmp ||| 0x8000#16) :=
    ht.microStep.trans (listing_reset (o := 1) hb (by decide))
  obtain ⟨ha, hy⟩ := writeAnswer_script (s := t) (by rw [ht.phy]) s₀.params.regCtrl (t.tmp ||| 0x8000#16)
  obtain ⟨u, hu, hend⟩ := exec_write_ack ht.bound hm ha
  rw [ht.line] at hend
  obtain rfl := hend.poll_eq hb ht.nPoll_pos
  refine Reaches.of_step (ht.step.trans hu) ?_
  simp only [writeDone, hy, ht.params]
  refine ⟨{ ht with phy := by simp [ht.phy], log := ?_, line := line_enter hb ht.line rfl, poll := rfl }, ?_⟩
  · simp [ht.log, resetLog, pollLog, htmp]
  · simp [hupc]

/-- A wait. -/
theorem Mid.wait (h : Mid i s₀ es reads writes (base + 2) n s) (hb : base ∈ resetBases i) :
    Reaches 1 s fun t => Mid i s₀ (.wait s₀.params.tPollMs :: es) reads writes (base + 3) n t ∧
      t.upc = countUp s.upc := by
  have hm := h.microStep.trans (listing_reset (o := 2) hb (by decide))
  refine Reaches.of_step (h.step.trans (exec_wait h.bound hm)) ⟨?_, rfl⟩
  exact { h with log := by simp [h.log, h.params], line := line_wait hb h.line }

/-- A wait and a poll read that sees the reset bit set, with polls left. -/
theorem Mid.pollAgain (h : Mid i s₀ es (.ack w :: reads) writes (base + 2) n s) (hb : base ∈ resetBases i)
    (hset : resetBit s₀.params w = true) (hn : n + 1 < s₀.params.nPoll) :
    Reaches 2 s fun t => Mid i s₀ (pollLog s₀.params [w] ++ es) reads writes (base + 2) (n + 1) t ∧
      t.upc = polledUpc i base (countUp s.upc) := by
  refine (h.wait hb).trans (m := 1) fun t ⟨ht, hupc⟩ => ?_
  have hm : Machine.microStep .kModeled i t = .read s₀.params.regCtrl :=
    ht.microStep.trans (listing_reset (o := 3) hb (by decide))
  obtain ⟨ha, hy⟩ := readAnswer_script (s := t) (by rw [ht.phy]) s₀.params.regCtrl
  obtain ⟨u, hu, hend⟩ := exec_read_ack ht.bound hm ha
  have hv : fromWire s₀.params w &&& 0x8000#16 ≠ 0#16 := fun hc => by
    have hclear : resetBit s₀.params w = false := (and_reset_eq_zero _).mp hc
    simp [hclear] at hset
  rw [ht.line, ht.params] at hend
  obtain rfl := hend.again_eq hb hv (by simpa [readDone, cleared_fields, ht.poll, ht.params] using hn)
  refine Reaches.of_step (ht.step.trans hu) ?_
  simp only [readDone, cleared_of_ne ht.ne_identify, hy, ht.params]
  refine ⟨{ ht with phy := by simp [polled, ht.phy], log := ?_, line := ?_, poll := ?_ }, ?_⟩
  · simp [polled, pollLog, ht.log]
  · exact line_again hb ht.line rfl rfl rfl hv
  · simp [polled, ht.poll]
  · simp [polled, polledUpc, hupc]

/-- The poll loop while the reset bit is set: two steps for each poll, `upc` counting them within its room. -/
theorem Mid.pollsAgain (set : List Word16) (h : Mid i s₀ es (set.map .ack ++ reads) writes (base + 2) n s)
    (hb : base ∈ resetBases i) (hset : ∀ w ∈ set, resetBit s₀.params w = true)
    (hn : n + set.length < s₀.params.nPoll) (hroom : s.upc.val ≤ (roomOf i base).val) :
    Reaches (2 * set.length) s fun t =>
      Mid i s₀ (pollLog s₀.params set ++ es) reads writes (base + 2) (n + set.length) t ∧
        t.upc.val = min (s.upc.val + 2 * set.length) (roomOf i base).val := by
  induction set generalizing s es n with
  | nil => exact Reaches.zero ⟨h, (Nat.min_eq_left hroom).symm⟩
  | cons w rest ih =>
    simp only [List.length_cons] at hn ⊢
    have hfirst := h.pollAgain hb (hset w (by simp)) (by omega)
    rw [show 2 * (rest.length + 1) = 2 + 2 * rest.length by omega]
    refine hfirst.trans fun t ⟨ht, hupc⟩ => ?_
    have h62 : (roomOf i base).val ≤ 62 := by
      unfold roomOf
      split <;> decide
    have hval : t.upc.val = min (s.upc.val + 2) (roomOf i base).val := by
      rw [hupc, polledUpc, within_val, countUp_val, countUp_val]
      split_ifs <;> omega
    obtain ⟨u, hu, hmid, hupc'⟩ := ih ht (fun w hw => hset w (by simp [hw])) (by omega) (by omega)
    refine ⟨u, hu, ?_, by omega⟩
    have hlog : pollLog s₀.params (w :: rest) = pollLog s₀.params rest ++ pollLog s₀.params [w] := by
      simp [pollLog]
    rw [hlog, List.append_assoc, Nat.add_comm rest.length 1, ← Nat.add_assoc]
    exact hmid

/-- A soft reset up to its last poll read: every poll before saw the reset bit set. -/
theorem Mid.toLastPoll {set : List Word16}
    (h : Mid i s₀ es (.ack w :: (set.map .ack ++ reads)) (.ack :: writes) base n s) (hb : base ∈ resetBases i)
    (hl : ∀ b ∈ resetBases i, base ≠ b + 3) (hset : ∀ w ∈ set, resetBit s₀.params w = true)
    (hn : set.length < s₀.params.nPoll) (hroom : s.upc.val + 2 ≤ (roomOf i base).val) :
    Reaches (3 + 2 * set.length) s fun t =>
      Mid i s₀ (.wait s₀.params.tPollMs :: (resetLog s₀.params w set ++ es)) reads writes (base + 3) set.length t ∧
        t.upc.val = min (s.upc.val + 2 + 2 * set.length) (roomOf i base).val + 1 := by
  have h62 : (roomOf i base).val ≤ 62 := by
    unfold roomOf
    split <;> decide
  rw [show 3 + 2 * set.length = 2 + (2 * set.length + 1) by omega]
  refine (h.enterReset hb hl).trans fun t ⟨ht, htupc⟩ => ?_
  have htval : t.upc.val = s.upc.val + 2 := by
    rw [htupc, countUp_val, countUp_val]
    split_ifs <;> omega
  refine (ht.pollsAgain set hb hset (by omega) (by omega)).trans fun u ⟨hu, huupc⟩ => ?_
  obtain ⟨x, hx, hmid, hxupc⟩ := hu.wait hb
  refine ⟨x, hx, ?_, ?_⟩
  · simpa [resetLog, pollLog, List.append_assoc] using hmid
  · rw [hxupc, countUp_val]
    split_ifs <;> omega

end Mid

/-! ### ENABLE_SGMII -/

section EnableSgmii
variable {s₀ s : State} {es : List Event} {reads : List ReadAnswer} {writes : List WriteAnswer} {l n : Nat}
  {w : Word16} {polls : List Word16}

/-- One more poll in the log of a soft reset. -/
theorem resetLog_concat (p : Params) (w last : Word16) (set : List Word16) :
    resetLog p w (set ++ [last]) =
      .read p.phyDevAddr p.regCtrl (.ack last) :: .wait p.tPollMs :: resetLog p w set := by
  simp [resetLog, pollLog]

/-- ENABLE_SGMII's first soft reset. -/
theorem Mid.firstReset
    (h : Mid .enableSgmii s₀ es (.ack w :: (polls.map .ack ++ reads)) (.ack :: writes) 2 n s)
    (hp : PollsToClear s₀.params polls) :
    Reaches (2 + 2 * polls.length) s
      (Mid .enableSgmii s₀ (resetLog s₀.params w polls ++ es) reads writes 6 polls.length) := by
  obtain ⟨set, last, rfl, hset, hclear, hlen⟩ := hp
  rw [List.length_append, List.length_singleton] at hlen ⊢
  rw [List.map_append, List.append_assoc] at h
  have hupc : s.upc.val = 2 := by
    have := index_of_sgmiiLine (show sgmiiLineOf _ _ _ _ = 2 from h.line)
    omega
  rw [show 2 + 2 * (set.length + 1) = 3 + 2 * set.length + 1 by omega]
  refine (h.toLastPoll (by simp [resetBases]) (by simp [resetBases]) hset (by omega)
    (by rw [hupc]; decide)).trans fun t ⟨ht, _⟩ => ?_
  obtain ⟨ha, hy⟩ := readAnswer_script (s := t) (by rw [ht.phy]; rfl) t.params.regCtrl
  obtain ⟨-, -, hstep, -⟩ := enableSgmiiMicroSteps t .kModeled last ht.bound
  have hexec := hstep ht.line ha (by rwa [ht.params])
  refine Reaches.of_step (ht.step.trans hexec) ?_
  rw [hy]
  refine { ht with phy := by simp [stepped, ht.phy], log := ?_, line := ?_, poll := ?_ }
  · simp [stepped, ht.log, ht.params, resetLog_concat]
  · refine (line_firstPoll (v := fromWire t.params last) ht.line rfl rfl rfl).trans (if_pos ?_)
    exact (and_reset_eq_zero _).mpr (by rwa [ht.params])
  · simp [ht.poll]

/-- Every capability advertised is every owned bit set. -/
theorem advertisementBits_allCaps (p : Params) :
    (advertisementBits (kindTable p .kModeled) allCaps).1 = 0x0DE0#16 ∧
      (advertisementBits (kindTable p .kModeled) allCaps).2 = 0x0300#16 := by
  simp [advertisementBits, anAdvBits, gigECtrlBits, keyBits, allCaps, kindTable]

/-- ENABLE_SGMII's three read-modify-writes with every capability. -/
theorem Mid.setup {wa wg wc : Word16}
    (h : Mid .enableSgmii s₀ es (.ack wa :: .ack wg :: .ack wc :: reads) (.ack :: .ack :: .ack :: writes) 6 n s) :
    Reaches 6 s (Mid .enableSgmii s₀
      (rmwLog s₀.params s₀.params.regCtrl 0x1000#16 0x1000#16 wc ++
        (rmwLog s₀.params s₀.params.regGctrl 0x0300#16 0x0300#16 wg ++
          (rmwLog s₀.params s₀.params.regAnar 0x0DE0#16 0x0DE0#16 wa ++ es))) reads writes 12 n) := by
  obtain ⟨hadv, hgig⟩ := advertisementBits_allCaps s₀.params
  have anar := h.rmw (reg := s₀.params.regAnar) (mask := 0x0DE0#16) (value := 0x0DE0#16) rfl
    (fun tmp => congrArg (fun x => MicroStep.write s₀.params.regAnar ((tmp &&& ~~~0x0DE0#16) ||| x)) hadv)
    (by simp [resetBases])
  refine anar.trans (m := 4) fun t ht => ?_
  have gctrl := ht.rmw (reg := s₀.params.regGctrl) (mask := 0x0300#16) (value := 0x0300#16) rfl
    (fun tmp => congrArg (fun x => MicroStep.write s₀.params.regGctrl ((tmp &&& ~~~0x0300#16) ||| x)) hgig)
    (by simp [resetBases])
  refine gctrl.trans (m := 2) fun u hu => ?_
  exact hu.rmw (reg := s₀.params.regCtrl) (mask := 0x1000#16) (value := 0x1000#16) rfl (fun _ => rfl)
    (by simp [resetBases])

/-- ENABLE_SGMII's second soft reset, which ends the operation. -/
theorem Mid.secondReset
    (h : Mid .enableSgmii s₀ es (.ack w :: (polls.map .ack ++ reads)) (.ack :: writes) 12 n s)
    (hp : PollsToClear s₀.params polls) :
    Reaches (2 + 2 * polls.length) s fun t => Ended (.ok .unit) t ∧
      t.log = .done (.ok .unit) :: (resetLog s₀.params w polls ++ es ++ s₀.log) ∧ t.fsm = .autonegConfigured ∧
      t.kind = s₀.kind ∧ t.phyId = s₀.phyId ∧ t.upc.val = min 62 (12 + 2 * min n 25 + 2 * polls.length) ∧
      t.phy = { s₀.phy with readScript := reads, writeScript := writes } := by
  obtain ⟨set, last, rfl, hset, hclear, hlen⟩ := hp
  rw [List.length_append, List.length_singleton] at hlen ⊢
  rw [List.map_append, List.append_assoc] at h
  have hupc : s.upc.val = 10 + 2 * min n 25 := by
    have := index_of_sgmiiLine (show sgmiiLineOf _ _ _ _ = 12 from h.line)
    rw [h.poll] at this
    omega
  have hroom : (roomOf .enableSgmii 12).val = 62 := rfl
  rw [show 2 + 2 * (set.length + 1) = 3 + 2 * set.length + 1 by omega]
  refine (h.toLastPoll (by simp [resetBases]) (by simp [resetBases]) hset (by omega)
    (by omega)).trans fun t ⟨ht, htupc⟩ => ?_
  obtain ⟨ha, hy⟩ := readAnswer_script (s := t) (by rw [ht.phy]; rfl) t.params.regCtrl
  obtain ⟨-, -, -, -, -, hstep, -⟩ := enableSgmiiMicroSteps t .kModeled last ht.bound
  have hexec := hstep ht.line ha (by rwa [ht.params])
  refine Reaches.of_step (ht.step.trans hexec) ⟨⟨rfl, rfl, rfl, rfl⟩, ?log, rfl, ht.kind, ht.phyId, ?upc, ?phy⟩
  case log => simp [ended, ht.log, ht.params, resetLog_concat]
  case upc =>
    simp only [polledUpc, within_val, countUp_val]
    split_ifs <;> omega
  case phy => simp [ended, hy, ht.phy]

end EnableSgmii

/-- Settles O57: the parts of the listing one after another. -/
theorem enableSgmiiWholeRun : Obligations.EnableSgmiiWholeRun := by
  intro s k we w1 wa wg wc w2 polls1 polls2 reads writes ⟨hwf, hb, hc, hu⟩ hq hk hp1 hp2 hr hw
  cases k
  have hstart : RunStart .enableSgmii s := ⟨hwf, hk, by decide, by decide⟩
  have h : Mid .enableSgmii s [] s.phy.readScript s.phy.writeScript 0 s.poll s :=
    ⟨hstart, rfl, hq, hb, hc, rfl, rfl, rfl, rfl, (line_start _ hu).1, rfl⟩
  rw [hr, hw] at h
  rw [show 12 + 2 * polls1.length + 2 * polls2.length =
    2 + (2 + 2 * polls1.length + (6 + (2 + 2 * polls2.length))) by omega]
  have extsr := h.rmw (reg := s.params.regExtsr) (mask := 0x800F#16) (value := 0x8004#16) rfl (fun _ => rfl)
    (by simp [resetBases])
  have hrun := extsr.trans fun t ht =>
    (ht.firstReset hp1).trans fun u hu => hu.setup.trans fun x hx => hx.secondReset hp2
  simpa [Reaches] using hrun

end Sys2Proof.Machine
end

section
/-! PROOFS. The wire conversion (O17), the PHY agent (O18, O19) and the reference responder (O20). -/

namespace Sys2Proof.Machine

/-! ### The wire conversion (O17) -/

/-- Each byte of the exchanged word is the other byte (20_memory.md R52). -/
theorem getLsbD_swap16 (x : Word16) {i : Nat} (h : i < 8) :
    (swap16 x).getLsbD i = x.getLsbD (i + 8) ∧ (swap16 x).getLsbD (i + 8) = x.getLsbD i := by
  have happend (j : Nat) : (swap16 x).getLsbD j =
      if j < 8 then (x.extractLsb' 8 8).getLsbD j else (x.extractLsb' 0 8).getLsbD (j - 8) :=
    BitVec.getLsbD_append (x := x.extractLsb' 0 8) (y := x.extractLsb' 8 8)
  constructor
  · rw [happend, if_pos h]
    simp [h, Nat.add_comm]
  · rw [happend, if_neg (by omega)]
    simp [h]

/-- Exchanging the bytes twice gives the word back. -/
theorem swap16_swap16 (x : Word16) : swap16 (swap16 x) = x := by
  apply BitVec.eq_of_getLsbD_eq
  intro i hi
  by_cases h : i < 8
  · rw [(getLsbD_swap16 _ h).1, (getLsbD_swap16 _ h).2]
  · obtain ⟨j, rfl⟩ : ∃ j, i = j + 8 := ⟨i - 8, by omega⟩
    have hj : j < 8 := by omega
    rw [(getLsbD_swap16 _ hj).2, (getLsbD_swap16 _ hj).1]

/-- The conversion with and without the exchange. -/
theorem wire_of_swap {p : Params} (h : p.wireSwap = true) (x : Word16) :
    fromWire p x = swap16 x ∧ toWire p x = swap16 x := by
  simp [fromWire, toWire, h]

theorem wire_of_not_swap {p : Params} (h : p.wireSwap = false) (x : Word16) :
    fromWire p x = x ∧ toWire p x = x := by
  simp [fromWire, toWire, h]

/-- Settles O17: the bytes are exchanged both ways or neither. -/
theorem wireConversionSwapsBytes : Obligations.WireConversionSwapsBytes := by
  intro p v
  refine ⟨?_, fun h => wire_of_not_swap h v, fun h => ?_⟩
  · cases h : p.wireSwap with
    | true => rw [(wire_of_swap h _).1, (wire_of_swap h _).2, swap16_swap16]
    | false => rw [(wire_of_not_swap h _).1, (wire_of_not_swap h _).2]
  · obtain ⟨hf, ht⟩ := wire_of_swap h v
    rw [hf, ht]
    exact ⟨rfl, fun i hi => getLsbD_swap16 v hi⟩

/-! ### The PHY agent (O18, O19) -/

/-- Settles O18: the scripts carry the answers wanted. -/
theorem oracleAdmitsEveryAnswer : Obligations.OracleAdmitsEveryAnswer := by
  refine ⟨fun s reg a => ?_, fun s reg v a => ?_, fun s reg w1 w2 => ?_, fun s reg v w => ?_⟩
  · exact ⟨{ Phy.oracle with readScript := [a] }, (readAnswer_script rfl reg).1⟩
  · exact ⟨{ Phy.oracle with writeScript := [a] }, (writeAnswer_script rfl reg v).1⟩
  · refine ⟨{ Phy.oracle with readScript := [.ack w1, .ack w2] }, ?_⟩
    obtain ⟨hfirst, hphy⟩ :=
      readAnswer_script (s := { s with phy := { Phy.oracle with readScript := [.ack w1, .ack w2] } }) rfl reg
    rw [hphy]
    exact ⟨hfirst, (readAnswer_script rfl reg).1⟩
  · refine ⟨{ Phy.oracle with readScript := [.ack w], writeScript := [.ack] }, ?_⟩
    obtain ⟨hwrite, hphy⟩ :=
      writeAnswer_script
        (s := { s with phy := { Phy.oracle with readScript := [.ack w], writeScript := [.ack] } }) rfl reg v
    rw [hphy]
    exact ⟨hwrite, (readAnswer_script rfl reg).1⟩

/-- Settles O19: `phyRead` and `phyWrite` look at the script first, then at the responder. -/
theorem answersComeInOrder : Obligations.AnswersComeInOrder := by
  refine ⟨?_, ?_, ?_, ?_, ?_, ?_⟩
  · intro p y r a rest h
    simp [phyRead, h]
  · intro p y r f h hf
    simp [phyRead, h, hf]
  · intro p y r h hf
    simp [phyRead, h, hf]
  · intro p y r w a rest h
    simp [phyWrite, h]
  · intro p y r w f h hf
    simp [phyWrite, h, hf]
  · intro p y r w h hf
    simp [phyWrite, h, hf]

/-! ### The reference responder (O20) -/

/-- The registers the responder ignores a write to, as a list (20_memory.md R51). -/
theorem refReadOnly_iff (p : Params) (r : RegNum) :
    refReadOnly p r = true ↔ r ∈ [p.regId1, p.regId2, p.regAnlpar, p.regGstat, p.regPssr] := by
  simp [refReadOnly, or_assoc]

/-- A register number of 8 bits set reads back, and every other register is as it was. -/
theorem regGet_regPut_toNat {l : List RegCell} (h : regsWf l = true) (r q : RegNum) (v : Word16) :
    regGet (regPut l r.toNat v) q.toNat = if q = r then v else regGet l q.toNat := by
  simp [regGet_regPut h, BitVec.toNat_inj]

section Responder
variable {p : Params} {f : RefPhy} {r : RegNum}

/-- An absent responder answers nothing and keeps its state. -/
theorem refPhy_absent (h : f.present = false) (w : Word16) :
    refRead p f r = (.noDevice, f) ∧ refWrite p f r w = (.noDevice, f) := by
  simp [refRead, refWrite, h]

/-- A present one answers a read with the register as the read left it. -/
theorem refRead_present (h : f.present = true) (r : RegNum) :
    refRead p f r = (.ack (toWire p (regGet (refReadState p f r).regs r.toNat)), refReadState p f r) := by
  simp [refRead, h]

/-- A present one acknowledges every write. -/
theorem refWrite_present (h : f.present = true) (r : RegNum) (w : Word16) :
    refWrite p f r w = (.ack, refWriteState p f r (fromWire p w)) := by
  simp [refWrite, h]

/-- A read of any register but `CTRL` changes nothing. -/
theorem refReadState_of_ne (h : r ≠ p.regCtrl) : refReadState p f r = f := if_neg h

theorem refReadState_ctrl : refReadState p f p.regCtrl = refCtrlTick p f := if_pos rfl

/-- A read of `CTRL` counts down while the count is positive, and clears the reset bit once it is not. -/
theorem refCtrlTick_positive (h : f.rstCount.positive = true) :
    refCtrlTick p f = { f with rstCount := f.rstCount.pred } := if_pos h

theorem refCtrlTick_zero (h : f.rstCount = .fin 0) :
    refCtrlTick p f =
      { f with regs := regPut f.regs p.regCtrl.toNat (regGet f.regs p.regCtrl.toNat &&& ~~~0x8000#16) } := by
  simp [refCtrlTick, h, Count.positive]

/-- Neither touches the responder's presence or its reset length. -/
theorem refCtrlTick_frame :
    (refCtrlTick p f).present = f.present ∧ (refCtrlTick p f).resetClearReads = f.resetClearReads := by
  unfold refCtrlTick
  split <;> exact ⟨rfl, rfl⟩

/-- A write of a read-only register is ignored. -/
theorem refWriteState_readOnly (h : refReadOnly p r = true) (v : Word16) : refWriteState p f r v = f := if_pos h

/-- A write of any other sets it, and starts the reset count at a write of `CTRL` with bit 15 set. -/
theorem refWriteState_writable (h : refReadOnly p r ≠ true) (v : Word16) :
    refWriteState p f r v =
      { f with
        regs := regPut f.regs r.toNat v
        rstCount := if r = p.regCtrl ∧ v.getLsbD 15 = true then f.resetClearReads else f.rstCount } := if_neg h

end Responder

/-- Settles O20: a lemma for each of the responder's cases, and `regGet_regPut` for what the registers then hold. -/
theorem referenceResponderRegisters : Obligations.ReferenceResponderRegisters := by
  intro p f r w hwf
  refine ⟨fun h => refPhy_absent h w, fun h hr => ?_, fun h hr => ?_, fun h hr => ?_, fun h hr => ?_⟩
  · rw [refRead_present h, refReadState_of_ne hr]
  · subst hr
    rw [refRead_present h, refReadState_ctrl]
    obtain ⟨hpresent, hlength⟩ := refCtrlTick_frame (p := p) (f := f)
    refine ⟨rfl, hpresent.trans h, hlength, fun n hn => ?_, fun hinf => ?_, fun hzero => ?_⟩
    · simp [refCtrlTick_positive, hn, Count.positive, Count.pred]
    · simp [refCtrlTick_positive, hinf, Count.positive, Count.pred]
    · rw [refCtrlTick_zero hzero]
      refine ⟨hzero, fun q => ?_⟩
      rw [regGet_regPut_toNat hwf]
      by_cases hq : q = p.regCtrl
      · rw [if_pos hq, if_pos hq, hq]
      · rw [if_neg hq, if_neg hq]
  · rw [refWrite_present h, refWriteState_readOnly ((refReadOnly_iff p r).mpr hr)]
  · rw [refWrite_present h, refWriteState_writable (fun hro => hr ((refReadOnly_iff p r).mp hro))]
    exact ⟨rfl, h, rfl, fun q => regGet_regPut_toNat hwf r q _, rfl⟩

end Sys2Proof.Machine
end

section
/-! PROOFS. The bus primitives: a failed transaction ends the operation (O21, O22), an operation stays within its row of
the register map (O25), and a read-modify-write within its mask (O45). -/

namespace Sys2Proof.Machine

/-! ### Failed transactions (O21, O22) -/

/-- At a read of its listing an operation does that bus read, after IDENTIFY's clearing. -/
theorem exec_read {i : Instr} {k : DriverKind} {s : State} {reg : RegNum} (hb : isDriverOp i = true → s.kind = some k)
    (hm : microStep k i s = .read reg) : ∃ g, exec i s = .next (busRead reg g (cleared i s)) := by
  obtain rfl : k = .kModeled := by cases k; rfl
  have hc := exec_cases i s
  generalize exec i s = out at hc ⊢
  cases hc with
  | unbound hd hn => simp [hb hd] at hn
  | read reg' g _ hm' =>
    obtain rfl : reg = reg' := by simpa [hm] using hm'
    exact ⟨g, rfl⟩
  | write _ _ _ _ hm' | wait _ _ _ hm' | internal _ hm' | off hm' => simp [hm] at hm'

/-- At a write of its listing an operation does that bus write. -/
theorem exec_write {i : Instr} {k : DriverKind} {s : State} {reg : RegNum} {v : Word16}
    (hb : isDriverOp i = true → s.kind = some k) (hm : microStep k i s = .write reg v) :
    ∃ g, exec i s = .next (busWrite reg v g s) := by
  obtain rfl : k = .kModeled := by cases k; rfl
  have hc := exec_cases i s
  generalize exec i s = out at hc ⊢
  cases hc with
  | unbound hd hn => simp [hb hd] at hn
  | write reg' v' g _ hm' =>
    obtain ⟨rfl, rfl⟩ : reg = reg' ∧ v = v' := by simpa [hm] using hm'
    exact ⟨g, rfl⟩
  | read _ _ _ hm' | wait _ _ _ hm' | internal _ hm' | off hm' => simp [hm] at hm'

/-- A fault right after the transaction `e` is an end with its code and nothing else. -/
theorem raise_transacted (c : ErrCode) (e : Event) (y : Phy) (s : State) :
    raise c (transacted e y s) = ended (.err c) [e] y s := rfl

/-- Settles O21: the operation is at a bus read, which raises the code of its answer. -/
theorem failedReadEndsWithItsCode : Obligations.FailedReadEndsWithItsCode := by
  intro i k s reg hb hm
  obtain ⟨g, hg⟩ := exec_read hb hm
  have hp : (cleared i s).params = s.params := (cleared_fields i s).1
  constructor
  · intro ha
    rw [hg, busRead_noDevice ((cleared_readAnswer i s reg).trans ha), afterRead_eq_transacted, raise_transacted, hp,
      cleared_readPhy]
  · intro ha
    rw [hg, busRead_busError ((cleared_readAnswer i s reg).trans ha), afterRead_eq_transacted, raise_transacted, hp,
      cleared_readPhy]

/-- Settles O22: the operation is at a bus write, which raises the code of its answer. -/
theorem failedWriteEndsWithItsCode : Obligations.FailedWriteEndsWithItsCode := by
  intro i k s reg v hb hm
  obtain ⟨g, hg⟩ := exec_write hb hm
  constructor
  · intro ha
    rw [hg, busWrite_noDevice ha, afterWrite_eq_transacted, raise_transacted]
  · intro ha
    rw [hg, busWrite_busError ha, afterWrite_eq_transacted, raise_transacted]

/-! ### The register map (O25) -/

/-- A transaction is with `PHY_DEV_ADDR` and in operation `i`'s row of the register map (20_memory.md R61); any other
event is no transaction. -/
def Event.InRegisterMap (p : Params) (i : Instr) : Event → Prop
  | .read dev reg _ => dev = p.phyDevAddr ∧ reg ∈ readsFrom p i
  | .write dev reg _ _ => dev = p.phyDevAddr ∧ reg ∈ writesTo p i
  | _ => True

/-- The end of a micro-step adds no more than the operation's end to the log. -/
theorem Tail.mem_log {tmp : Word16} {poll : Nat} {u t : State} (h : Tail tmp poll u t) {e : Event} (he : e ∈ t.log) :
    e ∈ u.log ∨ ∃ r, e = .done r := by
  rcases h.life with ⟨hl, -⟩ | ⟨r, hl, -⟩
  · exact .inl (hl ▸ he)
  · rw [hl] at he
    exact (List.mem_cons.mp he).symm.imp_right fun h => ⟨r, h⟩

/-- Every event a micro-step adds to the log is within the register map. -/
theorem exec_inRegisterMap {i : Instr} {s t : State} (ht : exec i s = .next t) :
    ∀ e ∈ t.log, e ∈ s.log ∨ e.InRegisterMap s.params i := by
  apply exec_elim ht
  case read =>
    intro reg w v hr _ _ hv e he
    rcases (readEnd_tail hv).mem_log he with he | ⟨r, rfl⟩
    · have he' : e = .read s.params.phyDevAddr reg (.ack w) ∨ e ∈ s.log := by
        simpa [readDone, cleared_fields] using he
      rcases he' with rfl | he'
      · exact .inr ⟨rfl, hr⟩
      · exact .inl he'
    · exact .inr trivial
  case write =>
    intro reg x v hr _ _ hv e he
    rcases (writeEnd_tail hv).mem_log he with he | ⟨r, rfl⟩
    · rcases List.mem_cons.mp he with rfl | he
      · exact .inr ⟨rfl, hr⟩
      · exact .inl he
    · exact .inr trivial
  all_goals simp +contextual [cleared_fields, Event.InRegisterMap]

/-- Settles O25: reads and writes are the events the map speaks of. -/
theorem transactionsStayInTheRegisterMap : Obligations.TransactionsStayInTheRegisterMap :=
  fun _ _ _ ht => ⟨fun _ _ _ he => exec_inRegisterMap ht _ he, fun _ _ _ _ he => exec_inRegisterMap ht _ he⟩

/-! ### The read-modify-write (O45) -/

/-- A value with no bit outside its mask has none at a position the mask leaves out. -/
theorem getLsbD_of_masked {value mask : Word16} {n : Nat} (h : value &&& ~~~mask = 0#16) (hn : n < 16)
    (hm : mask.getLsbD n = false) : value.getLsbD n = false := by
  have hbit := congrArg (·.getLsbD n) h
  simpa only [BitVec.getLsbD_and, BitVec.getLsbD_not, hn, hm, decide_true, Bool.not_false, Bool.and_true,
    BitVec.getLsbD_zero] using hbit

/-- A merge takes the value's bits inside the mask and the read ones outside it (20_memory.md R56). -/
theorem getLsbD_mergeBits {read mask value : Word16} {n : Nat} (h : value &&& ~~~mask = 0#16) (hn : n < 16) :
    (mergeBits read mask value).getLsbD n = if mask.getLsbD n then value.getLsbD n else read.getLsbD n := by
  have hmerge : (mergeBits read mask value).getLsbD n =
      ((read.getLsbD n && !mask.getLsbD n) || value.getLsbD n) := by
    simp only [mergeBits, BitVec.getLsbD_or, BitVec.getLsbD_and, BitVec.getLsbD_not, hn, decide_true, Bool.true_and]
  rw [hmerge]
  cases hm : mask.getLsbD n with
  | true => simp
  | false => rw [getLsbD_of_masked h hn hm]; simp

/-- A mask on a key's bit, present or not. -/
theorem keyBits_and (present : Bool) (bit m : Word16) : keyBits present bit &&& m = keyBits present (bit &&& m) := by
  cases present with
  | true => rfl
  | false => exact BitVec.zero_and

theorem keyBits_zero (present : Bool) : keyBits present 0#16 = 0#16 := by
  cases present <;> rfl

/-- The advertisement's bits are all in the owned field of `ANAR` (40_codec.md R86). -/
theorem anAdvBits_masked (p : Params) (caps : CapSet) :
    anAdvBits (kindTable p .kModeled) caps &&& ~~~(kindTable p .kModeled).advMask = 0#16 := by
  show (0x0C00#16 ||| keyBits caps.c100full 0x0100#16 ||| keyBits caps.c100half 0x0080#16 |||
    keyBits caps.c10full 0x0040#16 ||| keyBits caps.c10half 0x0020#16) &&& ~~~0x0DE0#16 = 0#16
  simp [BitVec.and_or_distrib_right, keyBits_and, keyBits_zero]

/-- And those of `GCTRL` in its owned field. -/
theorem gigECtrlBits_masked (p : Params) (caps : CapSet) :
    gigECtrlBits (kindTable p .kModeled) caps &&& ~~~(kindTable p .kModeled).gigMask = 0#16 := by
  show (keyBits caps.c1000full 0x0200#16 ||| keyBits caps.c1000half 0x0100#16) &&& ~~~0x0300#16 = 0#16
  simp [BitVec.and_or_distrib_right, keyBits_and, keyBits_zero]

/-- Settles O45: a merge is bit by bit, and each value stays within its mask. -/
theorem readModifyWritePreservesOtherBits : Obligations.ReadModifyWritePreservesOtherBits := by
  refine ⟨fun read mask value n h hn => getLsbD_mergeBits h hn, fun p k caps => ?_⟩
  cases k
  have hext : 0x8004#16 &&& ~~~0x800F#16 = 0#16 := by decide
  have hanen : 0x1000#16 &&& ~~~0x1000#16 = 0#16 := by decide
  exact ⟨hext, anAdvBits_masked p caps, gigECtrlBits_masked p caps, hanen⟩

end Sys2Proof.Machine
end

section
/-! PROOFS. The rows of the decode table, that at most one of them hits a descriptor (O3), and what follows: the
reserved `OP` values (O4) and the first half of the round trip (O1), with the operand fields (O6). -/

namespace Sys2Proof.Laws

/-! ### The row a descriptor selects (O3) -/

/-- A field that the mask covers has the value of `want`. -/
theorem extractLsb'_eq_of_and_eq {d m w : BitVec 64} (start : Nat) {len : Nat} (h : d &&& m = w)
    (hm : m.extractLsb' start len = BitVec.allOnes len) : d.extractLsb' start len = w.extractLsb' start len := by
  rw [← h, BitVec.extractLsb'_and, hm, BitVec.and_allOnes]

/-- Every mask covers the `OP` byte, so a row hits only descriptors with its `OP` (30_encoding.md R72). -/
theorem op_eq_of_row {r : DecodeRow} {d : Descriptor} (hr : r ∈ decodeRows) (h : d &&& r.mask = r.want) :
    Descriptor.op d = Descriptor.op r.want := by
  have hm : ∀ q ∈ decodeRows, q.mask.extractLsb' 56 8 = BitVec.allOnes 8 := by decide
  exact extractLsb'_eq_of_and_eq 56 h (hm r hr)

/-- The `OP` byte differs between every pair of rows (R72). -/
theorem decodeRows_op_nodup : (decodeRows.map fun r => Descriptor.op r.want).Nodup := by decide

/-- Two rows that hit one descriptor are the same row. -/
theorem row_unique {r q : DecodeRow} {d : Descriptor} (hr : r ∈ decodeRows) (hq : q ∈ decodeRows)
    (h : d &&& r.mask = r.want) (h' : d &&& q.mask = q.want) : r = q :=
  List.inj_on_of_nodup_map decodeRows_op_nodup hr hq ((op_eq_of_row hr h).symm.trans (op_eq_of_row hq h'))

theorem hits_iff {r : DecodeRow} {d : Descriptor} : r.hits d = true ↔ d &&& r.mask = r.want := beq_iff_eq

theorem and_mask_of_find? {r : DecodeRow} {d : Descriptor}
    (h : decodeRows.find? (fun q => DecodeRow.hits q d) = some r) : d &&& r.mask = r.want :=
  hits_iff.1 (List.find?_some (p := fun q => DecodeRow.hits q d) h)

/-- A descriptor decodes to what the row it selects builds (R77). -/
theorem decode_eq_ok_iff {d : Descriptor} {i : Instr} :
    decode d = .ok i ↔ ∃ r ∈ decodeRows, d &&& r.mask = r.want ∧ r.build d = i := by
  unfold decode
  constructor
  · intro h
    split at h
    · next r hf =>
      cases h
      exact ⟨r, List.mem_of_find?_eq_some hf, and_mask_of_find? hf, rfl⟩
    · cases h
  · rintro ⟨r, hr, hd, rfl⟩
    have hsome : (decodeRows.find? (·.hits d)).isSome := List.find?_isSome.2 ⟨r, hr, hits_iff.2 hd⟩
    obtain ⟨q, hf⟩ := Option.isSome_iff_exists.1 hsome
    have hqr : q = r := row_unique (List.mem_of_find?_eq_some hf) hr (and_mask_of_find? hf) hd
    rw [hf, hqr]

/-- Settles O3: every mask covers `OP`, and no two rows have the same. -/
theorem noTwoRowsMatchOneDescriptor : Obligations.NoTwoRowsMatchOneDescriptor := by
  refine ⟨rfl, fun _ _ => decode_eq_ok_iff, ?_⟩
  refine List.Pairwise.imp_of_mem ?_ (List.pairwise_map.1 decodeRows_op_nodup)
  rintro r q hr hq hne d ⟨h, h'⟩
  exact hne ((op_eq_of_row hr h).symm.trans (op_eq_of_row hq h'))

/-! ### The reserved `OP` values (O4) -/

theorem opAssigned_iff {op : BitVec 8} : opAssigned op = true ↔ ∃ r ∈ decodeRows, Descriptor.op r.want = op := by
  simp [opAssigned]

/-- The `OP` values that R78 does not reserve. -/
theorem opAssigned_iff_ranges (op : BitVec 8) : opAssigned op = true ↔
    (0x01 ≤ op.toNat ∧ op.toNat ≤ 0x08) ∨ (0x10 ≤ op.toNat ∧ op.toNat ≤ 0x12) ∨
      (0x20 ≤ op.toNat ∧ op.toNat ≤ 0x21) := by
  revert op
  decide

/-- A descriptor that decodes has an assigned `OP`. -/
theorem opAssigned_of_decode {d : Descriptor} {i : Instr} (h : decode d = .ok i) :
    opAssigned (Descriptor.op d) = true := by
  obtain ⟨r, hr, hd, -⟩ := decode_eq_ok_iff.1 h
  exact opAssigned_iff.2 ⟨r, hr, (op_eq_of_row hr hd).symm⟩

/-- The descriptor with every operand bit zero selects its row. -/
theorem decode_want {r : DecodeRow} (hr : r ∈ decodeRows) : decode r.want = .ok (r.build r.want) := by
  have h : ∀ q ∈ decodeRows, q.want &&& q.mask = q.want := by decide
  exact decode_eq_ok_iff.2 ⟨r, hr, h r hr, rfl⟩

/-- Settles O4: a row hits only descriptors with its `OP`, and its own match is one of them. -/
theorem reservedOpValuesAreIllegal : Obligations.ReservedOpValuesAreIllegal := by
  refine ⟨fun d hres => ?reserved, fun op h => ?assigned⟩
  case reserved =>
    cases hd : decode d with
    | error e => exact ⟨e, rfl⟩
    | ok i =>
      have hop := (opAssigned_iff_ranges _).1 (opAssigned_of_decode hd)
      omega
  case assigned =>
    obtain ⟨r, hr, hop⟩ := opAssigned_iff.1 ((opAssigned_iff_ranges op).2 h)
    exact ⟨r.want, r.build r.want, hop, decode_want hr⟩

/-! ### Decoding an operation's descriptor (O1, O6) -/

/-- Every operation has its row. -/
theorem rowOf (i : Instr) : RowOf.Statement i := by
  cases i with
  | identify => exact RowOf.identify
  | isSgmiiCapable => exact RowOf.isSgmiiCapable
  | enableSgmii => exact RowOf.enableSgmii
  | softReset => exact RowOf.softReset
  | setAutonegCaps caps => exact RowOf.setAutonegCaps caps
  | getLpCaps => exact RowOf.getLpCaps
  | getLinkStatus => exact RowOf.getLinkStatus
  | setSpeedDuplex speed duplex => exact RowOf.setSpeedDuplex speed duplex
  | encAdv caps => exact RowOf.encAdv caps
  | decLpCaps p g => exact RowOf.decLpCaps p g
  | decLinkStatus b => exact RowOf.decLinkStatus b
  | busRead reg => exact RowOf.busRead reg
  | busWrite reg value => exact RowOf.busWrite reg value

@[simp] theorem decode_encode (i : Instr) : decode (encode i) = .ok i := by
  obtain ⟨r, hr, hhit, hbuild⟩ := rowOf i
  exact decode_eq_ok_iff.2 ⟨r, hr, hits_iff.1 hhit, hbuild⟩

/-- Settles O1: an operation's row hits its descriptor, and no other row does. -/
theorem decodeOfEncodeIsTheOperation : Obligations.DecodeOfEncodeIsTheOperation := decode_encode

/-- A mask put into the low bits of a descriptor whose `B` is zero. -/
theorem packDescriptor_or_mask (op : BitVec 8) (m : BitVec 6) :
    packDescriptor op 0#8 0#16 0#16 ||| m.setWidth 64 = packDescriptor op 0#8 0#16 (m.setWidth 16) := by
  apply BitVec.eq_of_getLsbD_eq
  intro k hk
  simp only [BitVec.getLsbD_or, packDescriptor_getLsbD, BitVec.getLsbD_setWidth, BitVec.getLsbD_zero, hk, decide_true,
    Bool.true_and]
  by_cases h6 : k < 6
  · simp [show k < 16 by omega]
  · simp [BitVec.getLsbD_of_ge m k (by omega)]

/-- Settles O6: each word is the descriptor of an operation with those operands. -/
theorem operandFieldsDecode : Obligations.OperandFieldsDecode := by
  refine ⟨fun m => ?masks, fun speed => ?duplex⟩
  case masks =>
    have word : ∀ op : BitVec 8, packDescriptor op 0#8 0#16 0#16 ||| m.setWidth 64 =
        packDescriptor op 0#8 0#16 ((CapSet.ofMask m).toMask.setWidth 16) := fun op => by
      rw [packDescriptor_or_mask, toMask_ofMask]
    exact ⟨(congrArg decode (word 0x05#8)).trans (decode_encode (.setAutonegCaps (CapSet.ofMask m))),
      (congrArg decode (word 0x10#8)).trans (decode_encode (.encAdv (CapSet.ofMask m)))⟩
  case duplex =>
    exact ⟨decode_encode (.setSpeedDuplex speed .half), decode_encode (.setSpeedDuplex speed .full),
      decode_encode (.setSpeedDuplex speed .unknown), decode_encode (.setSpeedDuplex speed .other)⟩

end Sys2Proof.Laws
end

section
/-! PROOFS. The second half of the round trip (O2): what a row's mask leaves free is what the row's operation is built
from; and words written out as the descriptors of their operations (O5). -/

namespace Sys2Proof.Laws

/-- Every mask covers `OP` and `RSV`, so a descriptor that selects a row is a packing with the row's `OP`
(30_encoding.md R70, R72). -/
theorem packDescriptor_of_row {r : DecodeRow} {d : Descriptor} (hr : r ∈ decodeRows) (h : d &&& r.mask = r.want) :
    packDescriptor (Descriptor.op r.want) (Descriptor.reg d) (Descriptor.a d) (Descriptor.b d) = d := by
  have hrsv : ∀ q ∈ decodeRows, q.mask &&& 0xFFFF00000000#64 = 0xFFFF00000000#64 ∧
      q.want &&& 0xFFFF00000000#64 = 0#64 := by decide
  obtain ⟨hm, hw⟩ := hrsv r hr
  rw [← op_eq_of_row hr h]
  refine (eq_packDescriptor d ?_).symm
  rw [← hm, ← BitVec.and_assoc, h, hw]

/-- `B` is its low bits when the others are zero. -/
theorem setWidth_low_eq_b {d : Descriptor} {n k : Nat} (hk : n + k = 16) (h : d.extractLsb' n k = 0#k) :
    (d.extractLsb' 0 n).setWidth 16 = Descriptor.b d := by
  apply BitVec.eq_of_getLsbD_eq
  intro i hi
  simp only [Descriptor.b, BitVec.getLsbD_setWidth, BitVec.getLsbD_extractLsb', hi, decide_true, Bool.true_and,
    Nat.zero_add]
  by_cases hn : i < n
  · simp [hn]
  · have hbit := congrArg (·.getLsbD (i - n)) h
    simp only [BitVec.getLsbD_extractLsb', show i - n < k by omega, show n + (i - n) = i by omega, decide_true,
      Bool.true_and, BitVec.getLsbD_zero] at hbit
    simp [hn, hbit]

/-- A capability mask that is all of `B`. -/
theorem caps_setWidth_eq_b {d : Descriptor} (h : d.extractLsb' 6 10 = 0#10) :
    (Descriptor.caps d).toMask.setWidth 16 = Descriptor.b d := by
  rw [Descriptor.caps, toMask_ofMask, setWidth_low_eq_b rfl h]

/-- A duplex code that is all of `B`. -/
theorem duplex_setWidth_eq_b {d : Descriptor} (h : d.extractLsb' 2 14 = 0#14) :
    (Descriptor.duplex d).code.setWidth 16 = Descriptor.b d := by
  rw [Descriptor.duplex, code_ofCode, setWidth_low_eq_b rfl h]

/-- The operation that a selected row builds has the descriptor it was built from: field by field, what the mask covers
is zero and what it leaves free is an operand. Below, `field 48 8` is `REG`, `field 16 16` is `A`, `field 0 16` is `B`,
and the other two are the bits of `B` above a capability mask and above a duplex code. -/
theorem encode_build {r : DecodeRow} {d : Descriptor} (hr : r ∈ decodeRows) (h : d &&& r.mask = r.want) :
    encode (r.build d) = d := by
  have bare (hm : r.mask = BitVec.allOnes 64) : r.want = d := by rw [← h, hm, BitVec.and_allOnes]
  have field (start len : Nat) := extractLsb'_eq_of_and_eq (len := len) start h
  have pack {reg a b} (hreg : reg = Descriptor.reg d) (ha : a = Descriptor.a d) (hb : b = Descriptor.b d) :
      packDescriptor (Descriptor.op r.want) reg a b = d := by
    rw [hreg, ha, hb, packDescriptor_of_row hr h]
  simp only [decodeRows, List.mem_cons, List.not_mem_nil, or_false] at hr
  obtain rfl | rfl | rfl | rfl | rfl | rfl | rfl | rfl | rfl | rfl | rfl | rfl | rfl := hr
  · exact bare rfl
  · exact bare rfl
  · exact bare rfl
  · exact bare rfl
  · exact pack (field 48 8 rfl).symm (field 16 16 rfl).symm (caps_setWidth_eq_b (field 6 10 rfl))
  · exact bare rfl
  · exact bare rfl
  · exact pack (field 48 8 rfl).symm rfl (duplex_setWidth_eq_b (field 2 14 rfl))
  · exact pack (field 48 8 rfl).symm (field 16 16 rfl).symm (caps_setWidth_eq_b (field 6 10 rfl))
  · exact pack (field 48 8 rfl).symm rfl rfl
  · exact pack (field 48 8 rfl).symm (field 16 16 rfl).symm rfl
  · exact pack rfl (field 16 16 rfl).symm (field 0 16 rfl).symm
  · exact pack rfl (field 16 16 rfl).symm rfl

theorem decode_eq_ok_iff_encode_eq {d : Descriptor} {i : Instr} : decode d = .ok i ↔ encode i = d := by
  constructor
  · intro h
    obtain ⟨r, hr, hd, rfl⟩ := decode_eq_ok_iff.1 h
    exact encode_build hr hd
  · rintro rfl
    exact decode_encode i

/-- Settles O2: a descriptor that decodes selects a row. -/
theorem encodeOfDecodeIsTheDescriptor : Obligations.EncodeOfDecodeIsTheDescriptor :=
  fun _ _ => decode_eq_ok_iff_encode_eq.1

/-- Settles O5: each word is its operation's descriptor. -/
theorem specWordsDecode : Obligations.SpecWordsDecode := by
  unfold Obligations.SpecWordsDecode
  simp only [decode_eq_ok_iff_encode_eq]
  decide

end Sys2Proof.Laws
end

section
/-! PROOFS. The end of an illegal descriptor (O8) and the expansion of the pseudo-operations (O60). -/

namespace Sys2Proof.Machine

/-- A busy controller whose descriptor is illegal ends the operation (30_encoding.md R77). -/
theorem controllerStep_illegal {u : State} {d : Descriptor} {e : DecodeError} (hb : u.busy = true)
    (hc : u.cur = some d) (hd : decode d = .error e) : controllerStep u = .next (raise .illegalOp u) := by
  simp [controllerStep, hb, hc, hd]

/-- Settles O8: the end is the raise of `IllegalOp`, with no event before it. -/
theorem illegalDescriptorEndsAtOnce : Obligations.IllegalDescriptorEndsAtOnce := by
  intro s u d e hu hb hc hd
  obtain ⟨eb, ec⟩ := turn_controller hu
  rw [turn_step hu, controllerStep_illegal (eb.trans hb) (ec.trans hc) hd]
  rfl

/-- The path goes on after the first operation only on an `Ok`, and ends after the third (R82). -/
theorem probeNext_eq_none {n : Nat} {r : Option Result} (hn : n ≠ 0) (h : ∀ v, r = some (.ok v) → 3 ≤ n) :
    probeNext n r = none := by
  unfold probeNext
  split
  · exact absurd rfl hn
  · next v => exact absurd (h v rfl) (by decide)
  · exact absurd (h _ rfl) (by decide)
  · rfl

/-- Settles O60: the path's equations at each count, and `probeNext_eq_none` where it stops. -/
theorem pseudoOperationsExpand : Obligations.PseudoOperationsExpand := by
  refine ⟨by decide, fun _ => rfl, fun _ => rfl, rfl, fun v hv => ?other, fun n c hn => ?err, fun n hn => ?unread,
    fun n r hn => ?done⟩
  case other =>
    unfold probeNext
    split
    · contradiction
    · contradiction
    · next heq => exact absurd (by simpa using heq) hv
    · rfl
  case err => exact probeNext_eq_none hn (by simp)
  case unread => exact probeNext_eq_none hn (by simp)
  case done => exact probeNext_eq_none (by omega) fun _ _ => hn

end Sys2Proof.Machine
end

section
/-! PROOFS. The capability codec bit by bit (O40, O41), its round trip (O44) and the encoder's properties (O43). -/

namespace Sys2Proof.Machine

/-- An operation that ends without a transaction: the result is its only event, and the PHY is left alone. -/
theorem finish_eq_ended (r : Result) (s : State) : finish r s = ended r [] s.phy s := rfl

/-! ### One bit of a word -/

/-- A present key is one bit. -/
theorem getLsbD_keyBits_twoPow (present : Bool) {k : Nat} (hk : k < 16) (n : Nat) :
    (keyBits present (BitVec.twoPow 16 k)).getLsbD n = (n == k && present) := by
  cases present with
  | true => simp [keyBits, BitVec.getLsbD_twoPow, hk, eq_comm, Bool.beq_eq_decide_eq]
  | false => simp [keyBits]

/-- A test of one bit reads it. -/
theorem tests_twoPow (v : Word16) {k : Nat} (hk : k < 16) : tests v (BitVec.twoPow 16 k) = v.getLsbD k := by
  have bit : BitVec.twoPow 16 k ≠ 0#16 := fun h => by simpa [hk] using congrArg (·.getLsbD k) h
  rw [tests, BitVec.and_twoPow]
  cases v.getLsbD k with
  | true => exact bne_iff_ne.mpr bit
  | false => rfl

/-! ### The encoder (O40) -/

/-- `ADV_BASE` is the two pause bits (10_state.md R42). -/
theorem getLsbD_advBase (n : Nat) : (0x0C00#16).getLsbD n = (n == 11 || n == 10) := by
  rw [show 0x0C00#16 = BitVec.twoPow 16 11 ||| BitVec.twoPow 16 10 by decide]
  simp [BitVec.getLsbD_twoPow, eq_comm, Bool.beq_eq_decide_eq]

/-- The advertisement's bits: the two pause bits always, and one for each 100 and 10 key (40_codec.md R86). -/
theorem getLsbD_anAdvBits (p : Params) (caps : CapSet) (n : Nat) :
    (anAdvBits (kindTable p .kModeled) caps).getLsbD n =
      (n == 11 || n == 10 || (n == 8 && caps.c100full) || (n == 7 && caps.c100half) || (n == 6 && caps.c10full) ||
        (n == 5 && caps.c10half)) := by
  show (0x0C00#16 ||| keyBits caps.c100full (BitVec.twoPow 16 8) ||| keyBits caps.c100half (BitVec.twoPow 16 7) |||
    keyBits caps.c10full (BitVec.twoPow 16 6) ||| keyBits caps.c10half (BitVec.twoPow 16 5)).getLsbD n = _
  simp only [BitVec.getLsbD_or, getLsbD_advBase, getLsbD_keyBits_twoPow, Nat.reduceLT]

/-- The control register's bits: one for each 1000 key (R86). -/
theorem getLsbD_gigECtrlBits (p : Params) (caps : CapSet) (n : Nat) :
    (gigECtrlBits (kindTable p .kModeled) caps).getLsbD n =
      ((n == 9 && caps.c1000full) || (n == 8 && caps.c1000half)) := by
  show (keyBits caps.c1000full (BitVec.twoPow 16 9) ||| keyBits caps.c1000half (BitVec.twoPow 16 8)).getLsbD n = _
  simp only [BitVec.getLsbD_or, getLsbD_keyBits_twoPow, Nat.reduceLT]

/-- Settles O40: the two words are the encoder's. -/
theorem advertisementIsEncoded : Obligations.AdvertisementIsEncoded := fun s caps =>
  ⟨_, _, congrArg Host.Outcome.next (finish_eq_ended _ s), fun n _ => getLsbD_anAdvBits s.params caps n,
    fun n _ => getLsbD_gigECtrlBits s.params caps n⟩

/-! ### The link-partner decoder (O41) -/

/-- The decoder reads each key from one bit; where the 1000 keys are, `GSTAT_LAYOUT` says (40_codec.md R89). -/
theorem decodeLinkPartnerCaps_kindTable (q : Params) (p g : Word16) :
    decodeLinkPartnerCaps (kindTable q .kModeled) p g =
      ⟨g.getLsbD (if q.gstatLayout = .inverse then 9 else 11), g.getLsbD (if q.gstatLayout = .inverse then 8 else 10),
        p.getLsbD 8, p.getLsbD 7, p.getLsbD 6, p.getLsbD 5⟩ := by
  have read {v bit : Word16} {k : Nat} (hk : k < 16) (hbit : bit = BitVec.twoPow 16 k) : tests v bit = v.getLsbD k :=
    hbit ▸ tests_twoPow v hk
  simp only [decodeLinkPartnerCaps, CapSet.mk.injEq]
  refine ⟨?full, ?half, read (by decide) rfl, read (by decide) rfl, read (by decide) rfl, read (by decide) rfl⟩
  case full => cases h : q.gstatLayout <;> simp only [kindTable, h] <;> exact read (by decide) rfl
  case half => cases h : q.gstatLayout <;> simp only [kindTable, h] <;> exact read (by decide) rfl

/-- Settles O41: the decoder's table is that of the one kind. -/
theorem partnerBitsAreDecoded : Obligations.PartnerBitsAreDecoded := fun s p g => by
  rw [← decodeLinkPartnerCaps_kindTable, ← finish_eq_ended]
  rfl

/-! ### The round trip (O44) -/

/-- What comes back of a set: all of it at the `Inverse` layout, all but the 1000 keys at the other, whose bits the
encoder never sets (40_codec.md R92). -/
theorem decodeLinkPartnerCaps_advertisementBits (p : Params) (caps : CapSet) :
    decodeLinkPartnerCaps (kindTable p .kModeled) (advertisementBits (kindTable p .kModeled) caps).1
        (advertisementBits (kindTable p .kModeled) caps).2 =
      if p.gstatLayout = .inverse then caps else { caps with c1000full := false, c1000half := false } := by
  rw [advertisementBits, decodeLinkPartnerCaps_kindTable]
  cases p.gstatLayout <;> simp only [getLsbD_anAdvBits, getLsbD_gigECtrlBits] <;> simp

/-- Settles O44: a set without its 1000 keys is the set exactly when it has none. -/
theorem encodeThenDecodeReturnsTheSet : Obligations.EncodeThenDecodeReturnsTheSet := by
  rintro p ⟨⟩ ⟨c1000full, c1000half, _, _, _, _⟩
  rw [decodeLinkPartnerCaps_advertisementBits]
  refine ⟨fun h => if_pos h, fun h => ?_⟩
  simp [h, eq_comm]

/-! ### The encoder's properties (O43) -/

/-- Decoding at the `Inverse` layout undoes the encoder, which does not depend on the layout (40_codec.md R87). -/
theorem advertisementBits_injective (p : Params) : (advertisementBits (kindTable p .kModeled)).Injective :=
  Function.LeftInverse.injective (g := fun bits =>
    decodeLinkPartnerCaps (kindTable { p with gstatLayout := .inverse } .kModeled) bits.1 bits.2)
    fun caps => decodeLinkPartnerCaps_advertisementBits { p with gstatLayout := .inverse } caps

/-- The pause bits are always advertised (R87). -/
theorem anAdvBits_pause (p : Params) (caps : CapSet) :
    anAdvBits (kindTable p .kModeled) caps &&& 0x0C00#16 = 0x0C00#16 := by
  refine BitVec.eq_of_getLsbD_eq fun n _ => ?_
  rw [BitVec.getLsbD_and, getLsbD_anAdvBits, getLsbD_advBase]
  cases n == 11 <;> cases n == 10 <;> simp

/-- A word all of whose bits `m` has is at most `m`. -/
theorem toNat_le_of_and_eq {v m : Word16} (h : v &&& m = v) : v.toNat ≤ m.toNat := by
  rw [← h, BitVec.toNat_and]
  exact Nat.and_le_right

/-- A word with no bit outside `m` keeps all its bits under the mask `m`. -/
theorem and_eq_of_masked {v m : Word16} (h : v &&& ~~~m = 0#16) : v &&& m = v := by
  refine BitVec.eq_of_getLsbD_eq fun n hn => ?_
  rw [BitVec.getLsbD_and]
  cases hm : m.getLsbD n with
  | true => exact Bool.and_true _
  | false => rw [getLsbD_of_masked h hn hm]; rfl

/-- Settles O43: the bounds follow from the masks, and `gig` holds any of its two keys. -/
theorem encoderStaysInItsMasks : Obligations.EncoderStaysInItsMasks := by
  rintro p ⟨⟩ caps other
  have pause := anAdvBits_pause p caps
  have masked := anAdvBits_masked p caps
  refine ⟨pause, masked, gigECtrlBits_masked p caps, toNat_le_of_and_eq ((BitVec.and_comm ..).trans pause),
    toNat_le_of_and_eq (and_eq_of_masked masked), ?gig, fun h => advertisementBits_injective p h⟩
  case gig =>
    have four : ∀ full half : Bool, keyBits full 0x0200#16 ||| keyBits half 0x0100#16 ∈
        [0x0000#16, 0x0100#16, 0x0200#16, 0x0300#16] := by decide
    exact four caps.c1000full caps.c1000half

end Sys2Proof.Machine
end

section
/-! PROOFS. The link-status decoder, over its five bits (O38), and its operation (O42). -/

namespace Sys2Proof.Machine

/-! ### The decoder (O38) -/

/-- The speed field's four patterns (40_codec.md R93). -/
theorem speedOf_eq (s : Word16) : speedOf s =
    if s.extractLsb' 14 2 = 0#2 then some .s10 else if s.extractLsb' 14 2 = 1#2 then some .s100
    else if s.extractLsb' 14 2 = 2#2 then some .s1000 else none := by
  have h14 : s.getLsbD 14 = (s.extractLsb' 14 2).getLsbD 0 := by simp
  have h15 : s.getLsbD 15 = (s.extractLsb' 14 2).getLsbD 1 := by simp
  rw [speedOf, h14, h15]
  generalize s.extractLsb' 14 2 = S
  revert S
  decide

theorem speedOf_eq_none_iff (s : Word16) : speedOf s = none ↔ s.extractLsb' 14 2 = 3#2 := by
  rw [speedOf_eq]
  generalize s.extractLsb' 14 2 = S
  revert S
  decide

section Decoder
variable {p : Params} {s : Word16}

/-- Up and resolved: the speed field's speed and the duplex bit (R93). -/
theorem decodeLinkStatus_resolved {speed : LinkSpeed} (h : linkBitOf p s = true ∧ resolvedBitOf p s = true)
    (hS : speedOf s = some speed) : decodeLinkStatus p s = .ok ⟨.up, speed, duplexBitOf p s⟩ := by
  rw [decodeLinkStatus, hS]
  exact if_pos h

/-- The fault pattern is a fault where the speed is meaningful, or always at that scope (R94). -/
theorem decodeLinkStatus_fault (hS : speedOf s = none)
    (h : p.decodeFaultScope = .always ∨ (linkBitOf p s = true ∧ resolvedBitOf p s = true)) :
    decodeLinkStatus p s = .error .decodeFault := by
  rw [decodeLinkStatus, hS]
  exact if_pos h

/-- Not both up and resolved: the link bit alone, unless the fault pattern is always a fault (R93, R94). -/
theorem decodeLinkStatus_not_resolved (h : ¬ (linkBitOf p s = true ∧ resolvedBitOf p s = true))
    (hS : speedOf s = none → p.decodeFaultScope = .meaningful) :
    decodeLinkStatus p s = .ok (unresolvedStatus (linkBitOf p s)) := by
  unfold decodeLinkStatus
  split
  · next hn => exact if_neg (by simpa [hS hn] using h)
  · exact if_neg h

end Decoder

/-- Settles O38: the field's pattern picks the speed, and each clause is one of the decoder's three ways. -/
theorem linkStatusDecodeTable : Obligations.LinkStatusDecodeTable := by
  rintro p s _ _ _ _ _ rfl rfl rfl rfl rfl
  have fault := (speedOf_eq_none_iff s).mpr
  have notBoth (h : linkBitOf p s = false ∨ resolvedBitOf p s = false) :
      ¬ (linkBitOf p s = true ∧ resolvedBitOf p s = true) := by
    rintro ⟨hL, hR⟩
    simp [hL, hR] at h
  refine ⟨fun hL hR hS => ?_, fun hL hR hS => ?_, fun hL hR hS => ?_,
    fun hL hR hS => decodeLinkStatus_fault (fault hS) (.inr ⟨hL, hR⟩),
    fun h hS => decodeLinkStatus_not_resolved (notBoth h) fun hn => absurd ((speedOf_eq_none_iff s).mp hn) hS,
    fun h _ hp => decodeLinkStatus_not_resolved (notBoth h) fun _ => hp,
    fun _ hS hp => decodeLinkStatus_fault (fault hS) (.inl hp)⟩
  all_goals exact decodeLinkStatus_resolved ⟨hL, hR⟩ (by simp [speedOf_eq, hS])

/-! ### The operation (O42) -/

/-- Settles O42: the decoder's two answers, of which the fault is `DecodeFault`. -/
theorem statusBitsAreDecoded : Obligations.StatusBitsAreDecoded := by
  refine fun s b => ⟨fun ls h => ?ok, fun c h => ?error⟩
  all_goals
    show execDecLinkStatus b s = _
    rw [execDecLinkStatus, h]
  case ok => rfl
  case error => cases decodeLinkStatus_error h; rfl

end Sys2Proof.Machine
end

section
/-! PROOFS. Whole soft resets, from acceptance or from their first wait (O54, O55), and SET_AUTONEG_CAPS from
acceptance to result (O56). -/

namespace Sys2Proof.Machine

/-! ### The last poll read -/

section ReadEnd
variable {i : Instr} {base : Nat} {v : Word16} {u t : State}

/-- A poll read that sees the reset bit set when no polls are left ends the operation. -/
theorem ReadEnd.timeout_eq (h : ReadEnd i (base + 3) v u t) (hb : base ∈ resetBases i) (hv : v &&& 0x8000#16 ≠ 0#16)
    (hn : u.params.nPoll ≤ u.poll + 1) : t = finish (.err .phyAccessResetTimeout) (polled i base v u) := by
  have hi : resetBases i ≠ [] := List.ne_nil_of_mem hb
  cases h with
  | kept _ ho =>
    have := ho base hb
    omega
  | again _ _ _ _ h => omega
  | timeout b _ h =>
    obtain rfl : base = b := by omega
    rfl
  | probed _ _ h | committed _ _ _ _ h | reset _ _ _ _ h => exact absurd h hv
  | identified hi' | partner hi' | link hi' | word _ hi' => simp [hi', resetBases] at hi

/-- A poll read that sees it clear ends the operation with its label, unless the soft reset is ENABLE_SGMII's first,
which leaves less room (41_driver.md R100). -/
theorem ReadEnd.returned_eq (h : ReadEnd i (base + 3) v u t) (hb : base ∈ resetBases i) (hv : v &&& 0x8000#16 = 0#16)
    (hroom : roomOf i base = 62) :
    t = finish (.ok .unit) (setFsm (labelOnSuccess i u.fsm .unit) (polled i base v u)) := by
  have hi : resetBases i ≠ [] := List.ne_nil_of_mem hb
  cases h with
  | kept _ ho =>
    have := ho base hb
    omega
  | again _ _ _ h | timeout _ _ _ h => exact absurd hv h
  | probed hi' h =>
    obtain rfl : base = 2 := by omega
    simp [hi', roomOf] at hroom
  | committed hi' b _ h =>
    obtain rfl : base = b := by omega
    rcases hi' with rfl | ⟨caps, rfl⟩ <;> rfl
  | reset hi' b _ h =>
    obtain rfl : base = b := by omega
    subst hi'
    rfl
  | identified hi' | partner hi' | link hi' | word _ hi' => simp [hi', resetBases] at hi

end ReadEnd

/-- An acknowledged poll read of a soft reset. -/
theorem exec_pollRead {i : Instr} {base : Nat} {s : State} {w : Word16} (hb : base ∈ resetBases i)
    (hk : s.kind = some .kModeled) (hl : line i s = base + 3) (hw : readAnswer s.params.regCtrl s = .ack w) :
    ∃ t, exec i s = .next t ∧
      ReadEnd i (base + 3) (fromWire s.params w) (readDone i s.params.regCtrl w s) t := by
  have hm : microStep .kModeled i s = .read s.params.regCtrl := by
    rw [microStep, hl]
    exact listing_reset (o := 3) hb (by decide)
  rw [← hl]
  exact exec_read_ack hk hm hw

/-- The reset bit of the bus word read, as the test of the value kept (10_state.md R33). -/
theorem resetBit_eq_true_iff (p : Params) (w : Word16) :
    resetBit p w = true ↔ fromWire p w &&& 0x8000#16 ≠ 0#16 := by
  rw [ne_eq, and_reset_eq_zero, Bool.not_eq_false]
  rfl

/-! ### Runs -/

/-- A soft reset's line is at no other soft reset's poll read. -/
theorem resetBases_ne_pollRead {i : Instr} {base : Nat} (hb : base ∈ resetBases i) :
    ∀ b ∈ resetBases i, base ≠ b + 3 := by
  intro b hb'
  rcases resetBases_cases hb with ⟨rfl, rfl | rfl⟩ | ⟨rfl, rfl⟩ | ⟨caps, rfl, rfl⟩ <;>
    simp [resetBases] at hb' <;> omega

/-- ENABLE_SGMII's line 5 is the first three lines of no soft reset. -/
theorem resetBases_add_ne_five {i : Instr} {base o : Nat} (hb : base ∈ resetBases i) (ho : o < 3) : base + o ≠ 5 := by
  rcases resetBases_cases hb with ⟨-, rfl | rfl⟩ | ⟨-, rfl⟩ | ⟨-, -, rfl⟩ <;> omega

/-- The room that a soft reset leaves `upc` is at most 62. -/
theorem roomOf_le (i : Instr) (base : Nat) : (roomOf i base).val ≤ 62 := by
  unfold roomOf
  split <;> decide

/-- At the wait of a soft reset that ends its operation `upc` is even, so R23's range has room for the poll read. -/
theorem upc_le_of_resetLine {base : Nat} {s : State} (h : resetLine base s = base + 2) : s.upc.val ≤ 62 := by
  have hlt := s.upc.isLt
  unfold resetLine at h
  split_ifs at h <;> omega

/-- At the first wait of a soft reset `upc` has room. -/
theorem upc_le_roomOf {i : Instr} {base : Nat} {s : State} (hb : base ∈ resetBases i) (hl : line i s = base + 2)
    (hp : s.poll = 0) : s.upc.val ≤ (roomOf i base).val := by
  rcases resetBases_cases hb with ⟨rfl, h⟩ | ⟨rfl, rfl⟩ | ⟨caps, rfl, rfl⟩
  · have hlt := s.upc.isLt
    have hi := index_of_sgmiiLine (show sgmiiLineOf _ _ _ _ = base + 2 from hl)
    rw [hp] at hi
    rcases h with rfl | rfl
    · show s.upc.val ≤ 54
      omega
    · show s.upc.val ≤ 62
      omega
  · exact upc_le_of_resetLine hl
  · rw [roomOf, if_neg (by simp)]
    exact upc_le_of_resetLine hl

section Mid
variable {i : Instr} {s₀ s t : State} {e : Event} {es : List Event} {reads reads' : List ReadAnswer}
  {writes writes' : List WriteAnswer} {l l' n n' base : Nat} {w : Word16} {polls set : List Word16}

/-- A micro-step in the middle of an operation keeps the label, unless it is the return of ENABLE_SGMII's first soft
reset (41_driver.md R100). -/
theorem Mid.keepsLabel (h : Mid i s₀ es reads writes l n s) (h' : Mid i s₀ (e :: es) reads' writes' l' n' t)
    (he : e.counts = true) (ht : run 1 s = .next t)
    (hset : l = 5 → ∀ w, readAnswer s.params.regCtrl s = .ack w → resetBit s.params w = true) : t.fsm = s.fsm := by
  have hexec : exec i s = .next t := by
    cases hs : exec i s with
    | next u => rwa [run_succ_next (h.step.trans hs)] at ht
    | fault r => rw [run_succ_fault (h.step.trans hs)] at ht; cases ht
    | refused r => rw [run_succ_refused (h.step.trans hs)] at ht; cases ht
  have hlog : t.log = e :: s.log := by rw [h'.log, h.log]; rfl
  rcases (exec_label hexec).goesOn (.inr ⟨e, he, hlog⟩) with hf | ⟨hi, -⟩ | ⟨-, h5, -, w, hw, hclear⟩
  · exact hf
  · exact absurd hi h.ne_identify
  · have := hset (h.line.symm.trans h5) w hw
    simp [hclear] at this

/-- A soft reset up to its first wait, which keeps the label. -/
theorem Mid.enterReset_label (h : Mid i s₀ es (.ack w :: reads) (.ack :: writes) base n s) (hb : base ∈ resetBases i) :
    Reaches 2 s fun t => Mid i s₀ (resetLog s₀.params w [] ++ es) reads writes (base + 2) 0 t ∧
      t.upc = countUp (countUp s.upc) ∧ t.fsm = s.fsm := by
  have hl := resetBases_ne_pollRead hb
  obtain ⟨u, hu, hread, -, -⟩ := h.read (reg := s₀.params.regCtrl) (listing_reset (o := 0) hb (by decide)) hl
  obtain ⟨t, ht, hmid, hupc⟩ := h.enterReset hb hl
  have hut : run 1 u = .next t := (run_add 1 hu).symm.trans ht
  have hf := hread.keepsLabel hmid rfl hut fun h5 => absurd h5 (resetBases_add_ne_five hb (by decide))
  have hf' := h.keepsLabel hread rfl hu fun h5 => absurd h5 (resetBases_add_ne_five (o := 0) hb (by decide))
  exact ⟨t, ht, hmid, hupc, hf.trans hf'⟩

/-- A wait keeps the label. -/
theorem Mid.wait_label (h : Mid i s₀ es reads writes (base + 2) n s) (hb : base ∈ resetBases i) :
    Reaches 1 s fun t => Mid i s₀ (.wait s₀.params.tPollMs :: es) reads writes (base + 3) n t ∧
      t.upc = countUp s.upc ∧ t.fsm = s.fsm := by
  obtain ⟨t, ht, hmid, hupc⟩ := h.wait hb
  exact ⟨t, ht, hmid, hupc, h.keepsLabel hmid rfl ht fun h5 => absurd h5 (resetBases_add_ne_five hb (by decide))⟩

/-- A wait and a poll read that sees the reset bit set keep it too. -/
theorem Mid.pollAgain_label (h : Mid i s₀ es (.ack w :: reads) writes (base + 2) n s) (hb : base ∈ resetBases i)
    (hset : resetBit s₀.params w = true) (hn : n + 1 < s₀.params.nPoll) :
    Reaches 2 s fun t => Mid i s₀ (pollLog s₀.params [w] ++ es) reads writes (base + 2) (n + 1) t ∧
      t.fsm = s.fsm := by
  obtain ⟨u, hu, hwait, -, hf⟩ := h.wait_label hb
  obtain ⟨t, ht, hmid, -⟩ := h.pollAgain hb hset hn
  have hut : run 1 u = .next t := (run_add 1 hu).symm.trans ht
  refine ⟨t, ht, hmid, (hwait.keepsLabel hmid rfl hut fun _ v hv => ?_).trans hf⟩
  obtain ⟨ha, -⟩ := readAnswer_script (s := u) (by rw [hwait.phy]) u.params.regCtrl
  obtain rfl : w = v := by simpa [ha] using hv
  rwa [hwait.params]

/-- The poll loop while the reset bit is set keeps it. -/
theorem Mid.pollsAgain_label (h : Mid i s₀ es (set.map .ack ++ reads) writes (base + 2) n s)
    (hb : base ∈ resetBases i) (hset : ∀ w ∈ set, resetBit s₀.params w = true)
    (hn : n + set.length < s₀.params.nPoll) : Reaches (2 * set.length) s fun t => t.fsm = s.fsm := by
  induction set generalizing s es n with
  | nil => exact Reaches.zero rfl
  | cons w rest ih =>
    simp only [List.length_cons] at hn ⊢
    rw [show 2 * (rest.length + 1) = 2 + 2 * rest.length by omega]
    refine (h.pollAgain_label hb (hset w (by simp)) (by omega)).trans fun t ⟨ht, hf⟩ => ?_
    obtain ⟨u, hu, hf'⟩ := ih ht (fun w hw => hset w (by simp [hw])) (by omega)
    exact ⟨u, hu, hf'.trans hf⟩

/-- From the first wait of a soft reset to the last poll read, every poll before which saw the reset bit set. -/
theorem Mid.toPollRead (h : Mid i s₀ es (set.map .ack ++ reads) writes (base + 2) n s) (hb : base ∈ resetBases i)
    (hset : ∀ w ∈ set, resetBit s₀.params w = true) (hn : n + set.length < s₀.params.nPoll)
    (hroom : s.upc.val ≤ (roomOf i base).val) :
    Reaches (2 * set.length + 1) s fun t =>
      Mid i s₀ (.wait s₀.params.tPollMs :: (pollLog s₀.params set ++ es)) reads writes (base + 3)
          (n + set.length) t ∧
        t.upc.val = min (s.upc.val + 2 * set.length) (roomOf i base).val + 1 ∧ t.fsm = s.fsm := by
  have h62 := roomOf_le i base
  obtain ⟨u, hu, hmid, huupc⟩ := h.pollsAgain set hb hset hn hroom
  obtain ⟨u', hu', hf⟩ := h.pollsAgain_label hb hset hn
  obtain rfl : u = u' := by simpa [hu] using hu'
  obtain ⟨t, ht, htmid, htupc, htf⟩ := hmid.wait_label hb
  refine ⟨t, (run_add 1 hu).trans ht, htmid, ?_, htf.trans hf⟩
  rw [htupc, countUp_val, if_pos (by omega), huupc]

/-- The operation that was at its start in `s₀` has ended with result `r`, having logged `es`, with these answers still
to come; the binding is as it was. -/
structure Finished (r : Result) (s₀ : State) (es : List Event) (reads : List ReadAnswer) (writes : List WriteAnswer)
    (t : State) : Prop where
  ended : Ended r t
  log : t.log = .done r :: (es ++ s₀.log)
  kind : t.kind = s₀.kind
  phyId : t.phyId = s₀.phyId
  phy : t.phy = { s₀.phy with readScript := reads, writeScript := writes }

/-- A poll read of a soft reset. -/
theorem Mid.pollRead (h : Mid i s₀ es (.ack w :: reads) writes (base + 3) n s) (hb : base ∈ resetBases i) :
    ∃ t, run 1 s = .next t ∧
      ReadEnd i (base + 3) (fromWire s₀.params w) (readDone i s₀.params.regCtrl w s) t := by
  obtain ⟨ha, -⟩ := readAnswer_script (s := s) (by rw [h.phy]) s.params.regCtrl
  obtain ⟨t, ht, hend⟩ := exec_pollRead hb h.bound h.line ha
  rw [h.params] at hend
  exact ⟨t, run_succ_next (h.step.trans ht), hend⟩

/-- What the test of the reset bit, the budget and the label see of it. -/
theorem Mid.readDone_fields (h : Mid i s₀ es reads writes l n s) (reg : RegNum) (w : Word16) :
    (readDone i reg w s).params = s₀.params ∧ (readDone i reg w s).poll = n ∧
      (readDone i reg w s).upc = countUp s.upc ∧ (readDone i reg w s).fsm = s.fsm := by
  rw [readDone, cleared_of_ne h.ne_identify]
  exact ⟨h.params, h.poll, rfl, rfl⟩

/-- An end right after it. -/
theorem Mid.finished (h : Mid i s₀ es (.ack w :: reads) writes l n s) (r : Result) (label : FsmState) (v : Word16) :
    Finished r s₀ (.read s₀.params.phyDevAddr s₀.params.regCtrl (.ack w) :: es) reads writes
      (finish r (setFsm label (polled i base v (readDone i s₀.params.regCtrl w s)))) := by
  obtain ⟨-, hy⟩ := readAnswer_script (s := s) (by rw [h.phy]) s₀.params.regCtrl
  rw [readDone, cleared_of_ne h.ne_identify, hy, h.params]
  refine ⟨⟨rfl, rfl, rfl, rfl⟩, ?log, h.kind, h.phyId, ?phy⟩
  case log => simp [polled, h.log]
  case phy => simp [polled, h.phy]

/-- `upc` after a poll read: two on from before its wait, within its room. -/
theorem polled_upc {v : Word16} {u : State} {a : Nat} (hs : s.upc.val = min a (roomOf i base).val + 1)
    (hu : u.upc = countUp s.upc) : (polled i base v u).upc.val = min (a + 2) (roomOf i base).val := by
  have h62 := roomOf_le i base
  show (within (roomOf i base) u.upc).val = _
  rw [within_val, hu, countUp_val]
  split_ifs <;> omega

/-- One more poll in the log of a poll loop. -/
theorem pollLog_concat (p : Params) (set : List Word16) (last : Word16) :
    pollLog p (set ++ [last]) = .read p.phyDevAddr p.regCtrl (.ack last) :: .wait p.tPollMs :: pollLog p set := by
  simp [pollLog]

/-- The whole poll loop when every poll sees the reset bit set: the operation ends with the timeout at the last
(41_driver.md R109). -/
theorem Mid.timesOut (h : Mid i s₀ es (polls.map .ack ++ reads) writes (base + 2) 0 s) (hb : base ∈ resetBases i)
    (hset : ∀ w ∈ polls, resetBit s₀.params w = true) (hlen : polls.length = s₀.params.nPoll) :
    Reaches (2 * s₀.params.nPoll) s fun t =>
      Finished (.err .phyAccessResetTimeout) s₀ (pollLog s₀.params polls ++ es) reads writes t ∧ t.fsm = s.fsm ∧
        t.upc.val = min (s.upc.val + 2 * s₀.params.nPoll) (roomOf i base).val := by
  have hpos : 0 < s₀.params.nPoll := Params.WellFormed.nPoll_pos h.start.wellFormed
  obtain ⟨set, last, rfl⟩ : ∃ set last, polls = set ++ [last] :=
    ⟨_, _, (List.dropLast_append_getLast (List.ne_nil_of_length_pos (by omega))).symm⟩
  rw [List.length_append, List.length_singleton] at hlen
  rw [List.map_append, List.append_assoc] at h
  rw [← hlen, show 2 * (set.length + 1) = 2 * set.length + 1 + 1 by omega]
  refine (h.toPollRead hb (fun w hw => hset w (by simp [hw])) (by omega) (upc_le_roomOf hb h.line h.poll)).trans
    fun u ⟨hu, huupc, huf⟩ => ?_
  obtain ⟨t, ht, hend⟩ := hu.pollRead hb
  obtain ⟨hp, hpoll, hupc, hf⟩ := hu.readDone_fields s₀.params.regCtrl last
  obtain rfl := hend.timeout_eq hb ((resetBit_eq_true_iff _ _).mp (hset last (by simp))) (by rw [hp, hpoll]; omega)
  refine ⟨_, ht, ?_, hf.trans huf, polled_upc huupc hupc⟩
  rw [pollLog_concat]
  exact hu.finished (base := base) _ (readDone i s₀.params.regCtrl last u).fsm (fromWire s₀.params last)

/-- A soft reset that ends its operation, returning at the first clear poll (R108). -/
theorem Mid.returns (h : Mid i s₀ es (.ack w :: (polls.map .ack ++ reads)) (.ack :: writes) base n s)
    (hb : base ∈ resetBases i) (hp : PollsToClear s₀.params polls) (hroom : roomOf i base = 62)
    (hupc : s.upc.val ≤ 60) :
    Reaches (2 + 2 * polls.length) s fun t =>
      Finished (.ok .unit) s₀ (resetLog s₀.params w polls ++ es) reads writes t ∧
        t.fsm = labelOnSuccess i s.fsm .unit ∧ t.poll = polls.length ∧
        t.upc.val = min 62 (s.upc.val + 2 + 2 * polls.length) := by
  obtain ⟨set, last, rfl, hset, hclear, hlen⟩ := hp
  rw [List.length_append, List.length_singleton] at hlen ⊢
  rw [List.map_append, List.append_assoc] at h
  refine (h.enterReset_label hb).trans fun t ⟨ht, htupc, htf⟩ => ?_
  have htval : t.upc.val = s.upc.val + 2 := by
    rw [htupc, countUp_val, countUp_val]
    split_ifs <;> omega
  rw [show 2 * (set.length + 1) = 2 * set.length + 1 + 1 by omega]
  refine (ht.toPollRead hb hset (by omega) (by rw [hroom, htval]; exact Nat.add_le_add_right hupc 2)).trans
    fun u ⟨hu, huupc, huf⟩ => ?_
  obtain ⟨x, hx, hend⟩ := hu.pollRead hb
  obtain ⟨-, hpoll, hxupc, hf⟩ := hu.readDone_fields s₀.params.regCtrl last
  obtain rfl := hend.returned_eq hb ((and_reset_eq_zero _).mpr hclear) hroom
  have hval := polled_upc (v := fromWire s₀.params last) huupc hxupc
  rw [hroom, htval] at hval
  refine ⟨_, hx, ?log, ?label, ?poll, hval.trans (Nat.min_comm _ _)⟩
  case log =>
    simpa [resetLog, pollLog] using hu.finished (base := base) (.ok .unit) (labelOnSuccess i _ .unit) _
  case label => exact congrArg (labelOnSuccess i · .unit) (hf.trans (huf.trans htf))
  case poll => simp [polled, hpoll]

end Mid

/-- An operation just accepted is at its start. -/
theorem Accepted.mid {i : Instr} {s : State} (h : Accepted i s) (hq : HostQuiet s) (hk : s.kind = some .kModeled)
    (hi : resetBases i ≠ []) : Mid i s [] s.phy.readScript s.phy.writeScript 0 s.poll s := by
  obtain ⟨hwf, hb, hc, hu⟩ := h
  exact ⟨⟨hwf, hk, Laws.decode_encode i, hi⟩, rfl, hq, hb, hc, rfl, rfl, rfl, rfl, (line_start i hu).1, rfl⟩

/-- Settles O54: SOFT_RESET is one soft reset, which keeps the label. -/
theorem softResetReturnsAtTheFirstClearPoll : Obligations.SoftResetReturnsAtTheFirstClearPoll := by
  intro s w polls reads writes ha hq hk hp hr hw
  obtain ⟨k, hk⟩ := Option.isSome_iff_exists.mp hk
  have h := ha.mid hq (kind_eq_modeled hk) (by decide)
  rw [hr, hw] at h
  obtain ⟨-, -, -, hu⟩ := ha
  obtain ⟨t, ht, hfin, hf, hpoll, hupc⟩ := h.returns (by simp [resetBases]) hp rfl (by simp [hu])
  exact ⟨t, ht, hfin.ended, by simpa using hfin.log, hf, hfin.kind, hfin.phyId, hpoll, by simpa [hu] using hupc,
    hfin.phy⟩

/-- Settles O55: each poll read by the cases of a poll read, the loop by induction over the polls, and SOFT_RESET as
the entry into the loop and the loop. -/
theorem softResetTimesOutAfterTheBudget : Obligations.SoftResetTimesOutAfterTheBudget := by
  refine ⟨?whole, ?pollRead, ?loop⟩
  case whole =>
    intro s w polls reads writes ha hq hk hlen hset hr hw
    obtain ⟨k, hk⟩ := Option.isSome_iff_exists.mp hk
    have h := ha.mid hq (kind_eq_modeled hk) (by decide)
    rw [hr, hw] at h
    obtain ⟨-, -, -, hu⟩ := ha
    have hb0 : 0 ∈ resetBases .softReset := by simp [resetBases]
    refine (h.enterReset_label hb0).trans fun t ⟨ht, htupc, htf⟩ => ?_
    obtain ⟨u, hrun, hfin, huf, huupc⟩ := ht.timesOut hb0 hset hlen
    refine ⟨u, hrun, hfin.ended, ?_, huf.trans htf, hfin.kind, hfin.phyId, ?_, hfin.phy⟩
    · simpa [resetLog, pollLog] using hfin.log
    · rw [huupc, htupc, hu, Nat.min_comm]
      rfl
  case pollRead =>
    intro i k base s w hb hk hl hw hset
    have hi : i ≠ .identify := by
      rintro rfl
      cases hb
    obtain ⟨t, ht, hend⟩ := exec_pollRead hb (kind_eq_modeled hk) hl hw
    have hv := (resetBit_eq_true_iff _ _).mp hset
    rw [readDone, cleared_of_ne hi] at hend
    refine ⟨fun hn => ?again, fun hn => ?timeout⟩
    case again =>
      obtain rfl := hend.again_eq hb hv hn
      exact ⟨_, ht, ⟨rfl, rfl, rfl, rfl, rfl, rfl, rfl⟩, rfl, rfl, line_again hb hl rfl rfl rfl hv⟩
    case timeout =>
      obtain rfl := hend.timeout_eq hb hv hn
      exact ⟨_, ht, ⟨rfl, rfl, rfl, rfl⟩, rfl, rfl⟩
  case loop =>
    intro i k base s polls reads hb hwf hq hbusy hc hk hl hpoll hlen hset hr
    have h : Mid i s [] s.phy.readScript s.phy.writeScript (base + 2) 0 s :=
      ⟨⟨hwf, kind_eq_modeled hk, by simp, List.ne_nil_of_mem hb⟩, rfl, hq, hbusy, hc, rfl, rfl, rfl, rfl, hl, hpoll⟩
    rw [hr] at h
    obtain ⟨t, ht, hfin, hf, -⟩ := h.timesOut hb hset hlen
    exact ⟨t, ht, hfin.ended, by simpa using hfin.log, hf, hfin.kind, hfin.phyId, hfin.phy⟩

/-- SET_AUTONEG_CAPS's three read-modify-writes (41_driver.md R111). -/
theorem Mid.capsSetup {caps : CapSet} {s₀ s : State} {es : List Event} {reads : List ReadAnswer}
    {writes : List WriteAnswer} {n : Nat} {wa wg wc : Word16}
    (h : Mid (.setAutonegCaps caps) s₀ es (.ack wa :: .ack wg :: .ack wc :: reads) (.ack :: .ack :: .ack :: writes) 0 n
      s) :
    Reaches 6 s (Mid (.setAutonegCaps caps) s₀
      (rmwLog s₀.params s₀.params.regCtrl 0x1000#16 0x1000#16 wc ++
        (rmwLog s₀.params s₀.params.regGctrl 0x0300#16
            (advertisementBits (kindTable s₀.params .kModeled) caps).2 wg ++
          (rmwLog s₀.params s₀.params.regAnar 0x0DE0#16
              (advertisementBits (kindTable s₀.params .kModeled) caps).1 wa ++ es))) reads writes 6 n) := by
  have anar := h.rmw (reg := s₀.params.regAnar) rfl (fun _ => rfl) (by simp [resetBases])
  refine anar.trans (m := 4) fun t ht => ?_
  have gctrl := ht.rmw (reg := s₀.params.regGctrl) rfl (fun _ => rfl) (by simp [resetBases])
  refine gctrl.trans (m := 2) fun u hu => ?_
  exact hu.rmw (reg := s₀.params.regCtrl) rfl (fun _ => rfl) (by simp [resetBases])

/-- Settles O56: the three read-modify-writes, then the soft reset. -/
theorem setAutonegCapsWholeRun : Obligations.SetAutonegCapsWholeRun := by
  intro s k caps wa wg wc w polls reads writes ha hq hk hp hr hw
  cases k
  have h := ha.mid hq hk (by simp [resetBases])
  rw [hr, hw] at h
  rw [show 8 + 2 * polls.length = 6 + (2 + 2 * polls.length) by omega]
  refine h.capsSetup.trans fun t ht => ?_
  have hupc : t.upc.val = 6 := by
    have hl : resetLine 6 t = 6 := ht.line
    unfold resetLine at hl
    split_ifs at hl <;> omega
  obtain ⟨u, hrun, hfin, hf, -, huupc⟩ := ht.returns (by simp [resetBases]) hp (by simp [roomOf]) (by omega)
  refine ⟨u, hrun, hfin.ended, by simpa using hfin.log, hf, hfin.kind, hfin.phyId, by omega, hfin.phy⟩

end Sys2Proof.Machine
end

section
/-! PROOFS. IDENTIFY and the binding (O26, O27), the directory scan (O28), the ID (O29), and the driver operations of at
most two micro-steps (O31, O35, O36, O37). -/

namespace Sys2Proof.Machine

/-! ### The directory scan (O28) -/

/-- The scan is the library's search for the first match. -/
theorem dirMatch_eq_find? (dir : List DirEntry) (id : Id32) :
    dirMatch dir id = dir.find? fun e => id &&& e.mask = e.idPattern := by
  induction dir with
  | nil => rfl
  | cons e rest ih =>
    rw [dirMatch, List.find?_cons, ih]
    by_cases h : id &&& e.mask = e.idPattern <;> simp [h]

/-- Settles O28: what the library says of a search. -/
theorem directoryScanTakesTheFirstMatch : Obligations.DirectoryScanTakesTheFirstMatch := by
  intro dir id
  rw [dirMatch_eq_find?]
  refine ⟨fun e => ?_, by simp⟩
  rw [List.find?_eq_some_iff_append]
  constructor
  · rintro ⟨hm, before, after, hdir, hne⟩
    exact ⟨before, after, hdir, by simpa using hm, by simpa using hne⟩
  · rintro ⟨before, after, hdir, hm, hne⟩
    exact ⟨by simpa using hm, before, after, hdir, by simpa using hne⟩

/-! ### The ID (O29) -/

/-- Bytes are put behind a word one by one. -/
theorem append_two_bytes (x : Word16) (hi lo : BitVec 8) : x ++ (hi ++ lo) = x ++ hi ++ lo :=
  BitVec.append_assoc.symm

/-- A word is its high byte, then its low byte. -/
theorem bytes_append (v : Word16) : v.extractLsb' 8 8 ++ v.extractLsb' 0 8 = v :=
  BitVec.extractLsb'_append_extractLsb' (w := 8)

/-- Settles O29: a word is its two bytes, and the conversion exchanges them or not. -/
theorem idIsAssembledFromRegisterBytes : Obligations.IdIsAssembledFromRegisterBytes := by
  refine ⟨fun v1 v2 => ⟨?bytes, ?shift⟩, fun p w1 w2 => ⟨fun h => ?swapped, fun h => ?straight⟩⟩
  case bytes =>
    have h := append_two_bytes v1 (v2.extractLsb' 8 8) (v2.extractLsb' 0 8)
    rw [bytes_append v2] at h
    rw [bytes_append v1]
    exact h
  case shift =>
    have h := BitVec.setWidth_append_eq_shiftLeft_setWidth_or (b := v1) (b' := v2) (w'' := 32)
    rwa [BitVec.setWidth_eq] at h
  case swapped =>
    rw [(wire_of_swap h w1).1, (wire_of_swap h w2).1]
    exact append_two_bytes _ _ _
  case straight => rw [(wire_of_not_swap h w1).1, (wire_of_not_swap h w2).1, assembleId]

/-! ### The binding (O26, O27) -/

/-- A driver operation looks for its binding before anything else (41_driver.md R99). -/
theorem exec_unbound {i : Instr} {s : State} (hd : isDriverOp i = true) (hk : s.kind = none) :
    exec i s = .next (raise .notBound s) := by
  cases i with
  | isSgmiiCapable | enableSgmii | softReset | setAutonegCaps | getLpCaps | getLinkStatus | setSpeedDuplex =>
    unfold exec
    exact driver_unbound hk _
  | identify | encAdv | decLpCaps | decLinkStatus | busRead | busWrite => cases hd

/-- Settles O26: nothing is done but the end. -/
theorem unboundDriverOperationsFault : Obligations.UnboundDriverOperationsFault := fun _ _ hd hk =>
  exec_unbound hd hk

/-- IDENTIFY's match, found and not. -/
theorem identifyMatch_some {s : State} {e : DirEntry}
    (h : dirMatch s.params.directory (assembleId s.tmp s.tmp2) = some e) :
    identifyMatch s =
      succeed (.idKind (assembleId s.tmp s.tmp2) e.kind) (bindKind e.kind (assembleId s.tmp s.tmp2) s) := by
  simp only [identifyMatch, h]

theorem identifyMatch_none {s : State} (h : dirMatch s.params.directory (assembleId s.tmp s.tmp2) = none) :
    identifyMatch s = raise .phyNotFoundNoMatch s := by
  simp only [identifyMatch, h]

/-- Settles O27: the first read follows the clearing, the second is followed by the match. -/
theorem identifyBindsByDirectoryMatch : Obligations.IdentifyBindsByDirectoryMatch := by
  refine fun s w => ⟨fun h hw => ?first, fun e h hw hm => ?found, fun h hw hm => ?missed⟩
  case first =>
    rw [exec_identify_first h]
    exact congrArg Host.Outcome.next (busRead_ack (s := unbind s) hw setTmp)
  case found =>
    have hu : countUp s.upc = 2 := by rw [h]; rfl
    rw [exec_identify_second h, busRead_ack hw, identifyMatch_some hm, ← hu]
    rfl
  case missed =>
    have hu : countUp s.upc = 2 := by rw [h]; rfl
    rw [exec_identify_second h, busRead_ack hw, identifyMatch_none hm, ← hu]
    rfl

/-! ### IS_SGMII_CAPABLE and GET_LP_CAPS (O31, O35) -/

/-- Settles O31: the one kind there is can. -/
theorem sgmiiCapabilityOfTheKind : Obligations.SgmiiCapabilityOfTheKind := by
  rintro s ⟨⟩ hk
  show execIsSgmiiCapable s = _
  rw [execIsSgmiiCapable, driver_bound hk]
  rfl

/-- GET_LP_CAPS's first micro-step. -/
theorem exec_getLpCaps_first {s : State} {k : DriverKind} (hk : s.kind = some k) (h : s.upc = 0) :
    exec .getLpCaps s = .next (busRead (kindTable s.params k).regAnlpar setTmp s) := by
  show execGetLpCaps s = _
  simp [execGetLpCaps, driver_bound hk, h]

/-- Its second. -/
theorem exec_getLpCaps_second {s : State} {k : DriverKind} (hk : s.kind = some k) (h : s.upc = 1) :
    exec .getLpCaps s = .next (busRead (kindTable s.params k).regGstat
      (fun v u => succeed (.caps (decodeLinkPartnerCaps (kindTable s.params k) u.tmp v)) (setTmp2 v u)) s) := by
  show execGetLpCaps s = _
  simp [execGetLpCaps, driver_bound hk, h]

/-- Settles O35: the first value is kept, and the second is decoded with it. -/
theorem partnerCapabilitiesAreReadAndDecoded : Obligations.PartnerCapabilitiesAreReadAndDecoded := by
  rintro s ⟨⟩ w hk
  refine ⟨fun h hw => ?first, fun h hw => ?second⟩
  case first =>
    rw [exec_getLpCaps_first hk h]
    exact congrArg Host.Outcome.next (busRead_ack hw setTmp)
  case second =>
    have hu : countUp s.upc = 2 := by rw [h]; rfl
    rw [exec_getLpCaps_second hk h, ← hu]
    exact congrArg Host.Outcome.next (busRead_ack hw _)

/-! ### GET_LINK_STATUS and SET_SPEED_DUPLEX (O36, O37) -/

/-- The label moves from the four configured labels (41_driver.md R114). -/
theorem labelAfterLink_eq_ite (l : FsmState) (x : LinkState) :
    labelAfterLink l x =
      if l = .autonegConfigured ∨ l = .forcedConfigured ∨ l = .linkUp ∨ l = .linkDown
      then (if x = .up then .linkUp else .linkDown) else l := by
  cases l <;> cases x <;> rfl

/-- The end after the status read, with a status and without. -/
theorem linkResult_ok {s : State} {ls : LinkStatus} (h : decodeLinkStatus s.params s.tmp = .ok ls) :
    linkResult s = succeed (.link ls) (setFsm (labelAfterLink s.fsm ls.state) s) := by
  simp only [linkResult, h]

theorem linkResult_error {s : State} {c : ErrCode} (h : decodeLinkStatus s.params s.tmp = .error c) :
    linkResult s = raise c s := by
  simp only [linkResult, h]

/-- GET_LINK_STATUS is one read. -/
theorem exec_getLinkStatus {s : State} {k : DriverKind} (hk : s.kind = some k) :
    exec .getLinkStatus s = .next (busRead (kindTable s.params k).regPssr (fun v u => linkResult (setTmp v u)) s) := by
  show execGetLinkStatus s = _
  rw [execGetLinkStatus, driver_bound hk]

/-- Settles O36: the decoder's two answers. -/
theorem linkStatusIsReadAndDecoded : Obligations.LinkStatusIsReadAndDecoded := by
  rintro s ⟨⟩ w hk hw
  rw [exec_getLinkStatus hk, show (kindTable s.params .kModeled).regPssr = s.params.regPssr from rfl, busRead_ack hw]
  refine ⟨fun ls h => ?status, fun c h => ?fault⟩
  case status =>
    rw [linkResult_ok (ls := ls), ← labelAfterLink_eq_ite]
    · rfl
    · exact h
  case fault =>
    cases decodeLinkStatus_error h
    rw [linkResult_error (c := .decodeFault)]
    · rfl
    · exact h

/-- The three speeds that have a pattern (10_state.md R42). -/
theorem speedBits_supported (t : KindTable) :
    speedBits t 1000#16 = some t.speed1000 ∧ speedBits t 100#16 = some t.speed100 ∧
      speedBits t 10#16 = some t.speed10 := by
  have h100 : 100#16 ≠ 1000#16 := by decide
  have h10 : 10#16 ≠ 1000#16 ∧ 10#16 ≠ 100#16 := by decide
  exact ⟨if_pos rfl, (if_neg h100).trans (if_pos rfl), (if_neg h10.1).trans ((if_neg h10.2).trans (if_pos rfl))⟩

/-- The table of values (41_driver.md R117). -/
theorem controlValue_table (p : Params) (duplex : DuplexArg) :
    controlValue (kindTable p .kModeled) 1000#16 duplex = some (if duplex = .half then 0x0040#16 else 0x0140#16) ∧
    controlValue (kindTable p .kModeled) 100#16 duplex = some (if duplex = .half then 0x2000#16 else 0x2100#16) ∧
    controlValue (kindTable p .kModeled) 10#16 duplex = some (if duplex = .half then 0x0000#16 else 0x0100#16) := by
  obtain ⟨h1000, h100, h10⟩ := speedBits_supported (kindTable p .kModeled)
  have hbits : duplexBits (kindTable p .kModeled) duplex = if duplex = .half then 0#16 else 0x0100#16 := by
    cases duplex <;> rfl
  simp only [controlValue, h1000, h100, h10, hbits]
  by_cases h : duplex = .half <;> simp [h, kindTable]

/-- No other speed has one. -/
theorem controlValue_eq_none {t : KindTable} {speed : Word16} (duplex : DuplexArg) (h1000 : speed ≠ 1000#16)
    (h100 : speed ≠ 100#16) (h10 : speed ≠ 10#16) : controlValue t speed duplex = none := by
  simp [controlValue, speedBits, h1000, h100, h10]

/-- SET_SPEED_DUPLEX with a value to write, and without. -/
theorem exec_setSpeedDuplex_some {s : State} {k : DriverKind} {speed v : Word16} {duplex : DuplexArg}
    (hk : s.kind = some k) (h : controlValue (kindTable s.params k) speed duplex = some v) :
    exec (.setSpeedDuplex speed duplex) s = .next
      (busWrite (kindTable s.params k).regCtrl v (fun u => succeed .unit (setFsm .forcedConfigured u)) s) := by
  show execSetSpeedDuplex speed duplex s = _
  simp only [execSetSpeedDuplex, driver_bound hk, h]

theorem exec_setSpeedDuplex_none {s : State} {k : DriverKind} {speed : Word16} {duplex : DuplexArg}
    (hk : s.kind = some k) (h : controlValue (kindTable s.params k) speed duplex = none) :
    exec (.setSpeedDuplex speed duplex) s = .next (raise .unsupportedSpeed s) := by
  show execSetSpeedDuplex speed duplex s = _
  simp only [execSetSpeedDuplex, driver_bound hk, h]

/-- Settles O37: a speed with a value in the table is one write, and one without is a fault. -/
theorem forcedModeWritesTheTableValue : Obligations.ForcedModeWritesTheTableValue := by
  rintro s ⟨⟩ speed v duplex hk
  refine ⟨fun htable hw => ?write, fun h1000 h100 h10 => ?fault⟩
  case write =>
    have hv : controlValue (kindTable s.params .kModeled) speed duplex = some v := by
      obtain ⟨h1000, h100, h10⟩ := controlValue_table s.params duplex
      rcases htable with ⟨rfl, rfl⟩ | ⟨rfl, rfl⟩ | ⟨rfl, rfl⟩ <;> assumption
    rw [exec_setSpeedDuplex_some hk hv]
    exact ⟨_, congrArg Host.Outcome.next (busWrite_ack hw _)⟩
  case fault =>
    exact exec_setSpeedDuplex_none hk (controlValue_eq_none duplex h1000 h100 h10)

end Sys2Proof.Machine
end

section
/-! PROOFS. The register pass-through operations (O46, O47; 42_bus.md R119 to R121): each is one transaction
at the operand's register, and its acknowledgement ends the operation. -/

namespace Sys2Proof.Machine

/-- BUS_READ is one read, whatever the binding (R119, R120). -/
theorem exec_busRead (reg : RegNum) (s : State) :
    exec (.busRead reg) s = .next (busRead reg (fun v u => succeed (.word v) (setTmp v u)) s) := rfl

/-- BUS_WRITE is one write of the value as given, whatever the binding (R119, R121). -/
theorem exec_busWrite (reg : RegNum) (value : Word16) (s : State) :
    exec (.busWrite reg value) s = .next (busWrite reg value (succeed .unit) s) := rfl

/-- An answered transaction that ends its operation with a value counts in `upc` (R25, R118). -/
theorem succeed_advance_transacted (v : Value) (e : Event) (y : Phy) (s : State) :
    succeed v (advance (transacted e y s)) = { ended (.ok v) [e] y s with upc := countUp s.upc } := rfl

/-- The end of an operation leaves `tmp` as it was set. -/
theorem succeed_setTmp (v : Value) (w : Word16) (s : State) :
    succeed v (setTmp w s) = { succeed v s with tmp := w } := rfl

/-- Settles O46: the acknowledged read's register value goes to `tmp` and ends the operation as its result. -/
theorem busReadReturnsTheRegister : Obligations.BusReadReturnsTheRegister := by
  intro s reg w hw
  rw [exec_busRead, busRead_ack hw, succeed_setTmp, afterRead_eq_transacted, succeed_advance_transacted]

/-- Settles O47: the acknowledged write of the value's wire form ends the operation. -/
theorem busWriteSendsTheValue : Obligations.BusWriteSendsTheValue := by
  intro s reg value hw
  rw [exec_busWrite, busWrite_ack hw, afterWrite_eq_transacted, succeed_advance_transacted]

end Sys2Proof.Machine
end

section
/-! PROOFS. The host's events, one by one (O10, O12, O13; 60_exceptions.md R130, R139, R140), and where a step can stop
(O14, O52). -/

namespace Sys2Proof.Machine

/-! ### The host's events (O12, O13) -/

/-- A parameter set that fails a check is refused before anything else (R130). -/
theorem step_refused {s : State} {e : ParamError} (h : s.params.problem = some e) :
    step s = .refused (.illFormedParams e) := by
  simp only [step, stepOnce, h]

section HostEvents
variable {s : State} {rest : List HostEvent}

/-- A reset is served at once, also while busy (R143). -/
theorem step_reset (hw : s.params.WellFormed) (hh : s.host = .reset :: rest) :
    step s = .next (blockReset (setHost rest s)) := by
  rw [step_wellFormed hw]
  simp only [hostStep, hh]

/-- So is a read of `result`. -/
theorem step_readResult (hw : s.params.WellFormed) (hh : s.host = .readResult :: rest) :
    step s = hostRead (setHost rest s) := by
  rw [step_wellFormed hw]
  simp only [hostStep, hh]

/-- An idle block accepts an offered descriptor (R139). -/
theorem step_accept {d : Descriptor} (hw : s.params.WellFormed) (hb : s.busy = false) (hh : s.host = .issue d :: rest) :
    step s = .next (acceptOp d (setHost rest s)) := by
  rw [step_wellFormed hw]
  simp [hostStep, hh, hb]

/-- The read of a result that is not there. -/
theorem step_readResult_none (hw : s.params.WellFormed) (hh : s.host = .readResult :: rest) (hr : s.result = none) :
    step s = .fault .resultUnread :=
  (step_readResult hw hh).trans (hostRead_none hr)

end HostEvents

/-- Settles O12: the read is served at once, whatever the block is doing. -/
theorem hostReadsTheResult : Obligations.HostReadsTheResult := fun s _ rest hw hh hr =>
  (step_readResult hw hh).trans (hostRead_some (s := setHost rest s) hr)

/-- Settles O13: the check of the parameters comes before anything else, and the host's read faults on no result. -/
theorem modelFaultsOfTheHost : Obligations.ModelFaultsOfTheHost :=
  ⟨fun _ _ => step_refused, fun _ _ => step_readResult_none⟩

/-! ### Where a step can stop (O14, O52) -/

/-- A micro-step answers a next state, but off its listing. -/
theorem exec_next_or_off (i : Instr) (s : State) :
    (∃ t, exec i s = .next t) ∨ (exec i s = .fault .upcOutOfSequence ∧ seqLength i ≤ line i s) := by
  have hc := exec_cases i s
  generalize exec i s = out at hc ⊢
  cases hc with
  | off _ hl => exact .inr ⟨rfl, hl⟩
  | unbound | read | write | wait | internal => exact .inl ⟨_, rfl⟩

/-- The controller refuses nothing. -/
theorem controllerStep_ne_refused (s : State) (r : Refusal) : controllerStep s ≠ .refused r := by
  unfold controllerStep
  split
  · split
    · split
      · next i _ => rcases exec_next_or_off i s with ⟨t, h⟩ | ⟨h, -⟩ <;> simp [h]
      · simp
    · simp
  · simp

/-- Under the invariant the controller does not stop: a busy one has a descriptor, and is at a line of its operation. -/
theorem Inv.controllerStep_next {s : State} (h : Inv s) : ∃ t, controllerStep s = .next t := by
  cases hb : s.busy with
  | false => exact ⟨s, by simp [controllerStep, hb]⟩
  | true =>
    obtain ⟨d, hc⟩ := Option.isSome_iff_exists.mp (h.cur.symm.trans hb)
    cases hd : decode d with
    | error e => exact ⟨_, controllerStep_illegal hb hc hd⟩
    | ok i =>
      rw [controllerStep_busy hb hc hd]
      exact (exec_next_or_off i s).resolve_right fun hoff => Nat.not_le.mpr (h.running hc hd).line hoff.2

/-- A step is the controller's turn, or a host event that has a next state, or the read of no result. -/
theorem step_turn_or {s : State} (hw : s.params.WellFormed) :
    (∃ u, ControllerTurn s u) ∨ (∃ t, step s = .next t) ∨
      (step s = .fault .resultUnread ∧ s.result = none ∧ ∃ rest, s.host = .readResult :: rest) := by
  rcases hh : s.host with - | ⟨ev, rest⟩
  · exact .inl ⟨s, hw, .inl ⟨hh, rfl⟩⟩
  cases ev with
  | reset => exact .inr (.inl ⟨_, step_reset hw hh⟩)
  | wait => exact .inl ⟨_, hw, .inr (.inr ⟨rest, hh, rfl⟩)⟩
  | readResult =>
    cases hr : s.result with
    | some r => exact .inr (.inl ⟨_, hostReadsTheResult s r rest hw hh hr⟩)
    | none => exact .inr (.inr ⟨step_readResult_none hw hh hr, rfl, rest, rfl⟩)
  | issue d =>
    cases hb : s.busy with
    | false => exact .inr (.inl ⟨_, step_accept hw hb hh⟩)
    | true => exact .inl ⟨s, hw, .inr (.inl ⟨hb, rfl, d, rest, hh⟩)⟩

/-- Settles O14: with a well-formed set no host event is refused, and the controller refuses nothing. -/
theorem onlyIllFormedParametersAreRefused : Obligations.OnlyIllFormedParametersAreRefused := by
  intro s r hr
  cases hp : s.params.problem with
  | some e =>
    rw [step_refused hp] at hr
    exact ⟨e, rfl, by simpa using hr.symm⟩
  | none =>
    rcases step_turn_or hp with ⟨u, hu⟩ | ⟨t, ht⟩ | ⟨hf, -⟩
    · exact absurd ((turn_step hu).symm.trans hr) (controllerStep_ne_refused u r)
    · simp [ht] at hr
    · simp [hf] at hr

/-- Settles O52: the controller's turn goes on from a state of the invariant, and of the host's events only the read can
stop. -/
theorem noStopUnderTheInvariant : Obligations.NoStopUnderTheInvariant := by
  intro s h
  rcases step_turn_or h.params with ⟨u, hu⟩ | hnext | hread
  · have hinv : Inv u := by
      rw [turn_fields hu]
      exact h.setHost u.host s.replies
    rw [turn_step hu]
    exact .inl hinv.controllerStep_next
  · exact .inl hnext
  · exact .inr hread

end Sys2Proof.Machine
end

section
/-! PROOFS. What a micro-step adds to the log, with the codes of the operation's row (60_exceptions.md R124); so a held
descriptor stays and every operation is closed once (O10; R139). -/

namespace Sys2Proof.Machine

/-! ### What a micro-step adds to the log -/

/-- `t` is `s` with transactions and waits added to the log, in the same operation, or with the operation ended after
them, by an `Ok` or one of `codes`. -/
inductive Adds (codes : List ErrCode) (s t : State) : Prop where
  | goesOn (es : List Event) (hes : ∀ e ∈ es, e.counts = true) (hl : t.log = es ++ s.log) (hb : t.busy = s.busy)
  | ends (r : Result) (hr : ∀ c, r = .err c → c ∈ codes) (es : List Event) (hes : ∀ e ∈ es, e.counts = true)
      (hl : t.log = .done r :: (es ++ s.log)) (hb : t.busy = false)

/-- A transaction that fails raises a code of the operation's row, as every operation with transactions has both. -/
theorem mayRaise_of_transaction {p : Params} {i : Instr} {reg : RegNum} (h : reg ∈ readsFrom p i ∨ reg ∈ writesTo p i) :
    .phyNotFoundNoDevice ∈ mayRaise i ∧ .phyAccessBus ∈ mayRaise i := by
  cases i with
  | isSgmiiCapable | encAdv | decLpCaps | decLinkStatus => simp [readsFrom, writesTo] at h
  | _ => simp [mayRaise]

/-- An operation with a soft reset may time out. -/
theorem mayRaise_of_resetBases {i : Instr} (h : resetBases i ≠ []) : .phyAccessResetTimeout ∈ mayRaise i := by
  cases i with
  | enableSgmii | softReset | setAutonegCaps => simp [mayRaise]
  | _ => exact absurd rfl h

theorem mayRaise_of_driver {i : Instr} (h : isDriverOp i = true) : .notBound ∈ mayRaise i := by
  cases i with
  | identify | encAdv | decLpCaps | decLinkStatus | busRead | busWrite => cases h
  | _ => simp [mayRaise]

theorem InternalEnd.mayRaise {p : Params} {i : Instr} {r : Result} (h : InternalEnd p i r) {c : ErrCode}
    (hc : r = .err c) : c ∈ mayRaise i := by
  cases h <;> cases hc <;> simp [Machine.mayRaise]

/-- The code a read's end raises, if it raises one. -/
theorem ReadEnd.mayRaise {i : Instr} {l : Nat} {v : Word16} {u t : State} (h : ReadEnd i l v u t) {c : ErrCode}
    (hc : t.log = .done (.err c) :: u.log) : c ∈ mayRaise i := by
  cases h with
  | kept | again | probed => simp [polled] at hc
  | committed | reset | partner | word => simp at hc
  | timeout base hb =>
    obtain rfl : c = .phyAccessResetTimeout := by simpa [polled, eq_comm] using hc
    exact mayRaise_of_resetBases (List.ne_nil_of_mem hb)
  | identified hi =>
    subst hi
    unfold identifyMatch at hc
    split at hc <;> simp at hc
    simp [← hc, Machine.mayRaise]
  | link hi =>
    subst hi
    unfold linkResult at hc
    split at hc <;> simp at hc
    next hd => simp [← hc, decodeLinkStatus_error hd, Machine.mayRaise]

/-- The code a write's end raises, if it raises one. -/
theorem WriteEnd.mayRaise {i : Instr} {l : Nat} {u t : State} (h : WriteEnd i l u t) {c : ErrCode}
    (hc : t.log = .done (.err c) :: u.log) : c ∈ mayRaise i := by
  cases h with
  | more | poll | forced | written => simp at hc
  | timeout hb =>
    obtain rfl : c = .phyAccessResetTimeout := by simpa [eq_comm] using hc
    exact mayRaise_of_resetBases hb

/-- The end of an acknowledged transaction `e`. -/
theorem Tail.adds {codes : List ErrCode} {tmp : Word16} {poll : Nat} {e : Event} {s u t : State} (h : Tail tmp poll u t)
    (hr : ∀ c, t.log = .done (.err c) :: u.log → c ∈ codes) (he : e.counts = true) (hl : u.log = e :: s.log)
    (hb : u.busy = s.busy) : Adds codes s t := by
  have hes : ∀ x ∈ [e], x.counts = true := by simpa using he
  rcases h.life with ⟨htl, htb, -⟩ | ⟨r, htl, -, -, htb, -⟩
  · exact .goesOn [e] hes (htl.trans hl) (htb.trans hb)
  · exact .ends r (fun c hc => hr c (hc ▸ htl)) [e] hes (by rw [htl, hl]; rfl) htb

/-- The end of a failed transaction. -/
theorem Adds.failed {codes : List ErrCode} {s u : State} {c : ErrCode} {e : Event} {y : Phy} (hc : c ∈ codes)
    (he : e.counts = true) (hl : u.log = s.log) : Adds codes s (finish (.err c) (transacted e y u)) :=
  .ends (.err c) (by simpa using hc) [e] (by simpa using he) (by simp [hl]) rfl

/-- A micro-step adds to the log what its listing does, and at most an end with a code of the operation's row. -/
theorem exec_adds {i : Instr} {s t : State} (ht : exec i s = .next t) : Adds (mayRaise i) s t := by
  have hcl : (cleared i s).log = s.log := by simp [cleared_fields]
  apply exec_elim ht
  case unbound => exact fun hd _ => .ends _ (by simpa using mayRaise_of_driver hd) [] (by simp) rfl rfl
  case internal => exact fun r hr => .ends r (fun c => hr.mayRaise) [] (by simp) rfl rfl
  case wait => exact fun _ _ _ => .goesOn [_] (by simp [Event.counts, Event.isWait]) rfl rfl
  case read =>
    intro reg w v _ _ _ hv
    exact (readEnd_tail hv).adds (e := .read s.params.phyDevAddr reg (.ack w)) (fun c => hv.mayRaise) rfl
      (by simp [readDone, hcl]) (by simp [readDone, cleared_fields])
  case write =>
    intro reg x v _ _ _ hv
    exact (writeEnd_tail hv).adds (e := .write s.params.phyDevAddr reg (toWire s.params x) .ack) (fun c => hv.mayRaise)
      rfl rfl rfl
  case readNoDevice => exact fun reg hr _ => .failed (mayRaise_of_transaction (.inl hr)).1 rfl hcl
  case readBusError => exact fun reg hr _ => .failed (mayRaise_of_transaction (.inl hr)).2 rfl hcl
  case readSilent => exact fun reg _ _ => .goesOn [] (by simp) hcl (by simp [cleared_fields])
  case writeNoDevice => exact fun reg x hr _ => .failed (mayRaise_of_transaction (.inr hr)).1 rfl rfl
  case writeBusError => exact fun reg x hr _ => .failed (mayRaise_of_transaction (.inr hr)).2 rfl rfl
  case writeSilent => exact fun reg x _ _ => .goesOn [] (by simp) rfl rfl

/-! ### Held, accepted, answered once (O10) -/

/-- No transaction and no wait accepts an operation or closes one. -/
theorem countP_of_counts {es : List Event} (h : ∀ e ∈ es, e.counts = true) :
    es.countP Event.isAccept = 0 ∧ es.countP Event.isClose = 0 := by
  have hne : ∀ e : Event, e.counts = true → ¬ e.isAccept = true ∧ ¬ e.isClose = true := by
    intro e he
    cases e <;> simp_all [Event.counts, Event.isTransaction, Event.isWait, Event.isAccept, Event.isClose]
  exact ⟨List.countP_eq_zero.mpr fun e he => (hne e (h e he)).1,
    List.countP_eq_zero.mpr fun e he => (hne e (h e he)).2⟩

/-- A turn accepts nothing. -/
theorem Adds.accepts {codes : List ErrCode} {s t : State} (h : Adds codes s t) :
    t.log.countP Event.isAccept = s.log.countP Event.isAccept := by
  cases h with
  | goesOn es hes hl => simp [hl, countP_of_counts hes]
  | ends r _ es hes hl => simp [hl, countP_of_counts hes, Event.isAccept]

/-- An end closes the operation in progress, and nothing else of a turn does. -/
theorem Adds.balanced {codes : List ErrCode} {s t : State} (h : Adds codes s t) (hb : s.busy = true)
    (hs : LogBalanced s) : LogBalanced t := by
  unfold LogBalanced at hs ⊢
  rw [h.accepts, hs]
  cases h with
  | goesOn es hes hl htb => simp [hl, htb, countP_of_counts hes]
  | ends r _ es hes hl htb => simp [hl, htb, hb, List.countP_cons, countP_of_counts hes, Event.isClose]

/-- No micro-step touches the host's list. -/
theorem exec_host {i : Instr} {s t : State} (ht : exec i s = .next t) : t.host = s.host := by
  apply exec_elim ht
  case read => exact fun reg w v _ _ _ hv => (readEnd_tail hv).host.trans (by simp [readDone, cleared_fields])
  case write => exact fun reg x v _ _ _ hv => (writeEnd_tail hv).host
  all_goals simp [cleared_fields]

/-- What a busy controller's turn leaves and adds. -/
theorem TurnCase.of_busy {s u t : State} (h : TurnCase s u t) (hb : s.busy = true) :
    t.host = u.host ∧ ∃ codes, Adds codes u t := by
  cases h with
  | idle hi => simp [hb] at hi
  | illegal d e _ _ _ ht =>
    subst ht
    exact ⟨rfl, [.illegalOp], .ends _ (by simp) [] (by simp) rfl rfl⟩
  | micro d i _ _ _ ht => exact ⟨exec_host ht, _, exec_adds ht⟩

/-- Settles O10: a busy block's turn leaves the host's list and accepts nothing, and the log stays balanced as an end or
a reset closes the operation that acceptance began. -/
theorem offeredDescriptorsAreHeldThenAccepted : Obligations.OfferedDescriptorsAreHeldThenAccepted := by
  refine ⟨fun s t d rest hb hh ht => ?held, fun s d rest hw hb hh => step_accept hw hb hh, fun s t hs ht => ?balance⟩
  case held =>
    obtain ⟨-, hcase⟩ := step_cases ht
    cases hcase with
    | reset _ h | reply _ _ h => simp [hh] at h
    | accept _ _ _ h => simp [hb] at h
    | turn u hu _ hc =>
      obtain ⟨hhost, codes, hadds⟩ := hc.of_busy hb
      obtain rfl : u = s := by
        obtain ⟨_, ⟨-, rfl⟩ | ⟨-, rfl, -⟩ | ⟨_, h, -⟩⟩ := hu
        · rfl
        · rfl
        · simp [hh] at h
      exact ⟨hhost.trans hh, hadds.accepts⟩
  case balance =>
    obtain ⟨-, hcase⟩ := step_cases ht
    cases hcase with
    | reset rest _ ht =>
      subst ht
      cases hb : s.busy <;>
        simpa [LogBalanced, blockReset, State.reset, List.countP_cons, Event.isAccept, Event.isClose, hb] using hs
    | reply r rest _ _ ht => exact ht ▸ hs
    | accept d rest _ hb ht =>
      subst ht
      simpa [LogBalanced, hb, List.countP_cons, Event.isAccept, Event.isClose] using hs
    | turn u _ hf hc =>
      have hu : LogBalanced u := by
        rw [hf]
        exact hs
      cases hb : s.busy with
      | true =>
        obtain ⟨-, codes, hadds⟩ := hc.of_busy hb
        exact hadds.balanced (by rw [hf]; exact hb) hu
      | false =>
        cases hc with
        | idle _ ht => exact ht ▸ hu
        | illegal _ _ h | micro _ _ h => simp [hb] at h

end Sys2Proof.Machine
end

section
/-! PROOFS. The fault codes (O49; 60_exceptions.md R122 to R124): no code outside an operation's row, and for each of
the row a state of the invariant that ends with it. -/

namespace Sys2Proof.Machine

/-! ### Every code of a row is raised -/

/-- Operation `i` ends with code `c` from some state of the invariant that holds it in `cur`. -/
def Raises (i : Instr) (c : ErrCode) : Prop :=
  ∃ s t, Inv s ∧ s.cur = some (encode i) ∧ exec i s = .next t ∧ Ended (.err c) t

/-- The defaults with one poll in the budget. -/
def onePoll : Params := { defaultParams with nPoll := 1 }

/-- A bound block, with one poll in its budget, that has just accepted `i`; its PHY answers with these. -/
def started (i : Instr) (reads : List ReadAnswer) (writes : List WriteAnswer) : State :=
  acceptOp (encode i)
    { State.reset with
      params := onePoll
      kind := some .kModeled
      phyId := some 0x01410CC0#32
      phy := { Phy.oracle with readScript := reads, writeScript := writes } }

theorem started_inv (i : Instr) (reads : List ReadAnswer) (writes : List WriteAnswer) :
    Inv (started i reads writes) := by
  have hw : onePoll.WellFormed := by decide
  have hbind : (dirMatch onePoll.directory 0x01410CC0#32).map (·.kind) = some .kModeled := by decide
  refine Inv.accept (Settled.inv ⟨hw, Nat.zero_le _, ?binding, rfl, ?result, ?regs⟩ rfl rfl rfl rfl) rfl _
  case binding => exact hbind
  case result => rintro _ ⟨⟩
  case regs => rintro _ ⟨⟩

theorem Raises.of_exec {i : Instr} {c : ErrCode} {s u : State} {es : List Event} {y : Phy} (hs : Inv s)
    (hc : s.cur = some (encode i)) (ht : exec i s = .next (ended (.err c) es y u)) : Raises i c :=
  ⟨s, _, hs, hc, ht, rfl, rfl, rfl, rfl⟩

/-- A driver operation, before any IDENTIFY. -/
theorem raises_notBound {i : Instr} (hd : isDriverOp i = true) : Raises i .notBound :=
  ⟨_, _, invariantHoldsAtReset.accept rfl (encode i), rfl, exec_unbound hd rfl, rfl, rfl, rfl, rfl⟩

/-- An operation whose first micro-step is a read, at an answer that is a failure. -/
theorem raises_of_firstRead {i : Instr} {reg : RegNum}
    (hm : ∀ a, microStep .kModeled i (started i [a] []) = .read reg) :
    Raises i .phyNotFoundNoDevice ∧ Raises i .phyAccessBus := by
  obtain ⟨hdev, -⟩ := failedReadEndsWithItsCode i .kModeled (started i [.noDevice] []) reg (fun _ => rfl) (hm _)
  obtain ⟨-, hbus⟩ := failedReadEndsWithItsCode i .kModeled (started i [.busError] []) reg (fun _ => rfl) (hm _)
  exact ⟨.of_exec (started_inv i _ _) rfl (hdev rfl), .of_exec (started_inv i _ _) rfl (hbus rfl)⟩

/-- The same of a write. -/
theorem raises_of_firstWrite {i : Instr} {reg : RegNum} {v : Word16}
    (hm : ∀ a, microStep .kModeled i (started i [] [a]) = .write reg v) :
    Raises i .phyNotFoundNoDevice ∧ Raises i .phyAccessBus := by
  obtain ⟨hdev, -⟩ := failedWriteEndsWithItsCode i .kModeled (started i [] [.noDevice]) reg v (fun _ => rfl) (hm _)
  obtain ⟨-, hbus⟩ := failedWriteEndsWithItsCode i .kModeled (started i [] [.busError]) reg v (fun _ => rfl) (hm _)
  exact ⟨.of_exec (started_inv i _ _) rfl (hdev rfl), .of_exec (started_inv i _ _) rfl (hbus rfl)⟩

/-- SET_SPEED_DUPLEX at 100 Mb/s. -/
theorem raises_forcedWrite :
    Raises (.setSpeedDuplex 100#16 .full) .phyNotFoundNoDevice ∧
      Raises (.setSpeedDuplex 100#16 .full) .phyAccessBus := by
  have hm : listing onePoll (kindTable onePoll .kModeled) 0#16 (.setSpeedDuplex 100#16 .full) 0 =
    .write onePoll.regCtrl 0x2100#16 := by decide
  exact raises_of_firstWrite fun _ => hm

/-- IDENTIFY, where both ID registers read 0. -/
theorem raises_noMatch : Raises .identify .phyNotFoundNoMatch := by
  obtain ⟨hfirst, -⟩ := identifyBindsByDirectoryMatch (started .identify [.ack 0#16, .ack 0#16] []) 0#16
  have hinv := exec_inv (started_inv _ _ _) rfl (Laws.decode_encode _) (hfirst rfl rfl)
  obtain ⟨-, -, hmissed⟩ := identifyBindsByDirectoryMatch _ 0#16
  exact ⟨_, _, hinv, rfl, hmissed rfl rfl (by decide), rfl, rfl, rfl, rfl⟩

/-- GET_LINK_STATUS, where the status register has the speed pattern `11` with the link up and resolved. -/
theorem raises_decodeFault_of_read : Raises .getLinkStatus .decodeFault := by
  obtain ⟨-, hfault⟩ :=
    linkStatusIsReadAndDecoded (started .getLinkStatus [.ack 0x00CC#16] []) .kModeled 0x00CC#16 rfl rfl
  exact ⟨_, _, started_inv _ _ _, rfl, hfault .decodeFault rfl, rfl, rfl, rfl, rfl⟩

/-- DEC_LINK_STATUS with that pattern. -/
theorem raises_decodeFault_of_operand : Raises (.decLinkStatus 0xCC00#16) .decodeFault := by
  obtain ⟨-, hfault⟩ := statusBitsAreDecoded (started (.decLinkStatus 0xCC00#16) [] []) 0xCC00#16
  exact .of_exec (started_inv _ _ _) rfl (hfault .decodeFault rfl)

/-- SET_SPEED_DUPLEX at 2500 Mb/s. -/
theorem raises_unsupportedSpeed : Raises (.setSpeedDuplex 2500#16 .full) .unsupportedSpeed := by
  obtain ⟨-, hfault⟩ := forcedModeWritesTheTableValue (started (.setSpeedDuplex 2500#16 .full) [] []) .kModeled
    2500#16 0#16 .full rfl
  exact .of_exec (started_inv _ _ _) rfl (hfault (by decide) (by decide) (by decide))

/-! ### The reset timeout -/

/-- The block of `started` at the one poll read of the soft reset from line `base` on, which will see the reset bit
set. -/
def atPollRead (i : Instr) (base : Nat) : State :=
  { started i [.ack 0xFFFF#16] [] with
    upc := Fin.ofNat 64 (base + 3), pollTimer := .waitEnded, log := List.replicate (base + 3) (.wait 75) }

theorem doneSinceAccept_replicate_wait (n ms : Nat) : doneSinceAccept (List.replicate n (.wait ms)) = n := by
  induction n with
  | zero => rfl
  | succ n ih => rw [List.replicate_succ, doneSinceAccept_counted rfl, ih]

/-- It is at that line. -/
theorem atPollRead_line {i : Instr} {base : Nat} (h : (resetBases i).head? = some base) :
    line i (atPollRead i base) = base + 3 ∧ (atPollRead i base).upc.val = base + 3 := by
  cases i with
  | enableSgmii | softReset =>
    cases h
    exact ⟨rfl, rfl⟩
  | setAutonegCaps =>
    cases h
    simp [line, resetLine, atPollRead]
  | _ => cases h

theorem atPollRead_inv {i : Instr} {base : Nat} (h : (resetBases i).head? = some base) : Inv (atPollRead i base) := by
  have hb : base ∈ resetBases i := List.mem_of_head? h
  obtain ⟨hl, hu⟩ := atPollRead_line h
  obtain ⟨-, -, -, hlen⟩ := polling_loop hb
  have hdone : doneSinceAccept (atPollRead i base).log = base + 3 := doneSinceAccept_replicate_wait _ _
  have hs : Settled (atPollRead i base) :=
    (started_inv i [.ack 0xFFFF#16] []).settled.of_fields rfl (Nat.zero_le _) rfl rfl rfl (by rintro _ ⟨⟩)
  refine Running.inv ?_ hs rfl rfl (Laws.decode_encode i)
  refine ⟨by rwa [hl], fun _ => hu.trans hdone.symm, ?done, fun hi => absurd hi (ne_identify_of_base hb), ?probed,
    fun _ => Nat.zero_lt_one, ?waited⟩
  case done =>
    rw [hdone, hl, doneMost]
    omega
  case probed =>
    rintro rfl h6
    cases h
    simp [hl] at h6
  case waited =>
    rw [hl]
    exact ⟨fun _ => (pollRead_loop hb).2, fun _ => rfl⟩

/-- An operation with a soft reset, at the last poll read. -/
theorem raises_resetTimeout {i : Instr} {base : Nat} (h : (resetBases i).head? = some base) :
    Raises i .phyAccessResetTimeout := by
  have hset : resetBit onePoll 0xFFFF#16 = true := by decide
  obtain ⟨hline, -⟩ := atPollRead_line h
  obtain ⟨-, hread, -⟩ := softResetTimesOutAfterTheBudget
  obtain ⟨-, hlast⟩ := hread i .kModeled base (atPollRead i base) 0xFFFF#16 (List.mem_of_head? h) rfl
    hline rfl hset
  obtain ⟨t, ht, hend, -⟩ := hlast (Nat.le_refl 1)
  exact ⟨_, t, atPollRead_inv h, rfl, ht, hend⟩

/-- The row of the operations with a soft reset. -/
theorem raises_resetRow {i : Instr} {reg : RegNum} {base : Nat} (hd : isDriverOp i = true)
    (hm : ∀ a, microStep .kModeled i (started i [a] []) = .read reg) (hb : (resetBases i).head? = some base) :
    ∀ c ∈ [ErrCode.phyNotFoundNoDevice, .phyAccessBus, .phyAccessResetTimeout, .notBound], Raises i c := by
  obtain ⟨hdev, hbus⟩ := raises_of_firstRead hm
  simpa using ⟨hdev, hbus, raises_resetTimeout hb, raises_notBound hd⟩

/-! ### The table -/

/-- Each row of R124, by its operation's own operand where every operand raises the code. -/
theorem raises_row (i : Instr) :
    ∀ c ∈ mayRaise i, ∃ j, Descriptor.op (encode j) = Descriptor.op (encode i) ∧ Raises j c := by
  have own : ∀ {c}, Raises i c → ∃ j, Descriptor.op (encode j) = Descriptor.op (encode i) ∧ Raises j c :=
    fun h => ⟨i, rfl, h⟩
  cases i with
  | identify =>
    obtain ⟨hdev, hbus⟩ := raises_of_firstRead (i := .identify) fun _ => rfl
    simpa [mayRaise] using ⟨own hdev, own raises_noMatch, own hbus⟩
  | isSgmiiCapable => simpa [mayRaise] using own (raises_notBound rfl)
  | enableSgmii => exact fun c hc => own (raises_resetRow rfl (fun _ => rfl) rfl c hc)
  | softReset => exact fun c hc => own (raises_resetRow rfl (fun _ => rfl) rfl c hc)
  | setAutonegCaps caps => exact fun c hc => own (raises_resetRow rfl (fun _ => rfl) rfl c hc)
  | getLpCaps =>
    obtain ⟨hdev, hbus⟩ := raises_of_firstRead (i := .getLpCaps) fun _ => rfl
    simpa [mayRaise] using ⟨own hdev, own hbus, own (raises_notBound rfl)⟩
  | getLinkStatus =>
    obtain ⟨hdev, hbus⟩ := raises_of_firstRead (i := .getLinkStatus) fun _ => rfl
    simpa [mayRaise] using ⟨own hdev, own hbus, own raises_decodeFault_of_read, own (raises_notBound rfl)⟩
  | setSpeedDuplex speed duplex =>
    obtain ⟨hdev, hbus⟩ := raises_forcedWrite
    have other : ∀ {x y c}, Raises (.setSpeedDuplex x y) c →
        ∃ j, Descriptor.op (encode j) = Descriptor.op (encode (.setSpeedDuplex speed duplex)) ∧ Raises j c :=
      fun h => ⟨_, by simp [encode], h⟩
    simpa [mayRaise] using ⟨other hdev, other hbus, other raises_unsupportedSpeed, own (raises_notBound rfl)⟩
  | encAdv | decLpCaps => simp [mayRaise]
  | decLinkStatus => simpa [mayRaise] using ⟨_, by simp [encode], raises_decodeFault_of_operand⟩
  | busRead reg =>
    obtain ⟨hdev, hbus⟩ := raises_of_firstRead (i := .busRead reg) fun _ => rfl
    simpa [mayRaise] using ⟨own hdev, own hbus⟩
  | busWrite reg value =>
    obtain ⟨hdev, hbus⟩ := raises_of_firstWrite (i := .busWrite reg value) fun _ => rfl
    simpa [mayRaise] using ⟨own hdev, own hbus⟩

/-- An end with a code that the log did not have is one of the codes of the operation's row. -/
theorem Adds.err_mem {codes : List ErrCode} {s t : State} (h : Adds codes s t) {c : ErrCode}
    (hc : Event.done (.err c) ∈ t.log) : Event.done (.err c) ∈ s.log ∨ c ∈ codes := by
  have old : ∀ {es : List Event}, (∀ e ∈ es, e.counts = true) → Event.done (.err c) ∈ es ++ s.log →
      Event.done (.err c) ∈ s.log := fun hes hmem =>
    (List.mem_append.mp hmem).resolve_left fun h => absurd (hes _ h) Bool.false_ne_true
  cases h with
  | goesOn es hes hl => exact .inl (old hes (hl ▸ hc))
  | ends r hr es hes hl =>
    rw [hl] at hc
    rcases List.mem_cons.mp hc with h | h
    · exact .inr (hr c (Event.done.inj h).symm)
    · exact .inl (old hes h)

/-- Settles O49: a micro-step adds only codes of its row, each of which is raised; an illegal descriptor's end is
O8's. -/
theorem faultCodesAreTheTables : Obligations.FaultCodesAreTheTables := by
  refine ⟨fun i s t c ht => (exec_adds ht).err_mem, fun i c hc => ?raised, fun s u d e hu hb hcur hd => ?illegal, rfl⟩
  case raised =>
    obtain ⟨j, hop, s, t, h⟩ := raises_row i c hc
    exact ⟨j, s, t, hop, h⟩
  case illegal => exact ⟨_, illegalDescriptorEndsAtOnce s u d e hu hb hcur hd, rfl, rfl, rfl, rfl⟩

end Sys2Proof.Machine
end

section
/-! PROOFS. Several blocks and the host's commands over them (O59; 20_memory.md R68, 30_encoding.md R83,
60_exceptions.md R136, R141). -/

namespace Sys2Proof.Machine

/-! ### A step of one block -/

/-- A system steps by the step of the block named. -/
theorem systemStep_next {k : Nat} {blocks : List State} {s t : State} (hk : blocks[k]? = some s)
    (ht : step s = .next t) : systemStep k blocks = .next (blocks.set k t) := by
  simp only [systemStep, hk, ht]

/-- A system's next state comes from a step of that block, or there is none at the index and nothing is stepped. -/
theorem systemStep_cases {k : Nat} {blocks after : List State} (h : systemStep k blocks = .next after) :
    (∃ s t, blocks[k]? = some s ∧ step s = .next t ∧ after = blocks.set k t) ∨
      (blocks[k]? = none ∧ after = blocks) := by
  unfold systemStep at h
  split at h
  · next s hs =>
    split at h
    · next t ht => cases h; exact .inl ⟨s, t, hs, ht, rfl⟩
    · cases h
    · cases h
  · next hs => cases h; exact .inr ⟨hs, rfl⟩

/-- The stepped block's place holds its next state. -/
theorem getElem?_set_of_some {blocks : List State} {k : Nat} {s : State} (hk : blocks[k]? = some s) (t : State) :
    (blocks.set k t)[k]? = some t := by
  obtain ⟨hlt, -⟩ := List.getElem?_eq_some_iff.mp hk
  exact List.getElem?_set_self hlt

/-! ### Reset -/

/-- Block `k` of a system at reset. -/
theorem systemReset_getElem? (ps : List Params) (k : Nat) :
    (systemReset ps)[k]? = ps[k]?.map (blockAtReset k) := by
  simp [systemReset]

/-- Its PHY's free draws are those of stream `k`. -/
theorem systemReset_stream {ps : List Params} {k : Nat} {s : State} (h : (systemReset ps)[k]? = some s) :
    s.phy.stream = k := by
  rw [systemReset_getElem?] at h
  obtain ⟨p, -, rfl⟩ := Option.map_eq_some_iff.mp h
  rfl

/-! ### Commands -/

/-- A port has a line in the replies where the command reaches it, and that is what its block's result becomes. -/
theorem mem_commandReplies {present : List Nat} {c : HostCommand} {blocks : List State} {k : Nat} {s : State}
    (hk : blocks[k]? = some s) (reply : Option HostReply) :
    (k, reply) ∈ commandReplies present c blocks ↔
      k ∈ commandPorts present c ∧ reply = s.result.bind (commandReply c) := by
  simp only [commandReplies, List.mem_map, Prod.mk.injEq]
  constructor
  · rintro ⟨j, hj, rfl, rfl⟩
    exact ⟨hj, by rw [hk, Option.bind_some]⟩
  · rintro ⟨hj, rfl⟩
    exact ⟨k, hj, rfl, by rw [hk, Option.bind_some]⟩

/-- Any `Err` is an error for the host, whatever the command (R141). -/
theorem commandReply_err (c : HostCommand) (e : ErrCode) : commandReply c (.err e) = some (.error e) := by
  cases c <;> rfl

/-- `Ok(Unit)` is an OK for the two commands of one port. -/
theorem commandReply_unit {c : HostCommand} (h : c ≠ .phyLinkStatus) :
    commandReply c (.ok .unit) = some .acknowledged := by
  cases c with
  | phyAutonegSet | phySpeedDuplexSet => rfl
  | phyLinkStatus => exact absurd rfl h

/-- Settles O59: a system's step sets one place, its reset gives block `k` stream `k`, and a command and its replies go
by the ports it reaches. -/
theorem instancesShareNothing : Obligations.InstancesShareNothing := by
  refine ⟨fun k blocks after h => ?own, fun k blocks s t hk ht => ?enabled, fun ps => ⟨?length, ?start, ?streams⟩,
    fun present blocks c i reached hc => ?command⟩
  case own =>
    rcases systemStep_cases h with ⟨s, t, hs, ht, rfl⟩ | ⟨hnone, rfl⟩
    · refine ⟨fun j hj => List.getElem?_set_ne hj.symm, fun s' hs' => ?_⟩
      cases hs.symm.trans hs'
      exact ⟨t, ht, getElem?_set_of_some hs t⟩
    · exact ⟨fun _ _ => rfl, fun s hs => by simp [hnone] at hs⟩
  case enabled => exact ⟨_, systemStep_next hk ht, getElem?_set_of_some hk t⟩
  case length => simp [systemReset]
  case start => exact fun k p hp => ⟨blockAtReset k p, by rw [systemReset_getElem?, hp, Option.map_some], rfl, rfl⟩
  case streams =>
    intro j k s t hs ht hjk
    rwa [systemReset_stream hs, systemReset_stream ht]
  case command =>
    have hcommand : commandOp c = i ∧ ∀ k, k ∈ commandPorts present c ↔ reached k := by
      rcases hc with ⟨port, caps, rfl, rfl, hr⟩ | ⟨port, speed, duplex, rfl, rfl, hr⟩ | ⟨rfl, rfl, hr⟩ <;>
        exact ⟨rfl, fun k => by simp [commandPorts, hr k]⟩
    obtain ⟨rfl, hports⟩ := hcommand
    refine ⟨issueCommand_length present c blocks, fun k s hk => ⟨fun hr => ?offered, fun hr => ?left,
      fun reply => ?reply, fun hl ls => ?status, commandReply_unit, commandReply_err c⟩⟩
    case offered =>
      rw [issueCommand_getElem?, hk, Option.map_some, if_pos ((hports k).mpr hr)]
      rfl
    case left => rw [issueCommand_getElem?, hk, Option.map_some, if_neg (mt (hports k).mp hr)]
    case reply => rw [mem_commandReplies hk, hports]
    case status =>
      subst hl
      rfl

end Sys2Proof.Machine
end

section
/-! PROOFS. A reset in the middle of an operation (O11; 70_reset_and_hazards.md R142, R143), a transaction that is not
answered (O23; R155), and the end of every operation whose transactions are answered (O53). -/

namespace Sys2Proof.Machine

/-! ### Reset (O11) -/

/-- Settles O11: the reset is served at once, and `blockReset` takes each element's value from the reset state. -/
theorem resetAbandonsTheOperation : Obligations.ResetAbandonsTheOperation := fun _ _ hw hh =>
  ⟨_, step_reset hw hh, rfl, rfl, rfl, rfl, rfl, rfl, rfl, rfl, rfl, rfl, rfl, rfl, rfl⟩

/-! ### A transaction that is not answered (O23) -/

/-- Settles O23: the operation is at a bus read or write, which without an answer leaves all but the PHY. -/
theorem unansweredTransactionIsNotEnabled : Obligations.UnansweredTransactionIsNotEnabled := by
  refine fun i k s reg hb => ⟨fun hm ha => ?read, fun v hm ha => ?write⟩
  case read =>
    obtain ⟨g, hg⟩ := exec_read hb hm
    rw [hg, busRead_silent ((cleared_readAnswer i s reg).trans ha), cleared_readPhy]
    rfl
  case write =>
    obtain ⟨g, hg⟩ := exec_write hb hm
    rw [hg, busWrite_silent ha]
    rfl

/-! ### A PHY that answers (O53) -/

/-- The reference responder answers every transaction (20_memory.md R51). -/
theorem refRead_ne_silent (p : Params) (f : RefPhy) (r : RegNum) : (refRead p f r).1 ≠ .silent := by
  unfold refRead
  split <;> simp

theorem refWrite_ne_silent (p : Params) (f : RefPhy) (r : RegNum) (w : Word16) : (refWrite p f r w).1 ≠ .silent := by
  unfold refWrite
  split <;> simp

/-- A PHY that answers every transaction answers a read, and still answers every transaction after it. -/
theorem Phy.Answers.read {y : Phy} (h : y.Answers) (p : Params) (r : RegNum) :
    (phyRead p y r).1 ≠ .silent ∧ (phyRead p y r).2.Answers := by
  obtain ⟨hr, hw, hrest⟩ := h
  unfold phyRead
  split
  · next a rest hs =>
    rw [hs] at hr
    exact ⟨hr a List.mem_cons_self, fun b hb => hr b (List.mem_cons_of_mem a hb), hw, hrest⟩
  · split
    · next f _ => exact ⟨refRead_ne_silent p f r, hr, hw, .inl rfl⟩
    · next hn =>
      have hfree := hrest.resolve_left (by simp [hn])
      exact ⟨(hfree y.draws).1, hr, hw, .inr hfree⟩

/-- The same of a write. -/
theorem Phy.Answers.write {y : Phy} (h : y.Answers) (p : Params) (r : RegNum) (w : Word16) :
    (phyWrite p y r w).1 ≠ .silent ∧ (phyWrite p y r w).2.Answers := by
  obtain ⟨hr, hw, hrest⟩ := h
  unfold phyWrite
  split
  · next a rest hs =>
    rw [hs] at hw
    exact ⟨hw a List.mem_cons_self, hr, fun b hb => hw b (List.mem_cons_of_mem a hb), hrest⟩
  · split
    · next f _ => exact ⟨refWrite_ne_silent p f r w, hr, hw, .inl rfl⟩
    · next hn =>
      have hfree := hrest.resolve_left (by simp [hn])
      exact ⟨(hfree y.draws).2, hr, hw, .inr hfree⟩

/-! ### Every answered micro-step is progress (O53) -/

/-- An operation's result is no transaction and no wait. -/
@[simp] theorem doneSinceAccept_done (r : Result) (l : List Event) :
    doneSinceAccept (.done r :: l) = doneSinceAccept l := by
  simp [doneSinceAccept, Event.isAccept, Event.counts, Event.isTransaction, Event.isWait]

/-- From `s` to `t` the operation has done exactly one more transaction or wait, or it has ended after at most one
more. -/
inductive Progress (s t : State) : Prop where
  | goesOn (hb : t.busy = s.busy) (hd : doneSinceAccept t.log = doneSinceAccept s.log + 1) (hy : t.phy.Answers)
  | ends (r : Result) (hr : Ended r t) (hl : t.log.head? = some (.done r))
      (hd : doneSinceAccept t.log ≤ doneSinceAccept s.log + 1)

/-- An end with no event before it. -/
theorem Progress.finish (r : Result) (s : State) : Progress s (finish r s) :=
  .ends r ⟨rfl, rfl, rfl, rfl⟩ rfl (by simp)

/-- The end of a failed transaction. -/
theorem Progress.failed {s u : State} {e : Event} (c : ErrCode) (y : Phy) (he : e.counts = true)
    (hl : u.log = s.log) : Progress s (Machine.finish (.err c) (transacted e y u)) :=
  .ends (.err c) ⟨rfl, rfl, rfl, rfl⟩ rfl (by simp [hl, doneSinceAccept_counted he])

/-- The end of an acknowledged transaction `e`. -/
theorem Tail.progress {tmp : Word16} {poll : Nat} {e : Event} {s u t : State} (h : Tail tmp poll u t)
    (he : e.counts = true) (hl : u.log = e :: s.log) (hb : u.busy = s.busy) (hy : u.phy.Answers) : Progress s t := by
  have hcount : doneSinceAccept u.log = doneSinceAccept s.log + 1 := by rw [hl, doneSinceAccept_counted he]
  rcases h.life with ⟨htl, htb, -⟩ | ⟨r, htl, hr⟩
  · exact .goesOn (htb.trans hb) (by rw [htl, hcount]) (h.phy ▸ hy)
  · exact .ends r hr (by rw [htl]; rfl) (by simp [htl, hcount])

/-- With a PHY that answers every transaction, every micro-step is progress. -/
theorem exec_progress {i : Instr} {s t : State} (hy : s.phy.Answers) (ht : exec i s = .next t) : Progress s t := by
  have hcl : (cleared i s).log = s.log := by simp [cleared_fields]
  apply exec_elim ht
  case unbound => exact fun _ _ => .finish _ s
  case internal => exact fun r _ => .finish r s
  case wait => exact fun _ _ _ => .goesOn rfl (doneSinceAccept_counted rfl s.log) hy
  case read =>
    intro reg w v _ _ _ hv
    exact (readEnd_tail hv).progress (e := .read s.params.phyDevAddr reg (.ack w)) rfl (by simp [readDone, hcl])
      (by simp [readDone, cleared_fields]) (hy.read s.params reg).2
  case write =>
    intro reg x v _ _ _ hv
    exact (writeEnd_tail hv).progress (e := .write s.params.phyDevAddr reg (toWire s.params x) .ack) rfl rfl rfl
      (hy.write s.params reg _).2
  case readNoDevice => exact fun _ _ _ => .failed _ _ rfl hcl
  case readBusError => exact fun _ _ _ => .failed _ _ rfl hcl
  case readSilent => exact fun reg _ ha => absurd ha (hy.read s.params reg).1
  case writeNoDevice => exact fun _ _ _ _ => .failed _ _ rfl rfl
  case writeBusError => exact fun _ _ _ _ => .failed _ _ rfl rfl
  case writeSilent => exact fun reg _ _ ha => absurd ha (hy.write s.params reg _).1

/-- So is every turn of a busy controller. -/
theorem TurnCase.progress {s t : State} (h : TurnCase s s t) (hb : s.busy = true) (hy : s.phy.Answers) :
    Progress s t := by
  cases h with
  | idle hi => simp [hb] at hi
  | illegal _ _ _ _ _ ht => exact ht ▸ .finish _ s
  | micro _ _ _ _ _ ht => exact exec_progress hy ht

/-! ### Every operation ends (O53) -/

/-- A busy state of the invariant with no host event pending and a PHY that answers every transaction. -/
structure Going (s : State) : Prop where
  inv : Inv s
  quiet : HostQuiet s
  answers : s.phy.Answers
  busy : s.busy = true

/-- Its next step is progress, with the same parameters, and it is again such a state or the operation has ended. -/
theorem Going.next_step {s : State} (h : Going s) :
    ∃ t, step s = .next t ∧ t.params = s.params ∧ Progress s t ∧ (t.phy.Answers → t.busy = true → Going t) := by
  have hturn : ControllerTurn s s := ⟨h.inv.params, .inl ⟨h.quiet, rfl⟩⟩
  obtain ⟨t, ht⟩ := h.inv.controllerStep_next
  have hstep : step s = .next t := (turn_step hturn).trans ht
  have hcase := turn_cases hturn ht
  have hhost : t.host = [] := (hcase.of_busy h.busy).1.trans h.quiet
  exact ⟨t, hstep, parametersNeverChange s t hstep, hcase.progress h.busy h.answers,
    fun hy hb => ⟨everyStepKeepsTheInvariant s t h.inv hstep, hhost, hy, hb⟩⟩

/-- The operation has just ended, after at most `bound` transactions and waits. -/
def JustEnded (bound : Nat) (t : State) : Prop :=
  ∃ r, Ended r t ∧ t.log.head? = some (.done r) ∧ doneSinceAccept t.log ≤ bound

/-- An operation ends within as many steps as its count of transactions and waits is short of R118's bound. -/
theorem Going.reaches_end (m : Nat) {s : State} (h : Going s)
    (hm : 12 + 4 * s.params.nPoll ≤ doneSinceAccept s.log + m) :
    ∃ n ≤ m, Reaches n s (JustEnded (12 + 4 * s.params.nPoll)) := by
  have hbelow := h.inv.below h.busy
  induction m generalizing s with
  | zero => omega
  | succ m ih =>
    obtain ⟨t, hstep, hparams, hprogress, hgoing⟩ := h.next_step
    cases hprogress with
    | ends r hr hl hd => exact ⟨1, by omega, .of_step hstep ⟨r, hr, hl, by omega⟩⟩
    | goesOn hb hd hy =>
      have ht : Going t := hgoing hy (hb.trans h.busy)
      obtain ⟨n, hn, hreach⟩ := ih ht (by rw [hparams]; omega) (ht.inv.below ht.busy)
      rw [hparams] at hreach
      exact ⟨1 + n, by omega, (Reaches.of_step (P := (· = t)) hstep rfl).trans fun _ hu => hu ▸ hreach⟩

/-- Settles O53: each step but the last adds one to the count of transactions and waits, which the invariant keeps below
R118's bound. -/
theorem everyOperationEnds : Obligations.EveryOperationEnds := by
  intro s hinv hquiet hy hb
  obtain ⟨n, hn, t, hrun, r, hr, hl, hd⟩ :=
    Going.reaches_end (12 + 4 * s.params.nPoll) ⟨hinv, hquiet, hy, hb⟩ (Nat.le_add_left _ _)
  exact ⟨n, t, r, hn, hrun, hr, hl, hd⟩

end Sys2Proof.Machine
end
